-- ==== Sys2Proof/Word.lean ====
section
/-! DEFINITION. The types the spec's values have: bytes, words, bus addresses, node handles (what the spec treats as
bits) and bit sequences (R9, R10 of 00_scope.md). -/

namespace Sys2Proof

/-- One byte: a symbol, an operand, an output byte (R6, `SYMW`). -/
abbrev Byte := BitVec 8

/-- A command word, a register, a count (R6, `CMDW`, `CW`). -/
abbrev Word := BitVec 32

/-- A byte address of the register space (R6, `AW`). -/
abbrev Addr := BitVec 15

/-- A handle of the node arena (R6, `HW`); 0x1FF is `NIL`. -/
abbrev Handle := BitVec 9

/-- A bit sequence, first bit first (R10). `false` is 0, `true` is 1. -/
abbrev BitSeq := List Bool

/-- A store indexed by a small number, as the list of its entries: the memory form of this model
(canonical form: `Memory.wf` of Machine/Ops.lean). -/
abbrev Memory (α : Type) := List (Nat × α)

end Sys2Proof
end

