-- ==== Sys2Proof/Syntax.lean ====
section
/-! DEFINITION. The command set HCMD version 1 (R104 of 30_encoding.md): one constructor per row of
spec/opcode_table.json, eighteen in all, with the operand its format carries (R101, R102). -/

namespace Sys2Proof

/-- One command. Format `N` carries no operand, format `B` a byte, format `T` one bit (R101). -/
inductive Instr where
  /-- `NOP` (R138). -/
  | nop
  /-- `RESET` (R139). -/
  | reset
  /-- `CLRF` (R151). -/
  | clrf
  /-- `COUNT s` (R152). -/
  | count (s : Byte)
  /-- `BUILD` (R162). -/
  | build
  /-- `GENTAB` (R181). -/
  | gentab
  /-- `RECON` (R245). -/
  | recon
  /-- `SER` (R231). -/
  | ser
  /-- `TABSTART` (R235). -/
  | tabstart
  /-- `TABB b` (R236). -/
  | tabb (b : Byte)
  /-- `TABEND` (R240). -/
  | tabend
  /-- `ENCSTART` (R194). -/
  | encstart
  /-- `ENC s` (R195). -/
  | enc (s : Byte)
  /-- `ENCEND` (R198). -/
  | encend
  /-- `DECSTART` (R214). -/
  | decstart
  /-- `DECB b` (R216). -/
  | decb (b : Byte)
  /-- `DECBIT t` (R217). -/
  | decbit (t : Bool)
  /-- `DECEND` (R219). -/
  | decend
  deriving DecidableEq, Repr

/-- The three operand formats (R101). -/
inductive Format where
  /-- No operand: the operand field must be 0. -/
  | n
  /-- A byte: any operand field. -/
  | b
  /-- A bit: operand field bits 7 to 1 must be 0. -/
  | t
  deriving DecidableEq, Repr

end Sys2Proof
end

