-- ==== Sys2Proof/WellFormed.lean ====
section
/-! DEFINITION. Well-formedness: which operand fields a format admits (R101), which command words are legal (R106) and,
for a term of `Instr`, that its operand is one its format admits. The operand types of `Instr` already carry their
bounds, so the checks that can fail are those on raw fields and words. -/

namespace Sys2Proof

/-- The format a command has (R101). -/
def Instr.format : Instr → Format
  | .nop => .n
  | .reset => .n
  | .clrf => .n
  | .count _ => .b
  | .build => .n
  | .gentab => .n
  | .recon => .n
  | .ser => .n
  | .tabstart => .n
  | .tabb _ => .b
  | .tabend => .n
  | .encstart => .n
  | .enc _ => .b
  | .encend => .n
  | .decstart => .n
  | .decb _ => .b
  | .decbit _ => .t
  | .decend => .n

/-- The operand field `cmd[7:0]` a command is written with (R102, R112). -/
def Instr.operand : Instr → Byte
  | .nop => 0#8
  | .reset => 0#8
  | .clrf => 0#8
  | .count s => s
  | .build => 0#8
  | .gentab => 0#8
  | .recon => 0#8
  | .ser => 0#8
  | .tabstart => 0#8
  | .tabb b => b
  | .tabend => 0#8
  | .encstart => 0#8
  | .enc s => s
  | .encend => 0#8
  | .decstart => 0#8
  | .decb b => b
  | .decbit t => if t then 1#8 else 0#8
  | .decend => 0#8

/-- The operand fields a format admits (R101). -/
def Format.admits : Format → Byte → Bool
  | .n, f => f == 0#8
  | .b, _ => true
  | .t, f => f.toNat < 2

/-- The format of each opcode the table assigns (R104, R101). -/
def opFormat (op : Byte) : Option Format :=
  match op.toNat with
  | 0x00 => some .n
  | 0x01 => some .n
  | 0x10 => some .n
  | 0x11 => some .b
  | 0x20 => some .n
  | 0x21 => some .n
  | 0x22 => some .n
  | 0x30 => some .n
  | 0x31 => some .n
  | 0x32 => some .b
  | 0x33 => some .n
  | 0x40 => some .n
  | 0x41 => some .b
  | 0x42 => some .n
  | 0x50 => some .n
  | 0x51 => some .b
  | 0x52 => some .t
  | 0x53 => some .n
  | _ => none

/-- A legal command word (R106): the upper half is 0, the opcode is assigned, and the operand field is one the
opcode's format admits. Every other word is illegal. -/
def legalWord (w : Word) : Bool :=
  w.extractLsb' 16 16 == 0#16 &&
    match opFormat (w.extractLsb' 8 8) with
    | none => false
    | some f => f.admits (w.extractLsb' 0 8)

/-- A well-formed command: its operand is one its format admits. It holds of every term (`Laws/Encoding.lean`):
the operand types leave nothing else to write. -/
def Instr.wellFormed (i : Instr) : Bool := i.format.admits i.operand

end Sys2Proof
end

