-- ==== Sys2Proof/Decode.lean ====
section
/-! DEFINITION. The decoder (R100 to R106 of 30_encoding.md), total on every 32-bit word, rejecting by name, and after
it the encoder (R112). A command word is a value written to `CMD`; it has no bytes in memory and no byte order
(R69, R83; log 21). -/

namespace Sys2Proof

/-- Why a word is illegal (R106), in the order the decoder looks. -/
inductive DecodeError where
  /-- `cmd[31:16] != 0`. -/
  | upperHalfNotZero
  /-- The opcode field is not in the table. -/
  | unassignedOpcode
  /-- A format-`N` opcode with `cmd[7:0] != 0`. -/
  | operandNotZero
  /-- `DECBIT` with `cmd[7:1] != 0`. -/
  | bitOperandTooWide
  deriving DecidableEq, Repr

/-- A format-`N` command: its operand field must be 0 (R101). -/
def decodeN (i : Instr) (f : Byte) : Except DecodeError Instr :=
  if f = 0#8 then .ok i else .error .operandNotZero

/-- The format-`T` command `DECBIT`: bits 7 to 1 of its operand field must be 0 (R101). -/
def decodeT (f : Byte) : Except DecodeError Instr :=
  if f.extractLsb' 1 7 = 0#7 then .ok (.decbit (f.getLsbD 0)) else .error .bitOperandTooWide

/-- The opcode map (R104): what opcode `op` with operand field `f` stands for. -/
def decodeOp (op f : Byte) : Except DecodeError Instr :=
  match op.toNat with
  | 0x00 => decodeN .nop f
  | 0x01 => decodeN .reset f
  | 0x10 => decodeN .clrf f
  | 0x11 => .ok (.count f)
  | 0x20 => decodeN .build f
  | 0x21 => decodeN .gentab f
  | 0x22 => decodeN .recon f
  | 0x30 => decodeN .ser f
  | 0x31 => decodeN .tabstart f
  | 0x32 => .ok (.tabb f)
  | 0x33 => decodeN .tabend f
  | 0x40 => decodeN .encstart f
  | 0x41 => .ok (.enc f)
  | 0x42 => decodeN .encend f
  | 0x50 => decodeN .decstart f
  | 0x51 => .ok (.decb f)
  | 0x52 => decodeT f
  | 0x53 => decodeN .decend f
  | _ => .error .unassignedOpcode

/-- The decoder: a function of the 32 bits alone, the same in every `MODE` (R100). -/
def decode (w : Word) : Except DecodeError Instr :=
  if w.extractLsb' 16 16 = 0#16 then decodeOp (w.extractLsb' 8 8) (w.extractLsb' 0 8)
  else .error .upperHalfNotZero

/-- The opcode field of each command (R104). -/
def Instr.op : Instr → Byte
  | .nop => 0x00#8
  | .reset => 0x01#8
  | .clrf => 0x10#8
  | .count _ => 0x11#8
  | .build => 0x20#8
  | .gentab => 0x21#8
  | .recon => 0x22#8
  | .ser => 0x30#8
  | .tabstart => 0x31#8
  | .tabb _ => 0x32#8
  | .tabend => 0x33#8
  | .encstart => 0x40#8
  | .enc _ => 0x41#8
  | .encend => 0x42#8
  | .decstart => 0x50#8
  | .decb _ => 0x51#8
  | .decbit _ => 0x52#8
  | .decend => 0x53#8

/-- The encoder (R112): `(op << 8) | operand`. -/
def encode (i : Instr) : Word := 0#16 ++ (i.op ++ i.operand)

/-- What the decoder reads from an instruction of the opcode table given as a number (bit 0 the least significant;
bits above `nbits` are 0). Every row has 32 bits (R100). -/
def decodeTableWord (nbits w : Nat) : Option Instr :=
  match decode (BitVec.ofNat 32 (w % 2 ^ nbits)) with
  | .ok i => some i
  | .error _ => none

end Sys2Proof
end

