-- ==== Sys2Proof/Config.lean ====
section
/-! DEFINITION. The fixed parameters of this hardware (R6 of 00_scope.md). The one open parameter, `OUTQ_DEPTH` (R7),
is the field `outqDepth` of State, so that every statement holds for every depth (log 8). No value of this hardware is
left undefined after an instruction, so there is no free value here. -/

namespace Sys2Proof.Config

/-- `NSYMS`: the largest alphabet (R6). -/
def nsyms : Nat := 256

/-- `CMAX`: the largest count, 2^32 - 1 (R6). -/
def cmax : Nat := 0xFFFFFFFF

/-- `NODE_CAP`: entries of the node arena (R6). -/
def nodeCap : Nat := 511

/-- `NIL`: the handle value that means "no node" (R6). -/
def nil : Handle := 0x1FF#9

/-- `LENMAX`: the longest code in bits (R6). -/
def lenMax : Nat := 255

end Sys2Proof.Config
end

