-- ==== Sys2Proof/Machine/State.lean ====
section
/-! DEFINITION. The complete state of the block (R20 of 10_state.md) as plain data, with the model's own record of the
outside world beside it (the last five fields), the reasons a step can stop, and the state right after reset (R291 of
70_reset_and_hazards.md). -/

namespace Sys2Proof.Machine

/-- `MODE` (R22): five values; 4, 5 and 6 never occur and cannot be written here (W5; log 15). -/
inductive Mode where
  | idle
  | loadtab
  | enc
  | dec
  | fault
  deriving DecidableEq, Repr

/-- `ERRCODE` (R262): 0 to 9; 10 to 15 never occur and cannot be written here (W5; log 15). -/
inductive ErrCode where
  /-- 0: no fault recorded. -/
  | none
  /-- 1, `IOFailure`: reserved, never raised by the block (R264). -/
  | ioFailure
  /-- 2, `MissingCodeError`: raised by `ENC`. -/
  | missingCode
  /-- 3, `StructuralCorruptionError`: raised by `DECB`, `DECBIT`, `DECSTART`, `RECON`. -/
  | structuralCorruption
  /-- 4, `MalformedTableError`: raised by `TABB`, `TABEND`. -/
  | malformedTable
  /-- 5, `TruncatedStreamError`: raised by `DECEND`. -/
  | truncatedStream
  /-- 6, `CountMismatchError`: raised by `ENC`, `ENCEND`. -/
  | countMismatch
  /-- 7, `OverflowError`: raised by `COUNT`, `BUILD`. -/
  | overflow
  /-- 8, `IllegalCommandError`: raised by dispatch. -/
  | illegalCommand
  /-- 9, `SequenceError`: a command's `require` failed. -/
  | sequence
  deriving DecidableEq, Repr

/-- `PST` (R47): 0 to 8; 9 to 15 never occur and cannot be written here (W5; log 15). -/
inductive ParserState where
  | h0
  | h1
  | n0
  | n1
  | n2
  | n3
  | esym
  | elen
  | ecode
  deriving DecidableEq, Repr

/-- One tree node (R31): "tagged variant — Leaf(symbol, weight) or Internal(weight, left-child, right-child)". The
fields R31 fixes (`sym` = 0 in an `Internal`, `NIL` children in a `Leaf`) are computed, not stored (log 5). -/
inductive Node where
  | leaf (sym : Byte) (weight : Word)
  | internal (weight : Word) (left right : Handle)
  deriving DecidableEq, Repr

/-- What the outside world does next (R8): a host access, a clock edge at which the sink is ready, or `rst` (log 1). -/
inductive Event where
  /-- The host reads a register (R61). -/
  | regRead (addr : Addr)
  /-- The host writes a register (R61); a write to address 0 issues a command (R130). -/
  | regWrite (addr : Addr) (v : Word)
  /-- A clock edge with `out_ready` high (R74). -/
  | sinkReady
  /-- The `rst` pin (R290). -/
  | rst
  deriving DecidableEq, Repr

/-- What the bus answers a host access (R61). -/
inductive Answer where
  | value (v : Word)
  | ok
  | busError
  deriving DecidableEq, Repr

/-- The state of the block (R20). -/
@[ext]
structure State where
  /-- `MODE` (R22). -/
  mode : Mode
  /-- `TREEV` (R23). -/
  treev : Bool
  /-- `TABV` (R23). -/
  tabv : Bool
  /-- `ERRCODE` (R24). -/
  errcode : ErrCode
  /-- `ERRSUB` (R24). -/
  errsub : BitVec 4
  /-- `ERRINFO` (R24). -/
  errinfo : Word
  /-- `FREQ` (R30): the symbols whose count is not 0, each with its count (log 4). -/
  freq : Memory Word
  /-- `NODE[0..NN-1]` (R31, R32): the allocated nodes in handle order. `NN` (R33) is their number (log 3). -/
  nodes : List Node
  /-- `ROOT` (R34). -/
  root : Handle
  /-- `CV`, `CLEN`, `CBITS` (R36): the symbols with `CV[s]` = 1, each with its code (log 3, log 4). -/
  table : Memory BitSeq
  /-- `NENT` (R38). -/
  nent : BitVec 9
  /-- `NSYM` (R39). -/
  nsym : Word
  /-- `ACC` (R42). -/
  acc : Byte
  /-- `NBITS` (R42). -/
  nbits : BitVec 3
  /-- `ENCCNT` (R42). -/
  enccnt : Word
  /-- `CUR` (R44). -/
  cur : Handle
  /-- `REM` (R44). -/
  rem : Word
  /-- `PST` (R46, R47). -/
  pst : ParserState
  /-- `PCNT` (R46). -/
  pcnt : BitVec 9
  /-- `PSYM` (R46). -/
  psym : Byte
  /-- `PLEN` (R46). -/
  plen : Byte
  /-- `PIDX` (R46). -/
  pidx : BitVec 6
  /-- `PTMP` (R46). -/
  ptmp : BitVec 24
  /-- `PBITS` (R46). -/
  pbits : BitSeq
  /-- `OUTQ` (R48), head first. -/
  outq : List Byte
  /-- Model's own: `OUTQ_DEPTH` (R7), or `none` for an unbounded queue (log 8). -/
  outqDepth : Option Nat
  /-- Model's own: emitted bytes that wait for room in `OUTQ` (R75; log 9). -/
  held : List Byte
  /-- Model's own: the bytes the sink has taken since `rst`, in order (R49; log 17). -/
  taken : List Byte
  /-- Model's own: what the host, the sink and `rst` do next, in order (log 1). -/
  pending : List Event
  /-- Model's own: the bus answers given so far, in order (log 13). -/
  answers : List Answer
  deriving DecidableEq, Repr

/-- Why the model itself stops. (A fault OF THE BLOCK is a next state, R266, and none of these.) Both arise only in
states that no run from reset reaches. -/
inductive Fault where
  /-- `GENTAB`, `DECSTART`, `DECB` or `DECBIT` would read `NODE[h]` with `h >= NN`: "holds no value", "A model must not
  give such an entry a meaning" (R32). Safe: the model stops where the spec gives no value (log 6). -/
  | unallocatedNode
  /-- `GENTAB` walks an arena in which a node lies below itself: the pseudocode of R181 never ends. Safe: a stuck state
  (log 7). -/
  | endlessWalk
  deriving DecidableEq, Repr

/-- Why an instruction has no meaning. -/
inductive Refusal where
  /-- Raised by `exec` for an instruction that is not modelled yet. Safe. No arm uses it now. -/
  | notModelled (mnemonic : String)
  deriving DecidableEq, Repr

/-- The state right after `rst` (R291), with no outside event waiting. The last five fields are the model's own
(log 23). -/
def State.reset : State where
  mode := .idle
  treev := false
  tabv := false
  errcode := .none
  errsub := 0#4
  errinfo := 0#32
  freq := []
  nodes := []
  root := Config.nil
  table := []
  nent := 0#9
  nsym := 0#32
  acc := 0#8
  nbits := 0#3
  enccnt := 0#32
  cur := Config.nil
  rem := 0#32
  pst := .h0
  pcnt := 0#9
  psym := 0#8
  plen := 0#8
  pidx := 0#6
  ptmp := 0#24
  pbits := []
  outq := []
  outqDepth := none
  held := []
  taken := []
  pending := []
  answers := []

/-- How a command's pseudocode goes on after a line: to the next line with a state, or not at all, because it raised a
fault of the block (R266) or because the model stops. -/
inductive Flow where
  | go (s : State)
  | raised (s : State)
  | stuck (f : Fault)
  deriving DecidableEq, Repr

end Sys2Proof.Machine
end

