-- ==== Sys2Proof/Machine/Operands.lean ====
section
/-! DEFINITION. Operand forms and bit order: the bits of an operand byte in stream order (R68, R211), the packing rule
(R70 of 20_memory.md), the bytes of the header fields (R69), and the numbers software reads for `MODE`, `ERRCODE`,
`PST` and the fields of a node (R22, R262, R47, R31). -/

namespace Sys2Proof.Machine

/-- The 256 symbols in ascending order: the range of every `for s in 0 .. 255`. -/
def allSyms : List Byte := (List.range 256).map (BitVec.ofNat 8)

/-- The bits of a byte in stream order: `b[7]` first, `b[0]` last (R68, R211). -/
def byteBits (b : Byte) : BitSeq :=
  [b.getLsbD 7, b.getLsbD 6, b.getLsbD 5, b.getLsbD 4, b.getLsbD 3, b.getLsbD 2, b.getLsbD 1, b.getLsbD 0]

/-- Shift one bit in at the bottom of a byte, `((v << 1) | t) & 0xFF` (R192). -/
def shiftIn (v : Byte) (t : Bool) : Byte := (v <<< 1) ||| (if t then 1#8 else 0#8)

/-- Byte `j` of `pack(c)`: its bit `7 - i` is `c[8j + i]`, and 0 past the end (R70). -/
def packByte (c : BitSeq) (j : Nat) : Byte :=
  (List.range 8).foldl (fun v i => shiftIn v (c.getD (8 * j + i) false)) 0#8

/-- The number of bytes that hold `n` bits, `ceil(n / 8)`. -/
def byteCount (n : Nat) : Nat := (n + 7) / 8

/-- `pack(c)` (R70). -/
def pack (c : BitSeq) : List Byte := (List.range (byteCount c.length)).map (packByte c)

/-- `unpack(bytes, n)` (R70): the first `n` bits of the bytes in stream order. -/
def unpack (bytes : List Byte) (n : Nat) : BitSeq := (bytes.flatMap byteBits).take n

/-- Word `w` of a code, left-justified: bit `31 - j` is `c[32w + j]`, and 0 past the end (R66). -/
def codeWord (c : BitSeq) (w : Nat) : Word :=
  (List.range 32).foldl (fun v j => (v <<< 1) ||| (if c.getD (32 * w + j) false then 1#32 else 0#32)) 0#32

/-- The length of a code as the 8-bit `CLEN` (R36). -/
def clenOf (c : BitSeq) : Byte := BitVec.ofNat 8 c.length

/-- The 16-bit `NENT` field of the header, high byte first (R69, R231). -/
def nentBytes (n : BitVec 9) : List Byte := [BitVec.zeroExtend 8 (n.extractLsb' 8 1), n.extractLsb' 0 8]

/-- The 32-bit `NSYM` field of the header, most significant byte first (R69, R231). -/
def nsymBytes (n : Word) : List Byte :=
  [n.extractLsb' 24 8, n.extractLsb' 16 8, n.extractLsb' 8 8, n.extractLsb' 0 8]

/-- The value of `MODE` (R22). -/
def Mode.code : Mode → BitVec 3
  | .idle => 0#3
  | .loadtab => 1#3
  | .enc => 2#3
  | .dec => 3#3
  | .fault => 7#3

/-- The value of `ERRCODE` (R262). -/
def ErrCode.code : ErrCode → BitVec 4
  | .none => 0#4
  | .ioFailure => 1#4
  | .missingCode => 2#4
  | .structuralCorruption => 3#4
  | .malformedTable => 4#4
  | .truncatedStream => 5#4
  | .countMismatch => 6#4
  | .overflow => 7#4
  | .illegalCommand => 8#4
  | .sequence => 9#4

/-- The value of `PST` (R47). -/
def ParserState.code : ParserState → BitVec 4
  | .h0 => 0#4
  | .h1 => 1#4
  | .n0 => 2#4
  | .n1 => 3#4
  | .n2 => 4#4
  | .n3 => 5#4
  | .esym => 6#4
  | .elen => 7#4
  | .ecode => 8#4

/-- `kind` of a node: 0 `Leaf`, 1 `Internal` (R31). -/
def Node.kind : Node → BitVec 1
  | .leaf _ _ => 0#1
  | .internal _ _ _ => 1#1

/-- `sym` of a node: 0 in an `Internal` (R31). -/
def Node.sym : Node → Byte
  | .leaf s _ => s
  | .internal _ _ _ => 0#8

/-- `weight` of a node (R31). -/
def Node.weight : Node → Word
  | .leaf _ w => w
  | .internal w _ _ => w

/-- `left` of a node: `NIL` in a `Leaf` (R31). -/
def Node.left : Node → Handle
  | .leaf _ _ => Config.nil
  | .internal _ l _ => l

/-- `right` of a node: `NIL` in a `Leaf` (R31). -/
def Node.right : Node → Handle
  | .leaf _ _ => Config.nil
  | .internal _ _ r => r

/-- The child reached on bit `t`: `left` on 0, `right` on 1 (R31). -/
def Node.child (n : Node) (t : Bool) : Handle := if t then n.right else n.left

/-- Replace the child reached on bit `t` (a slot write of R245). A `Leaf` has no such field. -/
def Node.setChild (n : Node) (t : Bool) (h : Handle) : Node :=
  match n with
  | .leaf s w => .leaf s w
  | .internal w l r => if t then .internal w l h else .internal w h r

end Sys2Proof.Machine
end

