-- ==== Sys2Proof/Machine/Flags.lean ====
section
/-! DEFINITION. The status flags `TREEV`, `TABV` and the mode machine (R22, R23 of 10_state.md; R136 of
40_control.md): the `require` line of every command, and the word `STATUS` shows (R63 of 20_memory.md). The block has no
other flags: "there are no condition codes, no carry, no zero flag" (R23). -/

namespace Sys2Proof.Machine

/-- The `require` condition of each command (R136, column `require`). `NOP` and `RESET` have none. -/
def accepts (i : Instr) (s : State) : Bool :=
  match i with
  | .nop => true
  | .reset => true
  | .clrf => s.mode == .idle
  | .count _ => s.mode == .idle
  | .build => s.mode == .idle
  | .gentab => s.mode == .idle && s.treev
  | .recon => s.mode == .idle && s.tabv
  | .ser => s.mode == .idle && s.tabv
  | .tabstart => s.mode == .idle
  | .tabb _ => s.mode == .loadtab
  | .tabend => s.mode == .loadtab
  | .encstart => s.mode == .idle && s.tabv
  | .enc _ => s.mode == .enc
  | .encend => s.mode == .enc
  | .decstart => s.mode == .idle && s.treev
  | .decb _ => s.mode == .dec
  | .decbit _ => s.mode == .dec
  | .decend => s.mode == .dec

/-- One bit as a word. -/
def bitWord (b : Bool) : Word := if b then 1#32 else 0#32

/-- `STATUS` (R63): `[2:0]` = `MODE`, `[4]` = `TREEV`, `[5]` = `TABV`, every other bit 0. -/
def statusWord (s : State) : Word :=
  s.mode.code.zeroExtend 32 ||| (bitWord s.treev <<< 4) ||| (bitWord s.tabv <<< 5)

end Sys2Proof.Machine
end

