-- ==== Sys2Proof/Machine/Ops.lean ====
section
/-! DEFINITION. The named operations every family uses: the symbol-indexed memory and its canonical form, reads and
writes of `FREQ`, the code table and the node arena (R30 to R36 of 10_state.md), `emit` and the output port (R74 to R76 of
20_memory.md), taking a fault (R266 of 60_exceptions.md), leaving it (R269: only by reset), and the dispatch frame every
command runs in (R130, R131, R135 of 40_control.md). -/

namespace Sys2Proof

/-! ### The symbol-indexed memory (log 4) -/

/-- The entry at key `k`. -/
def Memory.find {α : Type} : Memory α → Nat → Option α
  | [], _ => none
  | (j, v) :: m, k => if j = k then some v else Memory.find m k

/-- Write `v` at key `k`, keeping the keys rising. -/
def Memory.insert {α : Type} : Memory α → Nat → α → Memory α
  | [], k, v => [(k, v)]
  | (j, w) :: m, k, v =>
    if k < j then (k, v) :: (j, w) :: m
    else if k = j then (k, v) :: m
    else (j, w) :: Memory.insert m k v

/-- Remove the entry at key `k`. -/
def Memory.erase {α : Type} (m : Memory α) (k : Nat) : Memory α := m.filter (fun e => e.1 != k)

/-- The keys rise strictly and the first is at least `n`. -/
def Memory.risingFrom {α : Type} : Nat → Memory α → Bool
  | _, [] => true
  | n, (k, _) :: m => n ≤ k && Memory.risingFrom (k + 1) m

/-- Canonical form of a symbol-indexed memory: keys strictly rising, each a symbol (below 256). -/
def Memory.wf {α : Type} (m : Memory α) : Bool :=
  Memory.risingFrom 0 m && m.all (fun e => e.1 < Config.nsyms)

/-- Canonical form of `FREQ`: that of a memory, and no entry equal to what an unlisted symbol reads as (0, R30). -/
def Memory.countsWf (m : Memory Word) : Bool := Memory.wf m && m.all (fun e => e.2 != 0#32)

end Sys2Proof

namespace Sys2Proof.Machine

/-! ### Reads and writes of the stores -/

/-- `FREQ[x]` (R30): "an entry of 0 means symbol absent". -/
def freqOf (s : State) (x : Byte) : Word := (Memory.find s.freq x.toNat).getD 0#32

/-- `FREQ[x] <- v` (R30). -/
def setFreq (x : Byte) (v : Word) (s : State) : State :=
  { s with freq := if v = 0#32 then Memory.erase s.freq x.toNat else Memory.insert s.freq x.toNat v }

/-- `CV[x]` with `CBITS[x]` (R36): the code of `x`, or `none` where `CV[x]` = 0. -/
def codeOf (s : State) (x : Byte) : Option BitSeq := Memory.find s.table x.toNat

/-- `CV[x] <- 1; CLEN[x] <- len(c); CBITS[x] <- c` (R181, R236). -/
def setCode (x : Byte) (c : BitSeq) (s : State) : State := { s with table := Memory.insert s.table x.toNat c }

/-- `NN` (R33): the number of allocated nodes (log 3). -/
def State.nn (s : State) : BitVec 10 := BitVec.ofNat 10 s.nodes.length

/-- `NODE[h]`, or `none` for `h >= NN`, which holds no value (R32). -/
def nodeAt (nodes : List Node) (h : Handle) : Option Node := nodes[h.toNat]?

/-- The handle `alloc` returns: the old `NN` (R33). -/
def nextHandle (nodes : List Node) : Handle := BitVec.ofNat 9 nodes.length

/-- The arena is full: `NN = 511` (R33). -/
def arenaFull (nodes : List Node) : Bool := Config.nodeCap ≤ nodes.length

/-! ### The output port (R74 to R76) -/

/-- `OUT` (R49): "every byte `emit` was called with since `rst`, in call order". -/
def State.out (s : State) : List Byte := s.taken ++ s.outq ++ s.held

/-- How many more bytes `OUTQ` has room for, out of the `n` offered (R75); every one when the queue is unbounded. -/
def roomFor (depth : Option Nat) (queued n : Nat) : Nat :=
  match depth with
  | none => n
  | some d => d - queued

/-- `emit` of each byte in order (R75): a byte enters `OUTQ` if there is room; from the first that finds the queue full
on, the bytes wait (log 9). -/
def emitAll (bytes : List Byte) (s : State) : State :=
  if s.held = [] then
    let room := roomFor s.outqDepth s.outq.length bytes.length
    { s with outq := s.outq ++ bytes.take room, held := bytes.drop room }
  else { s with held := s.held ++ bytes }

/-- `emit(b)` (R75). -/
def emit (b : Byte) (s : State) : State := emitAll [b] s

/-- The core waits inside a command, because `OUTQ` is full (R75). -/
def State.waits (s : State) : Bool := !s.held.isEmpty

/-- The bus answers the host's access (R61). -/
def answer (a : Answer) (s : State) : State := { s with answers := s.answers ++ [a] }

/-- "The write to `CMD` completes" (R130): answered once nothing it emits is waiting (R80; log 9, log 13). -/
def complete (s : State) : State := if s.waits then s else answer .ok s

/-- `out_valid` (R74): `OUTQ` is not empty. -/
def outValid (s : State) : Bool := !s.outq.isEmpty

/-- `out_data` (R74): the head byte of `OUTQ`. -/
def outData (s : State) : Option Byte := s.outq.head?

/-- A waiting byte enters the place a transfer has made in `OUTQ` (R75). When it was the last, the waiting `CMD` write
completes (R80). -/
def refill (s : State) : State :=
  match s.held with
  | [] => s
  | b :: bs => complete { s with outq := s.outq ++ [b], held := bs }

/-- A clock edge with `out_ready` high (R74): "A transfer happens when both are high", and it removes the head byte;
with `out_valid` low nothing happens (log 18). -/
def sinkTake (s : State) : State :=
  match s.outq with
  | [] => s
  | b :: bs => refill { s with outq := bs, taken := s.taken ++ [b] }

/-! ### Faults of the block (R266) and reset (R269, R290) -/

/-- The state after `raise E(sub, info)` (R266): `MODE <- FAULT`, `ERRCODE`, `ERRSUB`, `ERRINFO` written, "Nothing else
is saved or changed". -/
def State.raised (c : ErrCode) (sub : BitVec 4) (info : Word) (s : State) : State :=
  { s with mode := .fault, errcode := c, errsub := sub, errinfo := info }

/-- `raise E(sub, info)`: the running command stops at this line (R266). -/
def raise (c : ErrCode) (sub : BitVec 4) (info : Word) (s : State) : Flow := .raised (s.raised c sub info)

/-- The state after the `RESET` command (R139): every element of R20 at its reset value except `OUTQ`; the outside
world's record is no state of the block and stays. -/
def resetBlock (s : State) : State :=
  { State.reset with
    outq := s.outq, outqDepth := s.outqDepth, held := s.held, taken := s.taken,
    pending := s.pending, answers := s.answers }

/-- The state after `rst` (R290): as `RESET`, and `OUTQ` is emptied; `OUT` starts anew (R49; log 17). A command that was
waiting is abandoned and "its `CMD` write completes with no further effect" (log 11). -/
def rstBlock (s : State) : State :=
  let t := { State.reset with outqDepth := s.outqDepth, pending := s.pending, answers := s.answers }
  if s.waits then answer .ok t else t

/-! ### Running a command (R130) -/

/-- The next line of a pseudocode, unless the command has stopped. -/
def Flow.bind (r : Flow) (k : State → Flow) : Flow :=
  match r with
  | .go s => k s
  | .raised s => .raised s
  | .stuck f => .stuck f

/-- The end of a command: a raised fault of the block is a next state (R266). -/
def Flow.finish : Flow → Host.Outcome State Fault Refusal
  | .go s => .next s
  | .raised s => .next s
  | .stuck f => .fault f

/-- The frame every command but `RESET` runs in. In `FAULT` mode it "has no effect at all" (R131; log 19); otherwise
its `require` line is checked first (R135: `raise SequenceError(0, cmd)`), then its pseudocode runs. -/
def command (i : Instr) (body : State → Flow) (s : State) : Host.Outcome State Fault Refusal :=
  if s.mode = .fault then .next s
  else if accepts i s then (body s).finish
  else (raise .sequence 0#4 (encode i) s).finish

end Sys2Proof.Machine
end

