-- ==== Sys2Proof/Machine/CodeTable.lean ====
section
/-! DEFINITION. The code table generator (43_code_table.md): `GENTAB`, the depth-first walk of R180. -/

namespace Sys2Proof.Machine

/-- The codes a subtree gives, one pair per leaf, left before right. -/
abbrev Codes := List (Byte × BitSeq)

/-- Both halves of a node's walk, or the first reason to stop. -/
def bothCodes (a b : Except Fault Codes) : Except Fault Codes :=
  match a with
  | .error f => .error f
  | .ok xs =>
    match b with
    | .error f => .error f
    | .ok ys => .ok (xs ++ ys)

/-- `walk(h, path)` (R181): 0 for `left`, 1 for `right`, an absent child skipped. `fuel` bounds the depth; the number
of nodes is enough for every tree, and only an arena with a cycle runs out of it (log 7). -/
def walk (nodes : List Node) : Nat → Handle → BitSeq → Except Fault Codes
  | 0, _, _ => .error .endlessWalk
  | fuel + 1, h, path =>
    match nodeAt nodes h with
    | none => .error .unallocatedNode
    | some (.leaf x _) => .ok [(x, path)]
    | some (.internal _ l r) =>
      bothCodes
        (if l = Config.nil then .ok [] else walk nodes fuel l (path ++ [false]))
        (if r = Config.nil then .ok [] else walk nodes fuel r (path ++ [true]))

/-- `if ROOT != NIL: walk(ROOT, [])` (R181). -/
def treeCodes (s : State) : Except Fault Codes :=
  if s.root = Config.nil then .ok [] else walk s.nodes s.nodes.length s.root []

/-- `CV`, `CLEN`, `CBITS` written for each leaf in the order of the walk (R181). -/
def storeCodes (cs : Codes) (s : State) : State := cs.foldl (fun t c => setCode c.1 c.2 t) s

/-- The pseudocode of `GENTAB` (R181). -/
def genTable (s : State) : Flow :=
  match treeCodes s with
  | .error f => .stuck f
  | .ok cs => .go { storeCodes cs { s with table := [] } with nent := BitVec.ofNat 9 cs.length, tabv := true }

/-- `GENTAB` (R181). -/
def execGentab (s : State) : Host.Outcome State Fault Refusal := command .gentab genTable s

end Sys2Proof.Machine
end

