-- ==== Sys2Proof/Machine/Control.lean ====
section
/-! DEFINITION. `NOP` and `RESET` (40_control.md). -/

namespace Sys2Proof.Machine

/-- `NOP` (R138): nothing. -/
def execNop (s : State) : Host.Outcome State Fault Refusal := command .nop .go s

/-- `RESET` (R139): acts in every mode, "the only command that acts in `FAULT` mode". -/
def execReset (s : State) : Host.Outcome State Fault Refusal := .next (resetBlock s)

end Sys2Proof.Machine
end

