-- ==== Sys2Proof/Machine/Decoder.lean ====
section
/-! DEFINITION. The bit reader and the decoder (45_decoder.md): `DECSTART`, `DECB`, `DECBIT`, `DECEND`. -/

namespace Sys2Proof.Machine

/-- `(t << 16) | CUR` (R216, R263). -/
def missingChildInfo (t : Bool) (h : Handle) : Word := (bitWord t <<< 16) ||| h.zeroExtend 32

/-- The pointer has moved to node `n` with handle `h` (R216): at a leaf emit its symbol, count it off, return to the
root. -/
def arriveAt (h : Handle) (n : Node) (s : State) : State :=
  match n with
  | .internal _ _ _ => { s with cur := h }
  | .leaf x _ => { emit x s with rem := s.rem - 1#32, cur := s.root }

/-- `decodeBit(t)` (R216). A bit that comes when `REM = 0` is discarded (R215). -/
def decodeBit (t : Bool) (s : State) : Flow :=
  if s.rem = 0#32 then .go s
  else
    match nodeAt s.nodes s.cur with
    | none => .stuck .unallocatedNode
    | some n =>
      if n.child t = Config.nil then raise .structuralCorruption 1#4 (missingChildInfo t s.cur) s
      else
        match nodeAt s.nodes (n.child t) with
        | none => .stuck .unallocatedNode
        | some m => .go (arriveAt (n.child t) m s)

/-- `decodeBit` over bits in order, stopping at the first fault (R216). -/
def decodeBits : BitSeq → State → Flow
  | [], s => .go s
  | t :: ts, s => (decodeBit t s).bind (decodeBits ts)

/-- The pseudocode of `DECSTART` (R214). With a root that is a leaf, all `NSYM` copies of its symbol are emitted here
(a count, not an unrolled loop: W13). -/
def startDecoding (s : State) : Flow :=
  if s.nsym = 0#32 then .go { s with rem := 0#32, cur := s.root, mode := .dec }
  else if s.root = Config.nil then raise .structuralCorruption 2#4 0#32 s
  else
    match nodeAt s.nodes s.root with
    | none => .stuck .unallocatedNode
    | some (.internal _ _ _) => .go { s with rem := s.nsym, cur := s.root, mode := .dec }
    | some (.leaf x _) =>
      .go { emitAll (List.replicate s.nsym.toNat x) s with rem := 0#32, cur := s.root, mode := .dec }

/-- The pseudocode of `DECEND` (R219). -/
def endDecoding (s : State) : Flow :=
  if s.rem = 0#32 then .go { s with mode := .idle } else raise .truncatedStream 0#4 s.rem s

/-- `DECSTART` (R214). -/
def execDecstart (s : State) : Host.Outcome State Fault Refusal := command .decstart startDecoding s

/-- `DECB b` (R216): the bits of `b` from `b[7]` to `b[0]`. -/
def execDecb (b : Byte) (s : State) : Host.Outcome State Fault Refusal := command (.decb b) (decodeBits (byteBits b)) s

/-- `DECBIT t` (R217). -/
def execDecbit (t : Bool) (s : State) : Host.Outcome State Fault Refusal := command (.decbit t) (decodeBit t) s

/-- `DECEND` (R219). -/
def execDecend (s : State) : Host.Outcome State Fault Refusal := command .decend endDecoding s

end Sys2Proof.Machine
end

