-- ==== Sys2Proof/Machine/Encoder.lean ====
section
/-! DEFINITION. The bit writer and the encoder (44_encoder.md): `ENCSTART`, `ENC`, `ENCEND`. -/

namespace Sys2Proof.Machine

/-- `writeBit(t)` (R192): shift in at the bottom, emit after eight shifts. -/
def writeBit (t : Bool) (s : State) : State :=
  if s.nbits = 7#3 then emit (shiftIn s.acc t) { s with acc := 0#8, nbits := 0#3 }
  else { s with acc := shiftIn s.acc t, nbits := s.nbits + 1#3 }

/-- `writeBits(c)` (R192). -/
def writeBits (c : BitSeq) (s : State) : State := c.foldl (fun u t => writeBit t u) s

/-- The pseudocode of `ENCSTART` (R194). -/
def startEncoding (s : State) : State := { s with acc := 0#8, nbits := 0#3, enccnt := 0#32, mode := .enc }

/-- The pseudocode of `ENC` (R195): the two checks come before any bit is written. -/
def encodeSym (x : Byte) (s : State) : Flow :=
  match codeOf s x with
  | none => raise .missingCode 0#4 (x.zeroExtend 32) s
  | some c =>
    if s.enccnt = s.nsym then raise .countMismatch 1#4 s.enccnt s
    else .go { writeBits c s with enccnt := s.enccnt + 1#32 }

/-- `emit((ACC << (8 - NBITS)) & 0xFF)` and clear, when bits wait (R198). -/
def flushBits (s : State) : State :=
  if s.nbits = 0#3 then s
  else emit (s.acc <<< (8 - s.nbits.toNat)) { s with acc := 0#8, nbits := 0#3 }

/-- The pseudocode of `ENCEND` (R198). -/
def endEncoding (s : State) : Flow :=
  if s.enccnt = s.nsym then .go { flushBits s with mode := .idle }
  else raise .countMismatch 2#4 s.enccnt s

/-- `ENCSTART` (R194). -/
def execEncstart (s : State) : Host.Outcome State Fault Refusal := command .encstart (fun t => .go (startEncoding t)) s

/-- `ENC x` (R195). -/
def execEnc (x : Byte) (s : State) : Host.Outcome State Fault Refusal := command (.enc x) (encodeSym x) s

/-- `ENCEND` (R198). -/
def execEncend (s : State) : Host.Outcome State Fault Refusal := command .encend endEncoding s

end Sys2Proof.Machine
end

