-- ==== Sys2Proof/Machine/Frequency.lean ====
section
/-! DEFINITION. The frequency counter (41_frequency.md): `CLRF`, `COUNT`. -/

namespace Sys2Proof.Machine

/-- `for s in 0 .. 255: FREQ[s] <- 0` (R151). -/
def clearFreq (s : State) : State := { s with freq := [] }

/-- The pseudocode of `COUNT` (R152): an increment that faults instead of wrapping. -/
def countSym (x : Byte) (s : State) : Flow :=
  if freqOf s x = 0xFFFFFFFF#32 then raise .overflow 1#4 (x.zeroExtend 32) s
  else .go (setFreq x (freqOf s x + 1#32) s)

/-- `CLRF` (R151). -/
def execClrf (s : State) : Host.Outcome State Fault Refusal := command .clrf (fun t => .go (clearFreq t)) s

/-- `COUNT x` (R152). -/
def execCount (x : Byte) (s : State) : Host.Outcome State Fault Refusal := command (.count x) (countSym x) s

end Sys2Proof.Machine
end

