-- ==== Sys2Proof/Machine/Serdes.lean ====
section
/-! DEFINITION. The table serializer, the deserializer and the tree reconstructor (46_table_serdes.md): `SER`,
`TABSTART`, `TABB`, `TABEND`, `RECON`. -/

namespace Sys2Proof.Machine

/-! ### Serializer -/

/-- One header entry (R71): symbol, length, packed code. -/
def entryBytes (x : Byte) (c : BitSeq) : List Byte := x :: clenOf c :: pack c

/-- The header entry of `x`, if it has a code. -/
def entryOf (s : State) (x : Byte) : List Byte :=
  match codeOf s x with
  | none => []
  | some c => entryBytes x c

/-- The header (R71, R231): `NENT`, `NSYM`, the entries in ascending symbol order. -/
def headerBytes (s : State) : List Byte := nentBytes s.nent ++ nsymBytes s.nsym ++ allSyms.flatMap (entryOf s)

/-- `SER` (R231). -/
def execSer (s : State) : Host.Outcome State Fault Refusal := command .ser (fun t => .go (emitAll (headerBytes t) t)) s

/-! ### Deserializer -/

/-- The pseudocode of `TABSTART` (R235). -/
def startTable (s : State) : State :=
  { s with tabv := false, treev := false, table := [], pst := .h0, mode := .loadtab }

/-- `TABV <- 1; MODE <- IDLE`: the header is complete (R236). -/
def headerDone (s : State) : State := { s with tabv := true, mode := .idle }

/-- `entry_done()` (R236). -/
def entryDone (s : State) : State :=
  let t := { setCode s.psym (s.pbits.take s.plen.toNat) s with pcnt := s.pcnt - 1#9 }
  if t.pcnt = 0#9 then headerDone t else { t with pst := .esym }

/-- `(PTMP << 8) | b` as a 32-bit number (R236). -/
def fieldSoFar (s : State) (b : Byte) : Word := (s.ptmp.zeroExtend 32 <<< 8) ||| b.zeroExtend 32

/-- `PTMP <- (PTMP << 8) | b`, `PTMP` 24 bits wide (R46, R236). -/
def pushField (b : Byte) (s : State) : State := { s with ptmp := (s.ptmp <<< 8) ||| b.zeroExtend 24 }

/-- The pseudocode of `TABB`, by the value of `PST` (R236). -/
def parseByte (b : Byte) (s : State) : Flow :=
  match s.pst with
  | .h0 => .go { s with ptmp := b.zeroExtend 24, pst := .h1 }
  | .h1 =>
    if Config.nsyms < (fieldSoFar s b).toNat then raise .malformedTable 1#4 (fieldSoFar s b) s
    else .go { s with nent := (fieldSoFar s b).setWidth 9, pst := .n0 }
  | .n0 => .go { s with ptmp := b.zeroExtend 24, pst := .n1 }
  | .n1 => .go { pushField b s with pst := .n2 }
  | .n2 => .go { pushField b s with pst := .n3 }
  | .n3 =>
    if s.nent = 0#9 then .go (headerDone { s with nsym := fieldSoFar s b, pcnt := s.nent })
    else .go { s with nsym := fieldSoFar s b, pcnt := s.nent, pst := .esym }
  | .esym =>
    match codeOf s b with
    | some _ => raise .malformedTable 2#4 (b.zeroExtend 32) s
    | none => .go { s with psym := b, pst := .elen }
  | .elen =>
    if b = 0#8 then .go (entryDone { s with plen := b, pidx := 0#6, pbits := [] })
    else .go { s with plen := b, pidx := 0#6, pbits := [], pst := .ecode }
  | .ecode =>
    let t := { s with pbits := s.pbits ++ byteBits b, pidx := s.pidx + 1#6 }
    if t.pidx.toNat = byteCount t.plen.toNat then .go (entryDone t) else .go t

/-- The pseudocode of `TABEND` (R240): "always `MalformedTableError` sub-cause 3". -/
def endTable (s : State) : Flow := raise .malformedTable 3#4 (s.pst.code.zeroExtend 32) s

/-- `TABSTART` (R235). -/
def execTabstart (s : State) : Host.Outcome State Fault Refusal := command .tabstart (fun t => .go (startTable t)) s

/-- `TABB b` (R236). -/
def execTabb (b : Byte) (s : State) : Host.Outcome State Fault Refusal := command (.tabb b) (parseByte b) s

/-- `TABEND` (R240). -/
def execTabend (s : State) : Host.Outcome State Fault Refusal := command .tabend endTable s

/-! ### Tree reconstructor -/

/-- A place that holds a handle (R245): `ROOT`, or the child field of a node reached on a bit. -/
inductive Slot where
  | root
  | child (h : Handle) (t : Bool)
  deriving DecidableEq, Repr

/-- `val(slot)` (R245). `RECON` only makes slots of nodes it has allocated. -/
def slotVal (slot : Slot) (s : State) : Handle :=
  match slot with
  | .root => s.root
  | .child h t =>
    match nodeAt s.nodes h with
    | some n => n.child t
    | none => Config.nil

/-- `slot <- h` (R245). -/
def setSlot (slot : Slot) (h : Handle) (s : State) : State :=
  match slot with
  | .root => { s with root := h }
  | .child p t => { s with nodes := s.nodes.modify p.toNat (fun n => n.setChild t h) }

/-- `h := alloc(n); slot <- h` (R33, R245). -/
def allocInto (slot : Slot) (n : Node) (s : State) : State :=
  setSlot slot (nextHandle s.nodes) { s with nodes := s.nodes ++ [n] }

/-- The body of `RECON`'s symbol loop (R245): go down code `c` from `slot`, creating an `Internal` for each bit
traversed if absent, and place the leaf of `x` at the path's end. -/
def place (x : Byte) : BitSeq → Slot → State → Flow
  | [], slot, s =>
    if slotVal slot s ≠ Config.nil then raise .structuralCorruption 4#4 (x.zeroExtend 32) s
    else if arenaFull s.nodes then raise .structuralCorruption 5#4 (x.zeroExtend 32) s
    else .go (allocInto slot (.leaf x 0#32) s)
  | t :: c, slot, s =>
    if slotVal slot s = Config.nil then
      if arenaFull s.nodes then raise .structuralCorruption 5#4 (x.zeroExtend 32) s
      else place x c (.child (nextHandle s.nodes) t) (allocInto slot (.internal 0#32 Config.nil Config.nil) s)
    else
      match nodeAt s.nodes (slotVal slot s) with
      | some (.leaf _ _) => raise .structuralCorruption 3#4 (x.zeroExtend 32) s
      | some (.internal _ _ _) => place x c (.child (slotVal slot s) t) s
      | none => .stuck .unallocatedNode

/-- One turn of the symbol loop: `if CV[s] = 1` (R245). -/
def placeSym (x : Byte) (s : State) : Flow :=
  match codeOf s x with
  | none => .go s
  | some c => place x c .root s

/-- The symbol loop, stopping at the first fault (R245, R265). -/
def placeSyms : List Byte → State → Flow
  | [], s => .go s
  | x :: xs, s => (placeSym x s).bind (placeSyms xs)

/-- The pseudocode of `RECON` (R245). -/
def reconTree (s : State) : Flow :=
  (placeSyms allSyms { s with treev := false, nodes := [], root := Config.nil }).bind
    (fun t => .go { t with treev := true })

/-- `RECON` (R245). -/
def execRecon (s : State) : Host.Outcome State Fault Refusal := command .recon reconTree s

end Sys2Proof.Machine
end

