-- ==== Sys2Proof/Machine/TreeBuilder.lean ====
section
/-! DEFINITION. The Huffman tree builder (42_tree_builder.md): `BUILD`, the greedy merge of R160 with the tie-break of
R161. -/

namespace Sys2Proof.Machine

/-- `T := sum over s in 0 .. 255 of FREQ[s]`, a natural number (R162). -/
def freqTotal (s : State) : Nat := (allSyms.map (fun x => (freqOf s x).toNat)).sum

/-- The leaves, one per symbol of the alphabet, in ascending symbol order (R161, R162). -/
def leafNodes (s : State) : List Node :=
  allSyms.filterMap (fun x => if freqOf s x = 0#32 then none else some (.leaf x (freqOf s x)))

/-- `NODE[h].weight`. -/
def weightAt (nodes : List Node) (h : Handle) : Word :=
  match nodeAt nodes h with
  | some n => n.weight
  | none => 0#32

/-- `key(a) < key(b)`, the pair (weight, handle) in lexicographic order, both unsigned (R161, R167). -/
def keyLt (nodes : List Node) (a b : Handle) : Bool :=
  (weightAt nodes a).toNat < (weightAt nodes b).toNat ||
    (weightAt nodes a == weightAt nodes b && a.toNat < b.toNat)

/-- The handle with the smallest key among `m` and a list. -/
def minKey (nodes : List Node) : Handle → List Handle → Handle
  | m, [] => m
  | m, h :: q => minKey nodes (if keyLt nodes h m then h else m) q

/-- `extract_min(Q)` (R162): the member with the smallest key, and the rest. -/
def extractMin (nodes : List Node) (q : List Handle) : Option (Handle × List Handle) :=
  match q with
  | [] => none
  | h :: t => some (minKey nodes h t, (h :: t).erase (minKey nodes h t))

/-- One turn of the loop (R162): extract two, allocate their parent (first extracted = `left`, R164), insert it. -/
def mergeOnce (q : List Handle) (nodes : List Node) : Option (List Handle × List Node) :=
  match extractMin nodes q with
  | none => none
  | some (a, q₁) =>
    match extractMin nodes q₁ with
    | none => none
    | some (b, q₂) =>
      some (q₂ ++ [nextHandle nodes], nodes ++ [.internal (weightAt nodes a + weightAt nodes b) a b])

/-- `while |Q| >= 2` (R162). Every turn makes the queue one shorter, so `fuel` = the queue's first length is enough. -/
def mergeAll : Nat → List Handle → List Node → List Handle × List Node
  | 0, q, nodes => (q, nodes)
  | fuel + 1, q, nodes =>
    match mergeOnce q nodes with
    | none => (q, nodes)
    | some (q', nodes') => mergeAll fuel q' nodes'

/-- The queue before the first merge: the handles of the `k` leaves. -/
def leafHandles (leaves : List Node) : List Handle := (List.range leaves.length).map (BitVec.ofNat 9)

/-- `if |Q| = 1: ROOT <- the one member of Q else: ROOT <- NIL` (R162). -/
def rootOf (q : List Handle) : Handle :=
  match q with
  | [h] => h
  | _ => Config.nil

/-- The pseudocode of `BUILD` (R162). -/
def buildTree (s : State) : Flow :=
  if Config.cmax < freqTotal s then raise .overflow 2#4 (BitVec.ofNat 32 (freqTotal s)) s
  else
    let leaves := leafNodes s
    let merged := mergeAll leaves.length (leafHandles leaves) leaves
    .go { s with
      nodes := merged.2, root := rootOf merged.1, table := [],
      nent := BitVec.ofNat 9 leaves.length, nsym := BitVec.ofNat 32 (freqTotal s),
      treev := true, tabv := false }

/-- `BUILD` (R162). -/
def execBuild (s : State) : Host.Outcome State Fault Refusal := command .build buildTree s

end Sys2Proof.Machine
end

