-- ==== Sys2Proof/Machine/Dispatch.lean ====
section
/-! DEFINITION. One arm per command of the opcode table (R104). -/

namespace Sys2Proof.Machine

def exec (i : Instr) (s : State) : Host.Outcome State Fault Refusal :=
  match i with
  | .nop => Sys2Proof.Machine.execNop s
  | .reset => Sys2Proof.Machine.execReset s
  | .clrf => Sys2Proof.Machine.execClrf s
  | .count x => Sys2Proof.Machine.execCount x s
  | .build => Sys2Proof.Machine.execBuild s
  | .gentab => Sys2Proof.Machine.execGentab s
  | .recon => Sys2Proof.Machine.execRecon s
  | .ser => Sys2Proof.Machine.execSer s
  | .tabstart => Sys2Proof.Machine.execTabstart s
  | .tabb b => Sys2Proof.Machine.execTabb b s
  | .tabend => Sys2Proof.Machine.execTabend s
  | .encstart => Sys2Proof.Machine.execEncstart s
  | .enc x => Sys2Proof.Machine.execEnc x s
  | .encend => Sys2Proof.Machine.execEncend s
  | .decstart => Sys2Proof.Machine.execDecstart s
  | .decb b => Sys2Proof.Machine.execDecb b s
  | .decbit t => Sys2Proof.Machine.execDecbit t s
  | .decend => Sys2Proof.Machine.execDecend s

end Sys2Proof.Machine
end

