-- ==== Sys2Proof/Machine/Bus.lean ====
section
/-! DEFINITION. The register bus (R60 to R67 of 20_memory.md), issuing a command (R130, R131, R133 of 40_control.md) and
the outside events of one step (R8 of 00_scope.md, R74, R80, R290). -/

namespace Sys2Proof.Machine

/-- A location of the register space (R62). -/
inductive Loc where
  | cmd
  | status
  | errcode
  | errinfo
  | nent
  | nsym
  | root
  | nn
  | enccnt
  | rem
  | cur
  | bitacc
  | parse
  /-- `FREQ[s]`. -/
  | freq (x : Byte)
  /-- `CLEN[s]`. -/
  | clen (x : Byte)
  /-- `CBITS[s]` word `w`, 0 to 7. -/
  | cbits (x : Byte) (w : Nat)
  /-- Word `f`, 0 to 3, of `NODE[h]`. -/
  | node (h : Nat) (f : Nat)
  deriving DecidableEq, Repr

/-- The address map (R62): what stands at a byte address; `none` where it is misaligned or reserved. -/
def locate (addr : Addr) : Option Loc :=
  let a := addr.toNat
  if a % 4 ≠ 0 then none
  else if a < 0x0400 then
    match a / 4 with
    | 0 => some .cmd
    | 1 => some .status
    | 2 => some .errcode
    | 3 => some .errinfo
    | 4 => some .nent
    | 5 => some .nsym
    | 6 => some .root
    | 7 => some .nn
    | 8 => some .enccnt
    | 9 => some .rem
    | 10 => some .cur
    | 11 => some .bitacc
    | 12 => some .parse
    | _ => none
  else if a < 0x0800 then some (.freq (BitVec.ofNat 8 ((a - 0x0400) / 4)))
  else if a < 0x0C00 then some (.clen (BitVec.ofNat 8 ((a - 0x0800) / 4)))
  else if a < 0x2000 then none
  else if a < 0x4000 then some (.cbits (BitVec.ofNat 8 ((a - 0x2000) / 32)) ((a - 0x2000) / 4 % 8))
  else if a < 0x5FF0 then some (.node ((a - 0x4000) / 16) ((a - 0x4000) / 4 % 4))
  else none

/-- Word `f` of a node's window (R67). -/
def nodeWord (n : Node) (f : Nat) : Word :=
  match f with
  | 0 => (n.kind.zeroExtend 32 <<< 31) ||| n.sym.zeroExtend 32
  | 1 => n.weight
  | 2 => n.left.zeroExtend 32
  | _ => n.right.zeroExtend 32

/-- What a read of a location returns (R62 to R67), "with no read side effect" (R63). -/
def readLoc (l : Loc) (s : State) : Word :=
  match l with
  | .cmd => 0#32
  | .status => statusWord s
  | .errcode => s.errcode.code.zeroExtend 32 ||| (s.errsub.zeroExtend 32 <<< 8)
  | .errinfo => s.errinfo
  | .nent => s.nent.zeroExtend 32
  | .nsym => s.nsym
  | .root => s.root.zeroExtend 32
  | .nn => s.nn.zeroExtend 32
  | .enccnt => s.enccnt
  | .rem => s.rem
  | .cur => s.cur.zeroExtend 32
  | .bitacc => s.acc.zeroExtend 32 ||| (s.nbits.zeroExtend 32 <<< 8)
  | .parse =>
    s.pst.code.zeroExtend 32 ||| (s.pcnt.zeroExtend 32 <<< 4) ||| (s.psym.zeroExtend 32 <<< 16) |||
      (s.plen.zeroExtend 32 <<< 24)
  | .freq x => freqOf s x
  | .clen x =>
    match codeOf s x with
    | none => 0#32
    | some c => 0x100#32 ||| (clenOf c).zeroExtend 32
  | .cbits x w =>
    match codeOf s x with
    | none => 0#32
    | some c => codeWord c w
  | .node h f =>
    match s.nodes[h]? with
    | none => 0#32
    | some n => nodeWord n f

/-- `RegRead(addr)` (R61). -/
def regRead (addr : Addr) (s : State) : Answer :=
  match locate addr with
  | none => .busError
  | some l => .value (readLoc l s)

/-- Issuing the word `cmd` (R130). In `FAULT` mode every word but `RESET` is without effect (R131: the commands through
`command`, an illegal word here); an illegal word otherwise raises `IllegalCommandError(0, cmd)` (R133). -/
def issue (cmd : Word) (s : State) : Host.Outcome State Fault Refusal :=
  match decode cmd with
  | .ok i => exec i s
  | .error _ => if s.mode = .fault then .next s else (raise .illegalCommand 0#4 cmd s).finish

/-- A change of the next state only. -/
def onNext (f : State → State) (r : Host.Outcome State Fault Refusal) : Host.Outcome State Fault Refusal :=
  match r with
  | .next s => .next (f s)
  | .fault e => .fault e
  | .refused e => .refused e

/-- `RegWrite(addr, v)` (R61): `CMD` issues a command (R130); `FREQ[s]` is written while `MODE = IDLE` (R64); every other
write answers `BusError` and changes no state. -/
def regWrite (addr : Addr) (v : Word) (s : State) : Host.Outcome State Fault Refusal :=
  match locate addr with
  | some .cmd => onNext complete (issue v s)
  | some (.freq x) => if s.mode = .idle then .next (answer .ok (setFreq x v s)) else .next (answer .busError s)
  | _ => .next (answer .busError s)

/-- One outside event (R8). -/
def handle (e : Event) (s : State) : Host.Outcome State Fault Refusal :=
  match e with
  | .regRead addr => .next (answer (regRead addr s) s)
  | .regWrite addr v => regWrite addr v s
  | .sinkReady => .next (sinkTake s)
  | .rst => .next (rstBlock s)

/-- A host access, which the bus does not accept while a command waits (R80). -/
def Event.isHost : Event → Bool
  | .regRead _ => true
  | .regWrite _ _ => true
  | .sinkReady => false
  | .rst => false

/-- The first event that is no host access, and the others in their order. -/
def takeUnstalled : List Event → Option (Event × List Event)
  | [] => none
  | e :: es =>
    if e.isHost then
      match takeUnstalled es with
      | none => none
      | some (x, rest) => some (x, e :: rest)
    else some (e, es)

/-- Which event acts next: the first; while the core waits inside a command, the first of the sink's or `rst`
(R75, R80; log 10). -/
def nextEvent (s : State) : Option (Event × List Event) :=
  if s.waits then takeUnstalled s.pending
  else
    match s.pending with
    | [] => none
    | e :: es => some (e, es)

/-- One step: the next outside event acts. With none the core does nothing: "the core takes no step on its own between
commands" (R130), and a core that waits for the sink hangs (R298; log 1). -/
def advance (s : State) : Host.Outcome State Fault Refusal :=
  match nextEvent s with
  | none => .next s
  | some (e, rest) => handle e { s with pending := rest }

/-- The sink takes `n` bytes. -/
def sinkTakes : Nat → State → State
  | 0, s => s
  | n + 1, s => sinkTakes n (sinkTake s)

/-- The state once the sink has taken the bytes a waiting command waits for, so that the bus accepts the next host
access (R80). It is `s` itself when the core does not wait. -/
def settle (s : State) : State := sinkTakes s.held.length s

/-- The host's next access is a write of `cmd` to `CMD` (R130), and the bus accepts it now (log 2). -/
def offerCommand (cmd : Word) (s : State) : State :=
  { settle s with pending := .regWrite 0#15 cmd :: (settle s).pending }

end Sys2Proof.Machine
end

