-- ==== Sys2Proof/Machine/Step.lean ====
section
/-! DEFINITION. One step of the machine: the next outside event (R8, R130). -/

namespace Sys2Proof.Machine

/-- One step (R130): "One `CMD` write is one step of the core". -/
def step (s : State) : Host.Outcome State Fault Refusal := advance s

/-- The host's next access is a write of the command word to `CMD`, and the bus accepts it (R130; log 2): the word of
`nbits` bits, zero above. -/
def State.withFetchWord (s : State) (nbits w : Nat) : State := offerCommand (BitVec.ofNat 32 (w % 2 ^ nbits)) s

end Sys2Proof.Machine
end

