-- ==== Sys2Proof/Safety.lean ====
section
/-! DEFINITION. The terms the claims use: runs of several commands, paths in the arena, the waiting bits of the
writer, what the opcode map says row by row, the requirement table of R136, and the invariants that rule out the states no
run reaches. Nothing in Machine/ uses this file. -/

namespace Sys2Proof.Machine

/-! ### Runs -/

/-- The commands one after another, each issued when the one before has ended; a stop of the model ends the run. -/
def execAll : List Instr → State → Host.Outcome State Fault Refusal
  | [], s => .next s
  | i :: is, s =>
    match exec i s with
    | .next t => execAll is t
    | .fault f => .fault f
    | .refused r => .refused r

/-- The compression sequence for `xs` (R294). -/
def compressCommands (xs : List Byte) : List Instr :=
  xs.map .count ++ [.build, .gentab, .ser, .encstart] ++ xs.map .enc ++ [.encend]

/-- The decompression sequence for a header and a bitstream (R295). -/
def decompressCommands (header bits : List Byte) : List Instr :=
  [.tabstart] ++ header.map .tabb ++ [.recon, .decstart] ++ bits.map .decb ++ [.decend]

/-! ### The tables of the spec, written out once more for the claims -/

/-- One row of the opcode map (R104): a word `w` selects it iff `w & mask = pattern`. -/
structure OpcodeRow where
  pattern : Word
  mask : Word
  build : Byte → Instr

/-- The opcode map (R104). -/
def opcodeRows : List OpcodeRow :=
  [⟨0x00000000#32, 0xFFFFFFFF#32, fun _ => .nop⟩, ⟨0x00000100#32, 0xFFFFFFFF#32, fun _ => .reset⟩,
   ⟨0x00001000#32, 0xFFFFFFFF#32, fun _ => .clrf⟩, ⟨0x00001100#32, 0xFFFFFF00#32, .count⟩,
   ⟨0x00002000#32, 0xFFFFFFFF#32, fun _ => .build⟩, ⟨0x00002100#32, 0xFFFFFFFF#32, fun _ => .gentab⟩,
   ⟨0x00002200#32, 0xFFFFFFFF#32, fun _ => .recon⟩, ⟨0x00003000#32, 0xFFFFFFFF#32, fun _ => .ser⟩,
   ⟨0x00003100#32, 0xFFFFFFFF#32, fun _ => .tabstart⟩, ⟨0x00003200#32, 0xFFFFFF00#32, .tabb⟩,
   ⟨0x00003300#32, 0xFFFFFFFF#32, fun _ => .tabend⟩, ⟨0x00004000#32, 0xFFFFFFFF#32, fun _ => .encstart⟩,
   ⟨0x00004100#32, 0xFFFFFF00#32, .enc⟩, ⟨0x00004200#32, 0xFFFFFFFF#32, fun _ => .encend⟩,
   ⟨0x00005000#32, 0xFFFFFFFF#32, fun _ => .decstart⟩, ⟨0x00005100#32, 0xFFFFFF00#32, .decb⟩,
   ⟨0x00005200#32, 0xFFFFFFFE#32, fun f => .decbit (f.getLsbD 0)⟩, ⟨0x00005300#32, 0xFFFFFFFF#32, fun _ => .decend⟩]

/-- The opcodes of format `N` (R101). -/
def formatNOps : List Nat :=
  [0x00, 0x01, 0x10, 0x20, 0x21, 0x22, 0x30, 0x31, 0x33, 0x40, 0x42, 0x50, 0x53]

/-- "That is every word with" (R106): the four ways a word is illegal, as ranges and fields. -/
def Illegal (w : Word) : Prop :=
  w.extractLsb' 16 16 ≠ 0#16 ∨
  (let op := (w.extractLsb' 8 8).toNat
   (0x02 ≤ op ∧ op ≤ 0x0F) ∨ (0x12 ≤ op ∧ op ≤ 0x1F) ∨ (0x23 ≤ op ∧ op ≤ 0x2F) ∨ (0x34 ≤ op ∧ op ≤ 0x3F) ∨
   (0x43 ≤ op ∧ op ≤ 0x4F) ∨ 0x54 ≤ op) ∨
  ((w.extractLsb' 8 8).toNat ∈ formatNOps ∧ w.extractLsb' 0 8 ≠ 0#8) ∨
  (w.extractLsb' 8 8 = 0x52#8 ∧ w.extractLsb' 1 7 ≠ 0#7)

/-- The `require` column of the mode table (R136). -/
def RequireHolds (i : Instr) (s : State) : Prop :=
  match i with
  | .nop => True
  | .reset => True
  | .clrf => s.mode = .idle
  | .count _ => s.mode = .idle
  | .build => s.mode = .idle
  | .gentab => s.mode = .idle ∧ s.treev = true
  | .recon => s.mode = .idle ∧ s.tabv = true
  | .ser => s.mode = .idle ∧ s.tabv = true
  | .tabstart => s.mode = .idle
  | .tabb _ => s.mode = .loadtab
  | .tabend => s.mode = .loadtab
  | .encstart => s.mode = .idle ∧ s.tabv = true
  | .enc _ => s.mode = .enc
  | .encend => s.mode = .enc
  | .decstart => s.mode = .idle ∧ s.treev = true
  | .decb _ => s.mode = .dec
  | .decbit _ => s.mode = .dec
  | .decend => s.mode = .dec

/-- `MODE`, `TREEV`, `TABV` of a state. -/
def State.flags (s : State) : Mode × Bool × Bool := (s.mode, s.treev, s.tabv)

/-- The three `after` columns of the mode table (R136), for a command that does not fault. -/
def FlagsAfter (i : Instr) (s t : State) : Prop :=
  match i with
  | .nop => t.flags = s.flags
  | .reset => t.flags = (.idle, false, false)
  | .clrf => t.flags = (.idle, s.treev, s.tabv)
  | .count _ => t.flags = (.idle, s.treev, s.tabv)
  | .build => t.flags = (.idle, true, false)
  | .gentab => t.flags = (.idle, true, true)
  | .recon => t.flags = (.idle, true, true)
  | .ser => t.flags = (.idle, s.treev, true)
  | .tabstart => t.flags = (.loadtab, false, false)
  | .tabb _ => t.flags = (.loadtab, false, false) ∨ t.flags = (.idle, false, true)
  | .tabend => False
  | .encstart => t.flags = (.enc, s.treev, true)
  | .enc _ => t.flags = (.enc, s.treev, true)
  | .encend => t.flags = (.idle, s.treev, true)
  | .decstart => t.flags = (.dec, true, s.tabv)
  | .decb _ => t.flags = (.dec, true, s.tabv)
  | .decbit _ => t.flags = (.dec, true, s.tabv)
  | .decend => t.flags = (.idle, true, s.tabv)

/-- A state with a fault record (R266), everything else as before. -/
def faulted (c : ErrCode) (sub : BitVec 4) (info : Word) (s : State) : State :=
  { s with mode := .fault, errcode := c, errsub := sub, errinfo := info }

/-- The faults each command raises (R262) with their detail (R263), `s` before the command and `t` after. -/
def FaultOf (i : Instr) (s t : State) : Prop :=
  (t.errcode = .sequence ∧ t.errsub = 0#4 ∧ t.errinfo = encode i) ∨
  match i with
  | .count x => t.errcode = .overflow ∧ t.errsub = 1#4 ∧ t.errinfo = x.zeroExtend 32
  | .build => t.errcode = .overflow ∧ t.errsub = 2#4 ∧ t.errinfo = BitVec.ofNat 32 (freqTotal s)
  | .recon =>
    t.errcode = .structuralCorruption ∧ (t.errsub = 3#4 ∨ t.errsub = 4#4 ∨ t.errsub = 5#4) ∧
      ∃ x : Byte, codeOf s x ≠ none ∧ t.errinfo = x.zeroExtend 32
  | .tabb b =>
    t.errcode = .malformedTable ∧
      ((t.errsub = 1#4 ∧ s.pst = .h1 ∧ t.errinfo = BitVec.ofNat 32 (s.ptmp.toNat * 256 + b.toNat)) ∨
        (t.errsub = 2#4 ∧ s.pst = .esym ∧ t.errinfo = b.zeroExtend 32))
  | .tabend => t.errcode = .malformedTable ∧ t.errsub = 3#4 ∧ t.errinfo = s.pst.code.zeroExtend 32
  | .enc x =>
    (t.errcode = .missingCode ∧ t.errsub = 0#4 ∧ t.errinfo = x.zeroExtend 32) ∨
      (t.errcode = .countMismatch ∧ t.errsub = 1#4 ∧ t.errinfo = s.enccnt)
  | .encend => t.errcode = .countMismatch ∧ t.errsub = 2#4 ∧ t.errinfo = s.enccnt
  | .decstart => t.errcode = .structuralCorruption ∧ t.errsub = 2#4 ∧ t.errinfo = 0#32
  | .decb _ =>
    t.errcode = .structuralCorruption ∧ t.errsub = 1#4 ∧
      ∃ b : Bool, t.errinfo = BitVec.ofNat 32 (b.toNat * 65536 + t.cur.toNat)
  | .decbit b =>
    t.errcode = .structuralCorruption ∧ t.errsub = 1#4 ∧
      t.errinfo = BitVec.ofNat 32 (b.toNat * 65536 + s.cur.toNat)
  | .decend => t.errcode = .truncatedStream ∧ t.errsub = 0#4 ∧ t.errinfo = s.rem
  | .nop => False
  | .reset => False
  | .clrf => False
  | .gentab => False
  | .ser => False
  | .tabstart => False
  | .encstart => False

/-- The values after the `RESET` command (R139), listed element by element; `OUTQ` "is left as it is". -/
def afterReset (s : State) : State :=
  { mode := .idle, treev := false, tabv := false, errcode := .none, errsub := 0#4, errinfo := 0#32, freq := [],
    nodes := [], root := 0x1FF#9, table := [], nent := 0#9, nsym := 0#32, acc := 0#8, nbits := 0#3, enccnt := 0#32,
    cur := 0x1FF#9, rem := 0#32, pst := .h0, pcnt := 0#9, psym := 0#8, plen := 0#8, pidx := 0#6, ptmp := 0#24,
    pbits := [], outq := s.outq, outqDepth := s.outqDepth, held := s.held, taken := s.taken, pending := s.pending,
    answers := s.answers }

/-- What a read of a register answers, whatever the host does afterwards, when the core does not wait (R61, R80). -/
def ReadsAs (s : State) (addr : Addr) (v : Word) : Prop :=
  s.held = [] → ∀ es, step { s with pending := .regRead addr :: es } =
    .next { s with pending := es, answers := s.answers ++ [.value v] }

/-- A host access that is refused: `BusError`, and nothing else changes (R61). -/
def Refuses (s : State) (e : Event) : Prop :=
  s.held = [] → ∀ es, step { s with pending := e :: es } =
    .next { s with pending := es, answers := s.answers ++ [.busError] }

/-- Addresses that answer `BusError` to every access (R61, R62): misaligned or reserved. -/
def NoLocation (addr : Addr) : Prop :=
  addr.toNat % 4 ≠ 0 ∨ (0x0034 ≤ addr.toNat ∧ addr.toNat < 0x0400) ∨ (0x0C00 ≤ addr.toNat ∧ addr.toNat < 0x2000) ∨
    0x5FF0 ≤ addr.toNat

/-- The value of `MODE` (R22). -/
def modeNumber : Mode → Nat
  | .idle => 0
  | .loadtab => 1
  | .enc => 2
  | .dec => 3
  | .fault => 7

/-- The value of `ERRCODE` (R262). -/
def errNumber : ErrCode → Nat
  | .none => 0
  | .ioFailure => 1
  | .missingCode => 2
  | .structuralCorruption => 3
  | .malformedTable => 4
  | .truncatedStream => 5
  | .countMismatch => 6
  | .overflow => 7
  | .illegalCommand => 8
  | .sequence => 9

/-- The value of `PST` (R47). -/
def parserNumber : ParserState → Nat
  | .h0 => 0
  | .h1 => 1
  | .n0 => 2
  | .n1 => 3
  | .n2 => 4
  | .n3 => 5
  | .esym => 6
  | .elen => 7
  | .ecode => 8

/-! ### Bits, paths, codes -/

/-- The bits waiting in `ACC`, the oldest first (R42). -/
def accBits (s : State) : BitSeq :=
  (List.range s.nbits.toNat).map (fun i => s.acc.getLsbD (s.nbits.toNat - 1 - i))

/-- The handle reached from `h` by a path of child choices (0 `left`, 1 `right`; R31), through allocated nodes. -/
def descend (nodes : List Node) : Handle → BitSeq → Option Handle
  | h, [] => if h ≠ Config.nil ∧ h.toNat < nodes.length then some h else none
  | h, b :: p =>
    if h = Config.nil then none
    else
      match nodeAt nodes h with
      | some (.internal _ l r) => descend nodes (if b then r else l) p
      | _ => none

/-- The node at the end of a path. -/
def follow (nodes : List Node) (h : Handle) (p : BitSeq) : Option Node :=
  (descend nodes h p).bind (nodeAt nodes)

/-- The alphabet (R13): the symbols with a count, ascending. -/
def alphabet (s : State) : List Byte := allSyms.filter (fun x => freqOf s x ≠ 0#32)

/-- The codes of the table in ascending symbol order. -/
def codesInOrder (s : State) : List BitSeq := allSyms.filterMap (codeOf s)

/-- Prefix-free (R170 c): "for all pairs of distinct symbols with assigned codes, neither code is a prefix of the
other". -/
def PrefixFree (s : State) : Prop := (codesInOrder s).Pairwise (fun c d => ¬ c <+: d ∧ ¬ d <+: c)

/-- How many nodes a tree for the table needs: one for each different beginning of a code. -/
def trieSize (s : State) : Nat := ((codesInOrder s).flatMap List.inits).dedup.length

/-- The child handle of node `h` on bit `t`, `NIL` for a leaf or an unallocated handle. -/
def childAt (nodes : List Node) (h : Nat) (t : Bool) : Handle :=
  match nodes[h]? with
  | some n => n.child t
  | none => Config.nil

/-- `key(a) < key(b)` (R161): lexicographic on (weight, handle). -/
def KeyBefore (nodes : List Node) (a b : Handle) : Prop :=
  (weightAt nodes a).toNat < (weightAt nodes b).toNat ∨
    (weightAt nodes a = weightAt nodes b ∧ a.toNat < b.toNat)

/-- `h` is in the queue `Q` when the first `m` nodes stand (R162): allocated, and not yet made a child. -/
def InQueue (nodes : List Node) (m : Nat) (h : Handle) : Prop :=
  h.toNat < m ∧ ∀ g, g < m → ∀ t, childAt nodes g t ≠ h

/-! ### Invariants -/

/-- `FREQ` and the code table are in canonical form. -/
def StoresOk (s : State) : Prop := Memory.countsWf s.freq = true ∧ Memory.wf s.table = true

/-- R24: "While `MODE != FAULT` all three are 0"; in `FAULT` a fault is recorded, never `IOFailure` (R264). -/
def FaultRecordOk (s : State) : Prop :=
  (s.mode ≠ .fault → s.errcode = .none ∧ s.errsub = 0#4 ∧ s.errinfo = 0#32) ∧
  (s.mode = .fault → s.errcode ≠ .none ∧ s.errcode ≠ .ioFailure)

/-- What the mode says of the flags (R82, R136): a table while encoding, a tree while decoding, neither while a header is
parsed. -/
def ModeOk (s : State) : Prop :=
  (s.mode = .enc → s.tabv = true) ∧ (s.mode = .dec → s.treev = true) ∧
  (s.mode = .loadtab → s.treev = false ∧ s.tabv = false)

/-- R42: `ACC[7:NBITS]` is 0, and outside `MODE = ENC` (and a fault) `ACC` and `NBITS` are 0. -/
def WriterOk (s : State) : Prop :=
  s.acc.toNat < 2 ^ s.nbits.toNat ∧ (s.mode ≠ .enc → s.mode ≠ .fault → s.acc = 0#8 ∧ s.nbits = 0#3)

/-- R75: `OUTQ` holds at most `OUTQ_DEPTH` bytes, and bytes wait only while it is full. -/
def QueueOk (s : State) : Prop :=
  match s.outqDepth with
  | none => s.held = []
  | some d => s.outq.length ≤ d ∧ (s.held ≠ [] → s.outq.length = d)

/-- The header parser between two bytes (R46, R236). -/
def ParserOk (s : State) : Prop :=
  s.mode = .loadtab →
    (s.pst = .h0 ∨ s.pst = .h1 ∨ s.nent.toNat ≤ 256) ∧
    (s.pst = .esym ∨ s.pst = .elen ∨ s.pst = .ecode ∨ s.table = []) ∧
    (s.pst = .esym ∨ s.pst = .elen ∨ s.pst = .ecode →
      0 < s.pcnt.toNat ∧ s.pcnt.toNat + s.table.length = s.nent.toNat) ∧
    (s.pst = .elen ∨ s.pst = .ecode → codeOf s s.psym = none) ∧
    (s.pst = .ecode → s.pidx.toNat < byteCount s.plen.toNat ∧ s.pbits.length = 8 * s.pidx.toNat)

/-- The arena is closed (every child is `NIL` or allocated, R35 a), holds at most 511 nodes (R33), and its children all
stand on one side of their parents: below after `BUILD`, above in what `RECON` makes. So no node lies below itself. -/
def ArenaOk (nodes : List Node) : Prop :=
  nodes.length ≤ Config.nodeCap ∧
  (∀ h < nodes.length, ∀ t, childAt nodes h t = Config.nil ∨ (childAt nodes h t).toNat < nodes.length) ∧
  ((∀ h < nodes.length, ∀ t, childAt nodes h t = Config.nil ∨ (childAt nodes h t).toNat < h) ∨
    (∀ h < nodes.length, ∀ t, childAt nodes h t = Config.nil ∨ h < (childAt nodes h t).toNat))

/-- `h` is an allocated `Internal`. -/
def isInternal (nodes : List Node) (h : Handle) : Bool :=
  match nodeAt nodes h with
  | some (.internal _ _ _) => true
  | _ => false

/-- The arena, `ROOT` (R35 a), and the decoder invariant (R213): "while `MODE = DEC` and `REM > 0`, `CUR` is the handle
of an `Internal` node" (so is `ROOT`, to which it returns). -/
def TreeOk (s : State) : Prop :=
  ArenaOk s.nodes ∧ (s.root = Config.nil ∨ s.root.toNat < s.nodes.length) ∧
  (s.mode = .dec → s.rem ≠ 0#32 → isInternal s.nodes s.root = true ∧ isInternal s.nodes s.cur = true)

/-- Codes are at most `LENMAX` bits (R6, R36), and so are the paths of a valid tree (R182). -/
def LengthsOk (s : State) : Prop :=
  (∀ x c, codeOf s x = some c → c.length ≤ Config.lenMax) ∧
  (s.treev = true → ∀ p h, descend s.nodes s.root p = some h → p.length ≤ Config.lenMax)

/-- Every `Internal` has both children (a strict tree, R13, R35 c). -/
def StrictArena (nodes : List Node) : Prop :=
  ∀ h < nodes.length, isInternal nodes (BitVec.ofNat 9 h) = true → ∀ t, childAt nodes h t ≠ Config.nil

/-- Two states that differ at most in the output queue, its depth and what the sink has taken, with the same `OUT`
(R76). -/
def SameButQueue (a b : State) : Prop :=
  b = { a with outqDepth := b.outqDepth, outq := b.outq, held := b.held, taken := b.taken } ∧ a.out = b.out

end Sys2Proof.Machine
end

