-- ==== Sys2Proof/Certificates/Slice0/Obligations.lean ====
section
/-! DEFINITION. The statements for the provers, one per `def Obligations.<Name> : Prop`. Each docstring names the rule of
spec/ it formalises. "Everything else" is said by an equation `t = { s with … }` that lists what may differ. -/

open Sys2Proof Sys2Proof.Machine

/-! ### Encoding (30_encoding.md) -/

/-- The decoder reads command `i` from a word exactly when the word is the encoding of `i` (R100, R104, R112): every
operand value survives, and no word has two readings. -/
def Obligations.DecodeEncodeAgree : Prop :=
  ∀ (w : Word) (i : Instr), decode w = .ok i ↔ w = encode i

/-- R104: a word selects a row iff `w & mask = match`, the row's command carries the operand field, and no two rows'
patterns overlap. -/
def Obligations.OpcodeMapRowsAreWhatDecodes : Prop :=
  (∀ (w : Word) (i : Instr),
    decode w = .ok i ↔ ∃ r ∈ opcodeRows, w &&& r.mask = r.pattern ∧ r.build (w.extractLsb' 0 8) = i) ∧
  (∀ (w : Word), ∀ r ∈ opcodeRows, ∀ q ∈ opcodeRows,
    w &&& r.mask = r.pattern → w &&& q.mask = q.pattern → r.pattern = q.pattern)

/-- Words written out from R112 and V-COD decode to the commands they stand for. -/
def Obligations.WrittenOutWordsDecode : Prop :=
  decode 0x00000000#32 = .ok .nop ∧ decode 0x00001161#32 = .ok (.count 0x61#8) ∧
  decode 0x00002000#32 = .ok .build ∧ decode 0x00002100#32 = .ok .gentab ∧ decode 0x00003280#32 = .ok (.tabb 0x80#8) ∧
  decode 0x00004162#32 = .ok (.enc 0x62#8) ∧ decode 0x00005201#32 = .ok (.decbit true) ∧
  decode 0x00005202#32 = .error .bitOperandTooWide ∧ decode 0x00010000#32 = .error .upperHalfNotZero

/-! ### Dispatch and the mode machine (40_control.md) -/

/-- R130: when the core does not wait and the host's next access is a write of `w` to `CMD`, and `w` decodes to `i`, the
step is `exec i` on the state without that access. The model's own part (log 9, log 13): the write is answered `ok`, once
no byte of the command waits. -/
def Obligations.StepRunsTheDecodedCommand : Prop :=
  ∀ (s : State) (w : Word) (i : Instr) (es : List Event),
    s.held = [] → s.pending = .regWrite 0#15 w :: es → decode w = .ok i →
    step s =
      match exec i { s with pending := es } with
      | .next t => .next (if t.held = [] then { t with answers := t.answers ++ [.ok] } else t)
      | .fault f => .fault f
      | .refused r => .refused r

/-- R106, R133: the illegal words, and what writing one does while `MODE != FAULT`: `raise IllegalCommandError(0, cmd)`,
no other state changes. -/
def Obligations.IllegalWordRaises : Prop :=
  (∀ w : Word, Illegal w ↔ ∀ i, decode w ≠ .ok i) ∧
  ∀ (s : State) (w : Word) (es : List Event),
    s.held = [] → s.pending = .regWrite 0#15 w :: es → s.mode ≠ .fault → Illegal w →
    ∃ t, step s = .next t ∧ t = { s with
      mode := .fault, errcode := .illegalCommand, errsub := 0#4, errinfo := w, pending := es, answers := t.answers }

/-- R131: in `FAULT` mode a write to `CMD` has no effect at all, whatever the word, except the word of `RESET`, which
resets. -/
def Obligations.FaultModeIgnoresAllButReset : Prop :=
  ∀ (s : State) (w : Word) (es : List Event),
    s.held = [] → s.pending = .regWrite 0#15 w :: es → s.mode = .fault →
    ∃ t, step s = .next t ∧
      (w ≠ 0x00000100#32 → t = { s with pending := es, answers := t.answers }) ∧
      (w = 0x00000100#32 → t = { afterReset s with pending := es, answers := t.answers })

/-- R135: a command whose `require` condition (the table of R136) is false raises `SequenceError(0, cmd)`; no other state
changes. -/
def Obligations.FailedRequireRaisesSequenceError : Prop :=
  ∀ (i : Instr) (s : State), s.mode ≠ .fault → ¬ RequireHolds i s →
    exec i s = .next (faulted .sequence 0#4 (encode i) s)

/-- R136: the mode and flags each command leaves when it does not fault, and, when it faults, what it has changed of the
flags by then (only `RECON` has: `TREEV = 0`). -/
def Obligations.ModeMachine : Prop :=
  ∀ (i : Instr) (s t : State), ModeOk s → s.mode ≠ .fault → exec i s = .next t →
    (RequireHolds i s → t.mode ≠ .fault → FlagsAfter i s t) ∧
    (t.mode = .fault → t.tabv = s.tabv ∧ (i ≠ .recon ∨ ¬ RequireHolds i s → t.treev = s.treev) ∧
      (i = .recon → RequireHolds i s → t.treev = false))

/-- R138, R139: `NOP` changes nothing in any mode; `RESET` acts in every mode, also `FAULT`, and leaves `OUTQ` (and what
the model keeps of the outside world) as it is. -/
def Obligations.NopAndResetActInEveryMode : Prop :=
  encode .nop = 0x00000000#32 ∧ encode .reset = 0x00000100#32 ∧
  ∀ s : State, exec .nop s = .next s ∧ exec .reset s = .next (afterReset s)

/-! ### Frequency counter (41_frequency.md) -/

/-- R151: `CLRF` clears every count and changes nothing else. -/
def Obligations.ClrfClearsTheCounts : Prop :=
  encode .clrf = 0x00001000#32 ∧
  ∀ s : State,
    (s.mode = .idle → ∃ t, exec .clrf s = .next t ∧ t = { s with freq := t.freq } ∧ ∀ x, freqOf t x = 0#32) ∧
    (s.mode ≠ .idle → s.mode ≠ .fault → exec .clrf s = .next (faulted .sequence 0#4 (encode .clrf) s))

/-- R152: `COUNT x` adds one to `FREQ[x]` and changes nothing else; at 2^32 - 1 it faults and the count stays. -/
def Obligations.CountIncrements : Prop :=
  ∀ (x : Byte) (s : State),
    encode (.count x) = 0x00001100#32 ||| x.zeroExtend 32 ∧
    (s.mode = .idle → freqOf s x ≠ 0xFFFFFFFF#32 →
      ∃ t, exec (.count x) s = .next t ∧ t = { s with freq := t.freq } ∧
        freqOf t x = freqOf s x + 1#32 ∧ ∀ y, y ≠ x → freqOf t y = freqOf s y) ∧
    (s.mode = .idle → freqOf s x = 0xFFFFFFFF#32 →
      exec (.count x) s = .next (faulted .overflow 1#4 (x.zeroExtend 32) s)) ∧
    (s.mode ≠ .idle → s.mode ≠ .fault →
      exec (.count x) s = .next (faulted .sequence 0#4 (encode (.count x)) s))

/-- R153: after `COUNT x1 ... COUNT xn` from an all-zero `FREQ`, with no fault, `FREQ[s]` is the number of `i` with
`xi = s`, and the alphabet is the set of bytes present. Fewer than 2^32 bytes cannot fault. -/
def Obligations.CountsAddUp : Prop :=
  ∀ (xs : List Byte) (s : State), s.mode = .idle → (∀ x, freqOf s x = 0#32) →
    (xs.length < 2 ^ 32 →
      ∃ t, execAll (xs.map .count) s = .next t ∧ t = { s with freq := t.freq }) ∧
    (∀ t, execAll (xs.map .count) s = .next t → t.mode ≠ .fault →
      ∀ x, (freqOf t x).toNat = xs.count x ∧ (0 < (freqOf t x).toNat ↔ x ∈ xs))

/-! ### Tree builder (42_tree_builder.md) -/

/-- R162, R163, R165, R166: when the counts sum to less than 2^32, `BUILD` completes: the leaves have the first handles
in ascending symbol order, each merge makes the next handle, the root is the last node; an alphabet of one gives its
leaf as root, an empty one the empty tree. `NENT` is the alphabet's size, `NSYM` the sum. Otherwise it raises
`OverflowError(2, sum mod 2^32)` before anything is written. -/
def Obligations.BuildNumbersTheNodes : Prop :=
  ∀ (s : State), s.mode = .idle →
    ((allSyms.map (fun x => (freqOf s x).toNat)).sum ≤ 0xFFFFFFFF →
      ∃ t, exec .build s = .next t ∧
        t = { s with nodes := t.nodes, root := t.root, table := [], nent := BitVec.ofNat 9 (alphabet s).length,
                     nsym := BitVec.ofNat 32 (allSyms.map (fun x => (freqOf s x).toNat)).sum,
                     treev := true, tabv := false } ∧
        t.nodes.take (alphabet s).length = (alphabet s).map (fun x => .leaf x (freqOf s x)) ∧
        t.nodes.length = 2 * (alphabet s).length - 1 ∧
        (∀ h, (alphabet s).length ≤ h → h < t.nodes.length → isInternal t.nodes (BitVec.ofNat 9 h) = true) ∧
        t.root = if (alphabet s).length = 0 then 0x1FF#9 else BitVec.ofNat 9 (2 * (alphabet s).length - 2)) ∧
    (0xFFFFFFFF < (allSyms.map (fun x => (freqOf s x).toNat)).sum →
      exec .build s = .next
        (faulted .overflow 2#4 (BitVec.ofNat 32 (allSyms.map (fun x => (freqOf s x).toNat)).sum) s))

/-- R161, R162, R164, R167: merge `j` of `BUILD` takes from the queue the two nodes with the smallest keys (weight, handle),
the smaller first; the first becomes `left`, the second `right`, and the weight is the sum of theirs, which does not
overflow. -/
def Obligations.BuildMergesTheTwoLightest : Prop :=
  ∀ (s t : State), s.mode = .idle → (allSyms.map (fun x => (freqOf s x).toNat)).sum ≤ 0xFFFFFFFF →
    exec .build s = .next t →
    ∀ m, (alphabet s).length ≤ m → m < t.nodes.length →
      ∃ a b : Handle,
        t.nodes[m]? = some (.internal (weightAt t.nodes a + weightAt t.nodes b) a b) ∧
        (weightAt t.nodes a).toNat + (weightAt t.nodes b).toNat < 2 ^ 32 ∧
        InQueue t.nodes m a ∧ InQueue t.nodes m b ∧ KeyBefore t.nodes a b ∧
        ∀ h, InQueue t.nodes m h → h ≠ a → h ≠ b → KeyBefore t.nodes b h

/-- R35 (a), (b), (c), R167: the tree of `BUILD` is strict, every node is reached from the root by exactly one path, and
the root weighs `NSYM`. -/
def Obligations.BuildTreeIsStrict : Prop :=
  ∀ (s t : State), s.mode = .idle → exec .build s = .next t → t.mode ≠ .fault →
    (∀ m, m < t.nodes.length → isInternal t.nodes (BitVec.ofNat 9 m) = true → ∀ b,
      childAt t.nodes m b ≠ 0x1FF#9 ∧ (childAt t.nodes m b).toNat < t.nodes.length) ∧
    (∀ h : Handle, h.toNat < t.nodes.length → ∃ p, descend t.nodes t.root p = some h) ∧
    (∀ p q h, descend t.nodes t.root p = some h → descend t.nodes t.root q = some h → p = q) ∧
    (t.root ≠ 0x1FF#9 → weightAt t.nodes t.root = t.nsym)

/-! ### Code table generator (43_code_table.md) -/

/-- R181, R184: on a valid tree `GENTAB` completes and writes the table only: every code is the path from the root to a
leaf of its symbol, every leaf reached gives its symbol a code, the codes are prefix-free (R170 c, R180), and where no two
paths reach the same symbol `NENT` is the number of entries. (Off a valid tree the model may stop: log 6, log 7.) -/
def Obligations.GentabRecordsThePaths : Prop :=
  ∀ (s : State), TreeOk s → s.mode = .idle → s.treev = true →
    ∃ t, exec .gentab s = .next t ∧
      t = { s with table := t.table, nent := t.nent, tabv := true } ∧
      (∀ x p, codeOf t x = some p → ∃ w, follow s.nodes s.root p = some (.leaf x w)) ∧
      (∀ x p w, follow s.nodes s.root p = some (.leaf x w) → codeOf t x ≠ none) ∧
      PrefixFree t ∧
      ((∀ x p q w v, follow s.nodes s.root p = some (.leaf x w) → follow s.nodes s.root q = some (.leaf x v) → p = q) →
        t.nent = BitVec.ofNat 9 (codesInOrder t).length)

/-- R185 without its Kraft sum: `GENTAB` after `BUILD` gives a code to exactly the symbols with a count, `NENT = k`, the
codes are prefix-free, and for `k >= 2` each has 1 to `k - 1` bits. -/
def Obligations.GentabAfterBuildCoversTheAlphabet : Prop :=
  ∀ (s t : State), s.mode = .idle → exec .build s = .next t → t.mode ≠ .fault →
    ∃ u, exec .gentab t = .next u ∧
      (∀ x, codeOf u x ≠ none ↔ freqOf s x ≠ 0#32) ∧ u.nent.toNat = (alphabet s).length ∧ PrefixFree u ∧
      (2 ≤ (alphabet s).length → ∀ x c, codeOf u x = some c → 1 ≤ c.length ∧ c.length ≤ (alphabet s).length - 1)

/-- R170: (a) the tree of `BUILD` is strict; (b) "a symbol with strictly higher frequency never receives a strictly longer
code than one with strictly lower frequency"; (c) the codes are prefix-free. -/
def Obligations.HeavierSymbolsGetNoLongerCodes : Prop :=
  ∀ (s t u : State), s.mode = .idle → exec .build s = .next t → t.mode ≠ .fault → exec .gentab t = .next u →
    StrictArena t.nodes ∧
    (∀ x y c d, codeOf u x = some c → codeOf u y = some d → (freqOf s y).toNat < (freqOf s x).toNat →
      c.length ≤ d.length) ∧
    PrefixFree u

/-! ### Serializer, deserializer, tree reconstructor (46_table_serdes.md) -/

/-- R231, R71: `SER` emits the header and changes nothing else: `NENT` and `NSYM` big-endian, then for each symbol with a
code, ascending, its value, its length and its packed code. -/
def Obligations.SerEmitsTheHeader : Prop :=
  encode .ser = 0x00003000#32 ∧
  ∀ (s : State),
    (s.mode = .idle → s.tabv = true →
      ∃ t, exec .ser s = .next t ∧ t = { s with outq := t.outq, held := t.held } ∧
        ∃ entries : List Byte,
          t.out = s.out ++ ([BitVec.ofNat 8 (s.nent.toNat / 256), BitVec.ofNat 8 (s.nent.toNat % 256),
            BitVec.ofNat 8 (s.nsym.toNat / 2 ^ 24), BitVec.ofNat 8 (s.nsym.toNat / 2 ^ 16 % 256),
            BitVec.ofNat 8 (s.nsym.toNat / 2 ^ 8 % 256), BitVec.ofNat 8 (s.nsym.toNat % 256)] ++ entries) ∧
          entries = allSyms.flatMap (fun x =>
            match codeOf s x with
            | none => []
            | some c => x :: BitVec.ofNat 8 c.length :: pack c) ∧
          entries.length = ((codesInOrder s).map (fun c => 2 + (c.length + 7) / 8)).sum) ∧
    (s.mode ≠ .fault → ¬ (s.mode = .idle ∧ s.tabv = true) →
      exec .ser s = .next (faulted .sequence 0#4 (encode .ser) s))

/-- R235: `TABSTART`. -/
def Obligations.TabstartOpensTheHeader : Prop :=
  encode .tabstart = 0x00003100#32 ∧
  ∀ (s : State),
    (s.mode = .idle → exec .tabstart s =
      .next { s with tabv := false, treev := false, table := [], pst := .h0, mode := .loadtab }) ∧
    (s.mode ≠ .idle → s.mode ≠ .fault →
      exec .tabstart s = .next (faulted .sequence 0#4 (encode .tabstart) s))

/-- What `entry_done()` of R236 leaves of `s`, for an entry with length `len` and code bits `bits`: the entry of `PSYM`
is written, `PCNT` counted down, and the header is complete when that reaches 0. -/
def EntryCompleted (s t : State) (len : Byte) (idx : BitVec 6) (bits : BitSeq) : Prop :=
  codeOf t s.psym = some (bits.take len.toNat) ∧ (∀ y, y ≠ s.psym → codeOf t y = codeOf s y) ∧
  t = { s with
    plen := len, pidx := idx, pbits := bits, table := t.table, pcnt := s.pcnt - 1#9,
    tabv := if s.pcnt = 1#9 then true else s.tabv, mode := if s.pcnt = 1#9 then .idle else .loadtab,
    pst := if s.pcnt = 1#9 then t.pst else .esym } ∧
  (s.pcnt = 1#9 → t.pst = s.pst)

/-- R236: what `TABB b` does in each of the nine parser states. -/
def Obligations.TabbParsesOneByte : Prop :=
  ∀ (b : Byte) (s : State),
    encode (.tabb b) = 0x00003200#32 ||| b.zeroExtend 32 ∧
    (s.mode ≠ .loadtab → s.mode ≠ .fault →
      exec (.tabb b) s = .next (faulted .sequence 0#4 (encode (.tabb b)) s)) ∧
    (s.mode = .loadtab →
      (s.pst = .h0 → exec (.tabb b) s = .next { s with ptmp := b.zeroExtend 24, pst := .h1 }) ∧
      (s.pst = .h1 → s.ptmp.toNat * 256 + b.toNat ≤ 256 →
        exec (.tabb b) s = .next { s with nent := BitVec.ofNat 9 (s.ptmp.toNat * 256 + b.toNat), pst := .n0 }) ∧
      (s.pst = .h1 → 256 < s.ptmp.toNat * 256 + b.toNat →
        exec (.tabb b) s = .next (faulted .malformedTable 1#4 (BitVec.ofNat 32 (s.ptmp.toNat * 256 + b.toNat)) s)) ∧
      (s.pst = .n0 → exec (.tabb b) s = .next { s with ptmp := b.zeroExtend 24, pst := .n1 }) ∧
      (s.pst = .n1 →
        exec (.tabb b) s = .next { s with ptmp := BitVec.ofNat 24 (s.ptmp.toNat * 256 + b.toNat), pst := .n2 }) ∧
      (s.pst = .n2 →
        exec (.tabb b) s = .next { s with ptmp := BitVec.ofNat 24 (s.ptmp.toNat * 256 + b.toNat), pst := .n3 }) ∧
      (s.pst = .n3 → s.nent ≠ 0#9 →
        exec (.tabb b) s = .next { s with
          nsym := BitVec.ofNat 32 (s.ptmp.toNat * 256 + b.toNat), pcnt := s.nent, pst := .esym }) ∧
      (s.pst = .n3 → s.nent = 0#9 →
        exec (.tabb b) s = .next { s with
          nsym := BitVec.ofNat 32 (s.ptmp.toNat * 256 + b.toNat), pcnt := s.nent, tabv := true, mode := .idle }) ∧
      (s.pst = .esym → codeOf s b = none →
        exec (.tabb b) s = .next { s with psym := b, pst := .elen }) ∧
      (s.pst = .esym → codeOf s b ≠ none →
        exec (.tabb b) s = .next (faulted .malformedTable 2#4 (b.zeroExtend 32) s)) ∧
      (s.pst = .elen → b ≠ 0#8 →
        exec (.tabb b) s = .next { s with plen := b, pidx := 0#6, pbits := [], pst := .ecode }) ∧
      (s.pst = .elen → b = 0#8 →
        ∃ t, exec (.tabb b) s = .next t ∧ EntryCompleted s t 0#8 0#6 []) ∧
      (s.pst = .ecode → (s.pidx + 1#6).toNat ≠ (s.plen.toNat + 7) / 8 →
        exec (.tabb b) s = .next { s with pbits := s.pbits ++ byteBits b, pidx := s.pidx + 1#6 }) ∧
      (s.pst = .ecode → (s.pidx + 1#6).toNat = (s.plen.toNat + 7) / 8 →
        ∃ t, exec (.tabb b) s = .next t ∧
          EntryCompleted s t s.plen (s.pidx + 1#6) (s.pbits ++ byteBits b)))

/-- R240: `TABEND` in `LOADTAB` always raises `MalformedTableError(3, PST)`: that entry is its effect. -/
def Obligations.TabendReportsTruncation : Prop :=
  encode .tabend = 0x00003300#32 ∧
  ∀ (s : State),
    (s.mode = .loadtab →
      exec .tabend s = .next (faulted .malformedTable 3#4 (BitVec.ofNat 32 (parserNumber s.pst)) s)) ∧
    (s.mode ≠ .loadtab → s.mode ≠ .fault → exec .tabend s = .next (faulted .sequence 0#4 (encode .tabend) s))

/-- R71, R231, R236: the header `SER` emits for a table, given byte by byte to `TABB` after `TABSTART`, completes at its
last byte and gives the same table, `NENT` and `NSYM`: "it round-trips the table exactly" (BHC §6). -/
def Obligations.HeaderRoundTripsTheTable : Prop :=
  ∀ (a a' b : State) (header : List Byte),
    a.mode = .idle → a.tabv = true → Memory.wf a.table = true → (∀ x c, codeOf a x = some c → c.length ≤ 255) →
    a.nent.toNat = a.table.length → exec .ser a = .next a' → a'.out = a.out ++ header → b.mode = .idle →
    ∃ t, execAll (.tabstart :: header.map .tabb) b = .next t ∧
      t = { b with
        mode := .idle, treev := false, tabv := true, table := a.table, nent := a.nent, nsym := a.nsym,
        pst := t.pst, pcnt := 0#9, psym := t.psym, plen := t.plen, pidx := t.pidx, ptmp := t.ptmp, pbits := t.pbits }

/-- R245, R246: `RECON` succeeds exactly when the table is prefix-free and its tree fits 511 nodes; the tree then has one
leaf per entry, at the end of the entry's code, and no other. Otherwise it raises `StructuralCorruptionError` with
`TREEV = 0`: sub-cause 5 only when the arena fills, 3 or 4 only when the codes clash. -/
def Obligations.ReconRebuildsTheTree : Prop :=
  ∀ (s : State), s.mode = .idle → s.tabv = true →
    (PrefixFree s → trieSize s ≤ 511 →
      ∃ t, exec .recon s = .next t ∧ t = { s with nodes := t.nodes, root := t.root, treev := true } ∧
        t.nodes.length = trieSize s ∧
        (∀ x p, codeOf s x = some p ↔ ∃ w, follow t.nodes t.root p = some (.leaf x w)) ∧
        (∀ h, weightAt t.nodes h = 0#32)) ∧
    (¬ (PrefixFree s ∧ trieSize s ≤ 511) →
      ∃ t, exec .recon s = .next t ∧
        t = { faulted .structuralCorruption t.errsub t.errinfo s with
          nodes := t.nodes, root := t.root, treev := false } ∧
        (t.errsub = 3#4 ∨ t.errsub = 4#4 ∨ t.errsub = 5#4) ∧
        (PrefixFree s → t.errsub = 5#4) ∧ (trieSize s ≤ 511 → t.errsub ≠ 5#4) ∧
        ∃ x : Byte, codeOf s x ≠ none ∧ t.errinfo = x.zeroExtend 32)

/-- R184, R247: `GENTAB` on the tree `RECON` made of a canonical table returns that table, with the same `NENT`. -/
def Obligations.GentabInvertsRecon : Prop :=
  ∀ (s t : State), s.mode = .idle → s.tabv = true → Memory.wf s.table = true → s.nent.toNat = s.table.length →
    exec .recon s = .next t → t.mode ≠ .fault →
    exec .gentab t = .next t

/-! ### Encoder (44_encoder.md) -/

/-- R194: `ENCSTART`. -/
def Obligations.EncstartOpensTheStream : Prop :=
  encode .encstart = 0x00004000#32 ∧
  ∀ (s : State),
    (s.mode = .idle → s.tabv = true →
      exec .encstart s = .next { s with acc := 0#8, nbits := 0#3, enccnt := 0#32, mode := .enc }) ∧
    (s.mode ≠ .fault → ¬ (s.mode = .idle ∧ s.tabv = true) →
      exec .encstart s = .next (faulted .sequence 0#4 (encode .encstart) s))

/-- R195, R192: `ENC x` appends the code of `x` to the waiting bits, emits every full byte, first bit highest, and counts
one symbol; its two faults come before any bit is written, `MissingCodeError` first. -/
def Obligations.EncWritesTheCode : Prop :=
  ∀ (x : Byte) (s : State),
    encode (.enc x) = 0x00004100#32 ||| x.zeroExtend 32 ∧
    (∀ c, s.mode = .enc → codeOf s x = some c → s.enccnt ≠ s.nsym →
      ∃ (t : State) (bytes : List Byte), exec (.enc x) s = .next t ∧
        t = { s with acc := t.acc, nbits := t.nbits, enccnt := s.enccnt + 1#32, outq := t.outq, held := t.held } ∧
        t.out = s.out ++ bytes ∧ bytes.flatMap byteBits ++ accBits t = accBits s ++ c ∧
        bytes.length = (s.nbits.toNat + c.length) / 8 ∧ t.nbits.toNat = (s.nbits.toNat + c.length) % 8) ∧
    (s.mode = .enc → codeOf s x = none →
      exec (.enc x) s = .next (faulted .missingCode 0#4 (x.zeroExtend 32) s)) ∧
    (s.mode = .enc → codeOf s x ≠ none → s.enccnt = s.nsym →
      exec (.enc x) s = .next (faulted .countMismatch 1#4 s.enccnt s)) ∧
    (s.mode ≠ .enc → s.mode ≠ .fault →
      exec (.enc x) s = .next (faulted .sequence 0#4 (encode (.enc x)) s))

/-- R198: `ENCEND` emits the waiting bits at the top of one last byte, zeros below, if any wait; it faults before the
flush when the count is short. -/
def Obligations.EncendFlushesTheBits : Prop :=
  encode .encend = 0x00004200#32 ∧
  ∀ (s : State),
    (s.mode = .enc → s.enccnt = s.nsym →
      ∃ t, exec .encend s = .next t ∧
        t = { s with
          acc := if s.nbits = 0#3 then s.acc else 0#8, nbits := 0#3, mode := .idle, outq := t.outq, held := t.held } ∧
        t.out = s.out ++ pack (accBits s)) ∧
    (s.mode = .enc → s.enccnt ≠ s.nsym → exec .encend s = .next (faulted .countMismatch 2#4 s.enccnt s)) ∧
    (s.mode ≠ .enc → s.mode ≠ .fault → exec .encend s = .next (faulted .sequence 0#4 (encode .encend) s))

/-- R200, R72: an encoding session with no fault encodes exactly `NSYM` symbols and emits `pack` of their concatenated
codes; and it has no fault when each symbol has a code and there are `NSYM` of them. -/
def Obligations.EncodingSessionEmitsThePackedCodes : Prop :=
  ∀ (s : State) (xs : List Byte), s.mode = .idle → s.tabv = true →
    ((∀ x ∈ xs, codeOf s x ≠ none) → xs.length = s.nsym.toNat →
      ∃ t, execAll (.encstart :: (xs.map .enc ++ [.encend])) s = .next t ∧
        t = { s with acc := 0#8, nbits := 0#3, enccnt := s.nsym, outq := t.outq, held := t.held }) ∧
    (∀ t, execAll (.encstart :: (xs.map .enc ++ [.encend])) s = .next t → t.mode ≠ .fault →
      xs.length = s.nsym.toNat ∧ t.out = s.out ++ pack (xs.flatMap (fun x => (codeOf s x).getD [])))

/-! ### Decoder (45_decoder.md) -/

/-- R214: `DECSTART`: with a promised symbol and no tree it faults; with a leaf as root it emits all `NSYM` copies; else
it starts at the root with `REM = NSYM`. -/
def Obligations.DecstartOpensTheStream : Prop :=
  encode .decstart = 0x00005000#32 ∧
  ∀ (s : State),
    (s.mode ≠ .fault → ¬ (s.mode = .idle ∧ s.treev = true) →
      exec .decstart s = .next (faulted .sequence 0#4 (encode .decstart) s)) ∧
    (s.mode = .idle → s.treev = true →
      (s.nsym = 0#32 → exec .decstart s = .next { s with rem := 0#32, cur := s.root, mode := .dec }) ∧
      (s.nsym ≠ 0#32 → s.root = 0x1FF#9 →
        exec .decstart s = .next (faulted .structuralCorruption 2#4 0#32 s)) ∧
      (∀ w l r, s.nsym ≠ 0#32 → s.root ≠ 0x1FF#9 → nodeAt s.nodes s.root = some (.internal w l r) →
        exec .decstart s = .next { s with rem := s.nsym, cur := s.root, mode := .dec }) ∧
      (∀ x w, s.nsym ≠ 0#32 → s.root ≠ 0x1FF#9 → nodeAt s.nodes s.root = some (.leaf x w) →
        ∃ t, exec .decstart s = .next t ∧
          t = { s with rem := 0#32, cur := s.root, mode := .dec, outq := t.outq, held := t.held } ∧
          t.out = s.out ++ List.replicate s.nsym.toNat x))

/-- R216, R217: `DECBIT` is one `decodeBit`: it goes to the child the bit selects; at a leaf it emits the symbol, counts
it off and returns to the root; an absent child is `StructuralCorruptionError(1, (t << 16) | CUR)` with `CUR` not advanced;
with `REM = 0` the bit is ignored. `DECB b` is the eight commands `DECBIT b[7]`, ..., `DECBIT b[0]`; after a fault the
others are without effect. -/
def Obligations.DecbitAndDecbDecodeBits : Prop :=
  (∀ (b : Bool) (s : State),
    encode (.decbit b) = (if b then 0x00005201#32 else 0x00005200#32) ∧
    (s.mode ≠ .dec → s.mode ≠ .fault →
      exec (.decbit b) s = .next (faulted .sequence 0#4 (encode (.decbit b)) s)) ∧
    (s.mode = .dec →
      (s.rem = 0#32 → exec (.decbit b) s = .next s) ∧
      (∀ n, s.rem ≠ 0#32 → nodeAt s.nodes s.cur = some n →
        ((if b then n.right else n.left) = 0x1FF#9 →
          exec (.decbit b) s =
            .next (faulted .structuralCorruption 1#4 (BitVec.ofNat 32 (b.toNat * 65536 + s.cur.toNat)) s)) ∧
        (∀ w l r, (if b then n.right else n.left) ≠ 0x1FF#9 →
          nodeAt s.nodes (if b then n.right else n.left) = some (.internal w l r) →
          exec (.decbit b) s = .next { s with cur := if b then n.right else n.left }) ∧
        (∀ x w, (if b then n.right else n.left) ≠ 0x1FF#9 →
          nodeAt s.nodes (if b then n.right else n.left) = some (.leaf x w) →
          ∃ t, exec (.decbit b) s = .next t ∧
            t = { s with rem := s.rem - 1#32, cur := s.root, outq := t.outq, held := t.held } ∧
            t.out = s.out ++ [x])))) ∧
  (∀ (b : Byte) (s : State),
    encode (.decb b) = 0x00005100#32 ||| b.zeroExtend 32 ∧
    (s.mode = .dec →
      exec (.decb b) s = execAll ([b.getLsbD 7, b.getLsbD 6, b.getLsbD 5, b.getLsbD 4, b.getLsbD 3, b.getLsbD 2,
        b.getLsbD 1, b.getLsbD 0].map .decbit) s) ∧
    (s.mode ≠ .dec → s.mode ≠ .fault →
      exec (.decb b) s = .next (faulted .sequence 0#4 (encode (.decb b)) s)))

/-- R216, R213: on a strict tree `DECB` completes: it emits 0 to 8 symbols, counts them off, stays in `DEC`, and changes
only `CUR`, `REM` and the output. -/
def Obligations.DecbCompletesOnAStrictTree : Prop :=
  ∀ (b : Byte) (s : State), TreeOk s → s.mode = .dec → StrictArena s.nodes →
    ∃ (t : State) (symbols : List Byte), exec (.decb b) s = .next t ∧
      t = { s with cur := t.cur, rem := t.rem, outq := t.outq, held := t.held } ∧
      t.out = s.out ++ symbols ∧ symbols.length ≤ 8 ∧ t.rem.toNat + symbols.length = s.rem.toNat

/-- R219: `DECEND`. -/
def Obligations.DecendClosesTheStream : Prop :=
  encode .decend = 0x00005300#32 ∧
  ∀ (s : State),
    (s.mode = .dec → s.rem = 0#32 → exec .decend s = .next { s with mode := .idle }) ∧
    (s.mode = .dec → s.rem ≠ 0#32 → exec .decend s = .next (faulted .truncatedStream 0#4 s.rem s)) ∧
    (s.mode ≠ .dec → s.mode ≠ .fault → exec .decend s = .next (faulted .sequence 0#4 (encode .decend) s))

/-- R220: if for each symbol of `xs` its path leads from the root to a leaf of it, a decoding session over the packed
paths, with `NSYM` the number of symbols, emits exactly `xs` and raises no fault. -/
def Obligations.DecodingSessionEmitsTheSymbols : Prop :=
  ∀ (s : State) (xs : List Byte) (path : Byte → BitSeq), s.mode = .idle → s.treev = true →
    xs.length = s.nsym.toNat → (∀ x ∈ xs, ∃ w, follow s.nodes s.root (path x) = some (.leaf x w)) →
    ∃ t, execAll (.decstart :: ((pack (xs.flatMap path)).map .decb ++ [.decend])) s = .next t ∧
      t = { s with cur := s.root, rem := 0#32, outq := t.outq, held := t.held } ∧ t.out = s.out ++ xs

/-- R220, R294, R295, BHC §8: "Round-trip: for all non-empty byte sequences S, decompress(compress(S)) == S"; it holds for
the empty one too. Both sequences run from the reset state; the compressor's `OUT` splits into header and bitstream. -/
def Obligations.DecompressInvertsCompress : Prop :=
  ∀ xs : List Byte, xs.length < 2 ^ 32 →
    ∃ (t : State) (header bits : List Byte) (u : State),
      execAll (compressCommands xs) State.reset = .next t ∧ t.mode = .idle ∧ t.out = header ++ bits ∧
      execAll (decompressCommands header bits) State.reset = .next u ∧ u.mode = .idle ∧ u.out = xs

/-! ### Register space (20_memory.md) -/

/-- R62, R63: what the control registers read as, in every mode; `CMD` reads 0. -/
def Obligations.ControlRegistersRead : Prop :=
  ∀ (s : State),
    ReadsAs s 0x0000#15 0#32 ∧
    ReadsAs s 0x0004#15 (BitVec.ofNat 32 (modeNumber s.mode + 16 * s.treev.toNat + 32 * s.tabv.toNat)) ∧
    ReadsAs s 0x0008#15 (BitVec.ofNat 32 (errNumber s.errcode + 256 * s.errsub.toNat)) ∧
    ReadsAs s 0x000C#15 s.errinfo ∧
    ReadsAs s 0x0010#15 (BitVec.ofNat 32 s.nent.toNat) ∧
    ReadsAs s 0x0014#15 s.nsym ∧
    ReadsAs s 0x0018#15 (BitVec.ofNat 32 s.root.toNat) ∧
    (s.nodes.length ≤ 511 → ReadsAs s 0x001C#15 (BitVec.ofNat 32 s.nodes.length)) ∧
    ReadsAs s 0x0020#15 s.enccnt ∧
    ReadsAs s 0x0024#15 s.rem ∧
    ReadsAs s 0x0028#15 (BitVec.ofNat 32 s.cur.toNat) ∧
    ReadsAs s 0x002C#15 (BitVec.ofNat 32 (s.acc.toNat + 256 * s.nbits.toNat)) ∧
    ReadsAs s 0x0030#15 (BitVec.ofNat 32
      (parserNumber s.pst + 16 * s.pcnt.toNat + 65536 * s.psym.toNat + 16777216 * s.plen.toNat))

/-- R64: the `FREQ` window reads in every mode and is written in `IDLE` only, changing that count and nothing else. -/
def Obligations.FreqWindowReadsAndWrites : Prop :=
  ∀ (s : State) (x : Byte) (v : Word) (addr : Addr), addr = BitVec.ofNat 15 (0x0400 + 4 * x.toNat) →
    ReadsAs s addr (freqOf s x) ∧
    (s.mode ≠ .idle → Refuses s (.regWrite addr v)) ∧
    (s.mode = .idle → s.held = [] → ∀ es, ∃ t,
      step { s with pending := .regWrite addr v :: es } = .next t ∧
      t = { s with freq := t.freq, pending := es, answers := s.answers ++ [.ok] } ∧
      freqOf t x = v ∧ ∀ y, y ≠ x → freqOf t y = freqOf s y)

/-- R65, R66: the code windows: valid bit and length; the code left-justified, first bit in bit 31 of word 0; 0 where the
symbol has no code. -/
def Obligations.CodeWindowsRead : Prop :=
  ∀ (s : State) (x : Byte),
    (codeOf s x = none → ReadsAs s (BitVec.ofNat 15 (0x0800 + 4 * x.toNat)) 0#32) ∧
    (∀ c, codeOf s x = some c → c.length ≤ 255 →
      ReadsAs s (BitVec.ofNat 15 (0x0800 + 4 * x.toNat)) (BitVec.ofNat 32 (256 + c.length))) ∧
    ∀ w, w < 8 → ∃ v : Word,
      ReadsAs s (BitVec.ofNat 15 (0x2000 + 32 * x.toNat + 4 * w)) v ∧
      (codeOf s x = none → v = 0#32) ∧
      ∀ c, codeOf s x = some c → ∀ j, j < 32 → v.getLsbD (31 - j) = c.getD (32 * w + j) false

/-- R67: the four words of a node's window, and 0 for a handle that is not allocated. -/
def Obligations.NodeWindowReads : Prop :=
  ∀ (s : State) (h : Nat), h ≤ 510 →
    (∀ x w, s.nodes[h]? = some (.leaf x w) →
      ReadsAs s (BitVec.ofNat 15 (0x4000 + 16 * h)) (BitVec.ofNat 32 x.toNat) ∧
      ReadsAs s (BitVec.ofNat 15 (0x4000 + 16 * h + 4)) w ∧
      ReadsAs s (BitVec.ofNat 15 (0x4000 + 16 * h + 8)) 0x1FF#32 ∧
      ReadsAs s (BitVec.ofNat 15 (0x4000 + 16 * h + 12)) 0x1FF#32) ∧
    (∀ w l r, s.nodes[h]? = some (.internal w l r) →
      ReadsAs s (BitVec.ofNat 15 (0x4000 + 16 * h)) 0x80000000#32 ∧
      ReadsAs s (BitVec.ofNat 15 (0x4000 + 16 * h + 4)) w ∧
      ReadsAs s (BitVec.ofNat 15 (0x4000 + 16 * h + 8)) (BitVec.ofNat 32 l.toNat) ∧
      ReadsAs s (BitVec.ofNat 15 (0x4000 + 16 * h + 12)) (BitVec.ofNat 32 r.toNat)) ∧
    (s.nodes.length ≤ h → ∀ f, f < 4 → ReadsAs s (BitVec.ofNat 15 (0x4000 + 16 * h + 4 * f)) 0#32)

/-- R61, R62: `BusError` is the answer to every access of a misaligned or reserved address and to every write of a
read-only location, and such an access changes no state; every other read is answered with a value. -/
def Obligations.BadAccessesAreRefused : Prop :=
  ∀ (s : State) (addr : Addr) (v : Word),
    (NoLocation addr → Refuses s (.regRead addr) ∧ Refuses s (.regWrite addr v)) ∧
    (¬ NoLocation addr → ∃ u, ReadsAs s addr u) ∧
    (addr ≠ 0#15 → ¬ (0x0400 ≤ addr.toNat ∧ addr.toNat < 0x0800) → Refuses s (.regWrite addr v))

/-! ### The output port (20_memory.md) -/

/-- R74, R75, R80, with the model's waiting bytes (log 9) and its reading of a ready sink (log 18): a clock edge with the sink ready moves the head of `OUTQ` to the sink, and a waiting byte takes the
place; when it was the last, the waiting `CMD` write completes. `OUT` is unchanged. With `OUTQ` empty there is no
transfer. -/
def Obligations.SinkTakesTheHead : Prop :=
  ∀ (s : State) (es : List Event), s.pending = .sinkReady :: es →
    (s.outq = [] → step s = .next { s with pending := es }) ∧
    (∀ b bs, s.outq = b :: bs → s.held = [] →
      step s = .next { s with pending := es, outq := bs, taken := s.taken ++ [b] }) ∧
    (∀ b bs c cs, s.outq = b :: bs → s.held = c :: cs →
      step s = .next { s with
        pending := es, outq := bs ++ [c], held := cs, taken := s.taken ++ [b],
        answers := if cs = [] then s.answers ++ [.ok] else s.answers })

/-- R75, R80 (b), R298: while a command waits for room in `OUTQ`, no host access is accepted, and the core goes on only by
the sink or `rst`. The rest is the model's own: a step with no event that can act leaves the state unchanged (log 1), the
waiting command is the bytes in `held` (log 9), and the first event of the sink or of `rst` acts in front of the host's
pending accesses (log 10). -/
def Obligations.WaitingCoreAcceptsNoHostAccess : Prop :=
  ∀ (s : State) (hosts rest : List Event), s.held ≠ [] → (∀ e ∈ hosts, e.isHost = true) →
    (s.pending = hosts → step s = .next s) ∧
    (∀ e, e.isHost = false → s.pending = hosts ++ e :: rest → step s = step { s with pending := e :: (hosts ++ rest) })

/-- R76: what a command does, and the `OUT` it leaves, do not depend on `OUTQ_DEPTH`, on how full `OUTQ` is or on how
many bytes the sink has taken (the model's fields for these: log 8, log 9, log 17). -/
def Obligations.OutDoesNotDependOnTheQueue : Prop :=
  ∀ (i : Instr) (a b a' : State), SameButQueue a b → exec i a = .next a' →
    ∃ b', exec i b = .next b' ∧ SameButQueue a' b'

/-- R49, R266: `OUT` "is append-only; nothing but `rst` ever removes or reorders a byte". (`OUT` counts the bytes that
wait, log 9, and its record starts anew at `rst`, log 17: the model's own.) -/
def Obligations.OutIsAppendOnly : Prop :=
  ∀ (s t : State), step s = .next t →
    (∃ bytes, t.out = s.out ++ bytes) ∨ (∃ rest, nextEvent s = some (.rst, rest))

/-- R82: the table is fixed from `ENCSTART` to `ENCEND` and the tree from `DECSTART` to `DECEND`: no step but a reset
changes them in those modes. -/
def Obligations.StreamsRunOnFixedTables : Prop :=
  ∀ (s t : State), step s = .next t →
    (∀ rest, nextEvent s ≠ some (.rst, rest) ∧ nextEvent s ≠ some (.regWrite 0#15 0x00000100#32, rest)) →
    (s.mode = .enc → t.table = s.table ∧ t.nent = s.nent ∧ t.nsym = s.nsym) ∧
    (s.mode = .dec → t.nodes = s.nodes ∧ t.root = s.root)

/-! ### Faults and reset (60_exceptions.md, 70_reset_and_hazards.md) -/

/-- R269: `FAULT` is left only by the `RESET` command or the `rst` pin, and until then the first record stays and nothing
is emitted. -/
def Obligations.FaultIsLeftOnlyByReset : Prop :=
  ∀ (s t : State), s.mode = .fault → step s = .next t →
    (∃ rest, nextEvent s = some (.rst, rest) ∨ nextEvent s = some (.regWrite 0#15 0x00000100#32, rest)) ∨
    (t.mode = .fault ∧ t.errcode = s.errcode ∧ t.errsub = s.errsub ∧ t.errinfo = s.errinfo ∧ t.out = s.out)

/-- R267: every fault but those of `DECB` and `RECON` is clean: the command has written nothing but the record. -/
def Obligations.FaultsAreClean : Prop :=
  ∀ (i : Instr) (s t : State), s.mode ≠ .fault → exec i s = .next t → t.mode = .fault →
    (∀ b, i ≠ .decb b) → i ≠ .recon → t = faulted t.errcode t.errsub t.errinfo s

/-- R262, R263, R265: the fault a command leaves is one the code table gives that command, with its sub-cause and
detail; `IOFailure` is never raised. -/
def Obligations.RaisedFaultsFollowTheCodeTable : Prop :=
  ∀ (i : Instr) (s t : State), s.mode ≠ .fault → exec i s = .next t → t.mode = .fault →
    FaultOf i s t ∧ t.errcode ≠ .none ∧ t.errcode ≠ .ioFailure

/-- R290, R291: `rst` puts every element at its reset value, empties `OUTQ`, and acts also while a command waits, whose
`CMD` write then completes (log 11); the model's own record of what the sink has taken starts anew (log 17). -/
def Obligations.RstPinResets : Prop :=
  ∀ (s : State) (es : List Event), s.pending = .rst :: es →
    step s = .next { afterReset s with
      outq := [], held := [], taken := [], pending := es,
      answers := if s.held = [] then s.answers else s.answers ++ [.ok] }

/-- R291: the reset value of every element (`afterReset` lists them), the same after the `RESET` command but for `OUTQ`,
and the register space as seen after reset. -/
def Obligations.ResetValues : Prop :=
  State.reset = afterReset State.reset ∧ State.reset.outq = [] ∧ (∀ s, exec .reset s = .next (afterReset s)) ∧
  (∀ addr : Addr, addr.toNat % 4 = 0 → addr.toNat < 0x0034 → addr ≠ 0x0018#15 → addr ≠ 0x0028#15 →
    ReadsAs State.reset addr 0#32) ∧
  ReadsAs State.reset 0x0018#15 0x000001FF#32 ∧ ReadsAs State.reset 0x0028#15 0x000001FF#32 ∧
  (∀ addr : Addr, ¬ NoLocation addr → 0x0400 ≤ addr.toNat → ReadsAs State.reset addr 0#32)

/-! ### Invariants -/

/-- The reset state meets every invariant below. -/
def Obligations.ResetMeetsTheInvariants : Prop :=
  StoresOk State.reset ∧ FaultRecordOk State.reset ∧ ModeOk State.reset ∧ WriterOk State.reset ∧
  QueueOk State.reset ∧ ParserOk State.reset ∧ TreeOk State.reset ∧ LengthsOk State.reset

/-- The model's own, no rule of the spec: `FREQ` and the code table are lists in canonical form (log 4), and every step
keeps that form. -/
def Obligations.StepKeepsStoresCanonical : Prop :=
  ∀ (s t : State), StoresOk s → step s = .next t → StoresOk t

/-- R24, R264: outside `FAULT` the record is 0; in it there is one, never `IOFailure`. -/
def Obligations.StepKeepsTheFaultRecord : Prop :=
  ∀ (s t : State), FaultRecordOk s → step s = .next t → FaultRecordOk t

/-- R136, R82: the flags each mode implies stay implied. -/
def Obligations.StepKeepsModeFlags : Prop :=
  ∀ (s t : State), ModeOk s → step s = .next t → ModeOk t

/-- R42: the waiting bits stand at the bottom of `ACC`, zero above, and outside `ENC` none wait. -/
def Obligations.StepKeepsTheBitWriter : Prop :=
  ∀ (s t : State), WriterOk s → step s = .next t → WriterOk t

/-- R75: `OUTQ` never holds more than `OUTQ_DEPTH` bytes, and the core waits only while it is full. (The waiting bytes
`held` and the depth as a field are the model's own: log 9, log 8.) -/
def Obligations.StepKeepsTheQueueBound : Prop :=
  ∀ (s t : State), QueueOk s → step s = .next t → QueueOk t

/-- R46, R236: the header parser's registers stay consistent: entries done and to come add up to `NENT`. -/
def Obligations.StepKeepsTheParser : Prop :=
  ∀ (s t : State), ParserOk s → step s = .next t → ParserOk t

/-- R35 (a), R213, R33: the arena stays closed and acyclic with at most 511 nodes, and the decoder stands on an `Internal`
node while symbols remain. -/
def Obligations.StepKeepsTreeAndDecoder : Prop :=
  ∀ (s t : State), TreeOk s → step s = .next t → TreeOk t

/-- R6, R36, R182: codes never exceed 255 bits, nor do the paths of a valid tree. -/
def Obligations.StepKeepsCodeLengths : Prop :=
  ∀ (s t : State), LengthsOk s → step s = .next t → LengthsOk t

/-- R32, R302: in no state with a sound tree does the model itself stop: every step, whatever the host, the sink or `rst`
does, has a next state. (The two stops, and the step with no event, are the model's own: log 6, log 7, log 1.) -/
def Obligations.NoStepStops : Prop :=
  ∀ (s : State), TreeOk s → ∃ t, step s = .next t
end

