-- ==== Sys2Proof/Laws/Memory.lean ====
section
/-! SUPPORT. The symbol-indexed memory: a read after a write to the same key gives the value written, every other key
reads as before, every operation keeps the canonical form, and two canonical memories that read alike are equal. -/

namespace Sys2Proof.Memory

variable {α : Type}

@[simp] theorem find_nil (k : Nat) : Memory.find ([] : Memory α) k = none := rfl

@[simp] theorem find_insert_same (m : Memory α) (k : Nat) (v : α) : Memory.find (Memory.insert m k v) k = some v := by
  induction m with
  | nil => simp [Memory.insert, Memory.find]
  | cons e m ih =>
    obtain ⟨j, w⟩ := e
    simp only [Memory.insert]
    split
    · simp [Memory.find]
    · split
      · simp [Memory.find]
      · have h : j ≠ k := by omega
        simp [Memory.find, h, ih]

theorem find_insert_other (m : Memory α) {j k : Nat} (v : α) (h : j ≠ k) :
    Memory.find (Memory.insert m k v) j = Memory.find m j := by
  have h' : k ≠ j := Ne.symm h
  induction m with
  | nil => simp [Memory.insert, Memory.find, h']
  | cons e m ih =>
    obtain ⟨i, w⟩ := e
    simp only [Memory.insert]
    split
    · simp [Memory.find, h']
    · split
      · rename_i _ hk
        subst hk
        simp [Memory.find, h']
      · simp [Memory.find, ih]

theorem find_insert (m : Memory α) (j k : Nat) (v : α) :
    Memory.find (Memory.insert m k v) j = if j = k then some v else Memory.find m j := by
  by_cases h : j = k
  · simp [h]
  · simp [h, find_insert_other m v h]

theorem find_erase (m : Memory α) (j k : Nat) :
    Memory.find (Memory.erase m k) j = if j = k then none else Memory.find m j := by
  induction m with
  | nil => simp [Memory.erase, Memory.find]
  | cons e m ih =>
    obtain ⟨i, w⟩ := e
    by_cases hik : i = k
    · have : Memory.erase ((i, w) :: m) k = Memory.erase m k := by simp [Memory.erase, hik]
      rw [this, ih]
      subst hik
      by_cases hj : j = i
      · simp [hj]
      · simp [hj, Memory.find, Ne.symm hj]
    · have : Memory.erase ((i, w) :: m) k = (i, w) :: Memory.erase m k := by simp [Memory.erase, hik]
      rw [this]
      by_cases hij : i = j
      · subst hij; simp [Memory.find, hik]
      · simp [Memory.find, hij, ih]

/-- A new key makes the memory one entry longer. -/
theorem length_insert_new (m : Memory α) (k : Nat) (v : α) (h : Memory.find m k = none) :
    (Memory.insert m k v).length = m.length + 1 := by
  induction m with
  | nil => rfl
  | cons e m ih =>
    obtain ⟨j, w⟩ := e
    simp only [Memory.find] at h
    split at h
    · cases h
    · rename_i hj
      simp only [Memory.insert]
      split
      · rfl
      · split
        · omega
        · simp [ih h]

theorem risingFrom_mono {n k : Nat} (hnk : n ≤ k) {m : Memory α} (h : Memory.risingFrom k m = true) :
    Memory.risingFrom n m = true := by
  cases m with
  | nil => rfl
  | cons e m =>
    obtain ⟨j, w⟩ := e
    simp only [Memory.risingFrom, Bool.and_eq_true, decide_eq_true_eq] at h ⊢
    exact ⟨by omega, h.2⟩

theorem risingFrom_insert {n : Nat} {m : Memory α} (k : Nat) (v : α) (hn : n ≤ k)
    (h : Memory.risingFrom n m = true) : Memory.risingFrom n (Memory.insert m k v) = true := by
  induction m generalizing n with
  | nil => simp [Memory.insert, Memory.risingFrom, hn]
  | cons e m ih =>
    obtain ⟨j, w⟩ := e
    simp only [Memory.risingFrom, Bool.and_eq_true, decide_eq_true_eq] at h
    simp only [Memory.insert]
    split
    · simp only [Memory.risingFrom, Bool.and_eq_true, decide_eq_true_eq]
      exact ⟨hn, by omega, h.2⟩
    · split
      · rename_i hkj
        subst hkj
        simp [Memory.risingFrom, hn, h.2]
      · simp only [Memory.risingFrom, Bool.and_eq_true, decide_eq_true_eq]
        exact ⟨h.1, ih (by omega) h.2⟩

theorem risingFrom_erase {n : Nat} {m : Memory α} (k : Nat) (h : Memory.risingFrom n m = true) :
    Memory.risingFrom n (Memory.erase m k) = true := by
  induction m generalizing n with
  | nil => rfl
  | cons e m ih =>
    obtain ⟨j, w⟩ := e
    simp only [Memory.risingFrom, Bool.and_eq_true, decide_eq_true_eq] at h
    by_cases hj : j = k
    · have : Memory.erase ((j, w) :: m) k = Memory.erase m k := by simp [Memory.erase, hj]
      rw [this]
      exact risingFrom_mono (by omega) (ih h.2)
    · have : Memory.erase ((j, w) :: m) k = (j, w) :: Memory.erase m k := by simp [Memory.erase, hj]
      rw [this]
      simp only [Memory.risingFrom, Bool.and_eq_true, decide_eq_true_eq]
      exact ⟨h.1, ih h.2⟩

/-- Every entry of an inserted memory is the new one or an old one. -/
theorem mem_insert {m : Memory α} {k : Nat} {v : α} {e : Nat × α} (h : e ∈ Memory.insert m k v) :
    e = (k, v) ∨ e ∈ m := by
  induction m with
  | nil => simpa [Memory.insert] using h
  | cons d m ih =>
    obtain ⟨j, w⟩ := d
    simp only [Memory.insert] at h
    split at h
    · simpa using h
    · split at h
      · simp only [List.mem_cons] at h ⊢
        tauto
      · simp only [List.mem_cons] at h ⊢
        rcases h with h | h
        · exact .inr (.inl h)
        · rcases ih h with h | h
          · exact .inl h
          · exact .inr (.inr h)

@[simp] theorem wf_nil : Memory.wf ([] : Memory α) = true := rfl

@[simp] theorem countsWf_nil : Memory.countsWf [] = true := rfl

/-- A write keeps the canonical form. -/
theorem wf_insert {m : Memory α} {k : Nat} (v : α) (hk : k < 256) (h : Memory.wf m = true) :
    Memory.wf (Memory.insert m k v) = true := by
  simp only [Memory.wf, Bool.and_eq_true, List.all_eq_true, decide_eq_true_eq] at h ⊢
  refine ⟨risingFrom_insert k v (Nat.zero_le _) h.1, fun e he => ?_⟩
  rcases mem_insert he with rfl | he
  · exact hk
  · exact h.2 e he

/-- Removing an entry keeps the canonical form. -/
theorem wf_erase {m : Memory α} (k : Nat) (h : Memory.wf m = true) : Memory.wf (Memory.erase m k) = true := by
  simp only [Memory.wf, Bool.and_eq_true, List.all_eq_true, decide_eq_true_eq] at h ⊢
  refine ⟨risingFrom_erase k h.1, fun e he => h.2 e ?_⟩
  exact List.mem_of_mem_filter he

theorem countsWf_insert {m : Memory Word} {k : Nat} {v : Word} (hk : k < 256) (hv : v ≠ 0#32)
    (h : Memory.countsWf m = true) : Memory.countsWf (Memory.insert m k v) = true := by
  simp only [Memory.countsWf, Bool.and_eq_true, List.all_eq_true, bne_iff_ne] at h ⊢
  refine ⟨wf_insert v hk h.1, fun e he => ?_⟩
  rcases mem_insert he with rfl | he
  · exact hv
  · exact h.2 e he

theorem countsWf_erase {m : Memory Word} (k : Nat) (h : Memory.countsWf m = true) :
    Memory.countsWf (Memory.erase m k) = true := by
  simp only [Memory.countsWf, Bool.and_eq_true, List.all_eq_true, bne_iff_ne] at h ⊢
  exact ⟨wf_erase k h.1, fun e he => h.2 e (List.mem_of_mem_filter he)⟩

theorem find_of_risingFrom {m : Memory α} {n k : Nat} (h : Memory.risingFrom n m = true) (hk : k < n) :
    Memory.find m k = none := by
  induction m generalizing n with
  | nil => rfl
  | cons e m ih =>
    obtain ⟨j, w⟩ := e
    simp only [Memory.risingFrom, Bool.and_eq_true, decide_eq_true_eq] at h
    have hj : j ≠ k := by omega
    simp only [Memory.find, hj, if_false]
    exact ih h.2 (by omega)

theorem ext_of_risingFrom {a b : Memory α} {n : Nat} (ha : Memory.risingFrom n a = true)
    (hb : Memory.risingFrom n b = true) (h : ∀ k, Memory.find a k = Memory.find b k) : a = b := by
  induction a generalizing b n with
  | nil =>
    cases b with
    | nil => rfl
    | cons e b =>
      obtain ⟨j, w⟩ := e
      have := h j
      simp [Memory.find] at this
  | cons e a ih =>
    obtain ⟨j, w⟩ := e
    cases b with
    | nil =>
      have := h j
      simp [Memory.find] at this
    | cons d b =>
      obtain ⟨i, v⟩ := d
      simp only [Memory.risingFrom, Bool.and_eq_true, decide_eq_true_eq] at ha hb
      have hji : j = i := by
        rcases Nat.lt_trichotomy j i with hlt | heq | hgt
        · have := h j
          have hne : i ≠ j := by omega
          simp only [Memory.find, if_true, hne, if_false] at this
          rw [find_of_risingFrom hb.2 (by omega)] at this
          cases this
        · exact heq
        · have := h i
          have hne : j ≠ i := by omega
          simp only [Memory.find, if_true, hne, if_false] at this
          rw [find_of_risingFrom ha.2 (by omega)] at this
          cases this
      subst hji
      have hwv : w = v := by
        have := h j
        simpa [Memory.find] using this
      subst hwv
      congr 1
      refine ih ha.2 hb.2 (fun k => ?_)
      by_cases hk : j = k
      · subst hk
        rw [find_of_risingFrom ha.2 (by omega), find_of_risingFrom hb.2 (by omega)]
      · have := h k
        simpa [Memory.find, hk] using this

/-- Two canonical memories that read alike at every key are equal. -/
theorem ext_of_wf {a b : Memory α} (ha : Memory.wf a = true) (hb : Memory.wf b = true)
    (h : ∀ k, Memory.find a k = Memory.find b k) : a = b := by
  simp only [Memory.wf, Bool.and_eq_true] at ha hb
  exact ext_of_risingFrom ha.1 hb.1 h

/-- A canonical memory lists nothing at 256 or above. -/
theorem find_of_wf_ge {m : Memory α} (h : Memory.wf m = true) {k : Nat} (hk : 256 ≤ k) : Memory.find m k = none := by
  simp only [Memory.wf, Bool.and_eq_true, List.all_eq_true, decide_eq_true_eq] at h
  have h2 := h.2
  clear h
  induction m with
  | nil => rfl
  | cons e m ih =>
    obtain ⟨j, w⟩ := e
    have hj : j < 256 := h2 (j, w) (by simp)
    have hne : j ≠ k := by omega
    simp only [Memory.find, hne, if_false]
    exact ih (fun e he => h2 e (by simp [he]))

end Sys2Proof.Memory
end

