-- ==== Sys2Proof/Laws/State.lean ====
section
/-! SUPPORT. For each named update of State, what every field is after it: one lemma per field, so that no later proof
unfolds a record update. -/

namespace Sys2Proof.Machine

/-! ### `State.raised` (R266) -/

@[simp] theorem raised_mode (c : ErrCode) (sub : BitVec 4) (info : Word) (s : State) : (s.raised c sub info).mode = .fault := rfl
@[simp] theorem raised_treev (c : ErrCode) (sub : BitVec 4) (info : Word) (s : State) : (s.raised c sub info).treev = s.treev := rfl
@[simp] theorem raised_tabv (c : ErrCode) (sub : BitVec 4) (info : Word) (s : State) : (s.raised c sub info).tabv = s.tabv := rfl
@[simp] theorem raised_errcode (c : ErrCode) (sub : BitVec 4) (info : Word) (s : State) : (s.raised c sub info).errcode = c := rfl
@[simp] theorem raised_errsub (c : ErrCode) (sub : BitVec 4) (info : Word) (s : State) : (s.raised c sub info).errsub = sub := rfl
@[simp] theorem raised_errinfo (c : ErrCode) (sub : BitVec 4) (info : Word) (s : State) : (s.raised c sub info).errinfo = info := rfl
@[simp] theorem raised_freq (c : ErrCode) (sub : BitVec 4) (info : Word) (s : State) : (s.raised c sub info).freq = s.freq := rfl
@[simp] theorem raised_nodes (c : ErrCode) (sub : BitVec 4) (info : Word) (s : State) : (s.raised c sub info).nodes = s.nodes := rfl
@[simp] theorem raised_root (c : ErrCode) (sub : BitVec 4) (info : Word) (s : State) : (s.raised c sub info).root = s.root := rfl
@[simp] theorem raised_table (c : ErrCode) (sub : BitVec 4) (info : Word) (s : State) : (s.raised c sub info).table = s.table := rfl
@[simp] theorem raised_nent (c : ErrCode) (sub : BitVec 4) (info : Word) (s : State) : (s.raised c sub info).nent = s.nent := rfl
@[simp] theorem raised_nsym (c : ErrCode) (sub : BitVec 4) (info : Word) (s : State) : (s.raised c sub info).nsym = s.nsym := rfl
@[simp] theorem raised_acc (c : ErrCode) (sub : BitVec 4) (info : Word) (s : State) : (s.raised c sub info).acc = s.acc := rfl
@[simp] theorem raised_nbits (c : ErrCode) (sub : BitVec 4) (info : Word) (s : State) : (s.raised c sub info).nbits = s.nbits := rfl
@[simp] theorem raised_enccnt (c : ErrCode) (sub : BitVec 4) (info : Word) (s : State) : (s.raised c sub info).enccnt = s.enccnt := rfl
@[simp] theorem raised_cur (c : ErrCode) (sub : BitVec 4) (info : Word) (s : State) : (s.raised c sub info).cur = s.cur := rfl
@[simp] theorem raised_rem (c : ErrCode) (sub : BitVec 4) (info : Word) (s : State) : (s.raised c sub info).rem = s.rem := rfl
@[simp] theorem raised_pst (c : ErrCode) (sub : BitVec 4) (info : Word) (s : State) : (s.raised c sub info).pst = s.pst := rfl
@[simp] theorem raised_pcnt (c : ErrCode) (sub : BitVec 4) (info : Word) (s : State) : (s.raised c sub info).pcnt = s.pcnt := rfl
@[simp] theorem raised_psym (c : ErrCode) (sub : BitVec 4) (info : Word) (s : State) : (s.raised c sub info).psym = s.psym := rfl
@[simp] theorem raised_plen (c : ErrCode) (sub : BitVec 4) (info : Word) (s : State) : (s.raised c sub info).plen = s.plen := rfl
@[simp] theorem raised_pidx (c : ErrCode) (sub : BitVec 4) (info : Word) (s : State) : (s.raised c sub info).pidx = s.pidx := rfl
@[simp] theorem raised_ptmp (c : ErrCode) (sub : BitVec 4) (info : Word) (s : State) : (s.raised c sub info).ptmp = s.ptmp := rfl
@[simp] theorem raised_pbits (c : ErrCode) (sub : BitVec 4) (info : Word) (s : State) : (s.raised c sub info).pbits = s.pbits := rfl
@[simp] theorem raised_outq (c : ErrCode) (sub : BitVec 4) (info : Word) (s : State) : (s.raised c sub info).outq = s.outq := rfl
@[simp] theorem raised_outqDepth (c : ErrCode) (sub : BitVec 4) (info : Word) (s : State) : (s.raised c sub info).outqDepth = s.outqDepth := rfl
@[simp] theorem raised_held (c : ErrCode) (sub : BitVec 4) (info : Word) (s : State) : (s.raised c sub info).held = s.held := rfl
@[simp] theorem raised_taken (c : ErrCode) (sub : BitVec 4) (info : Word) (s : State) : (s.raised c sub info).taken = s.taken := rfl
@[simp] theorem raised_pending (c : ErrCode) (sub : BitVec 4) (info : Word) (s : State) : (s.raised c sub info).pending = s.pending := rfl
@[simp] theorem raised_answers (c : ErrCode) (sub : BitVec 4) (info : Word) (s : State) : (s.raised c sub info).answers = s.answers := rfl

/-! ### `emitAll` (R75) -/

@[simp] theorem emitAll_mode (bs : List Byte) (s : State) : (emitAll bs s).mode = s.mode := by
  unfold emitAll; split <;> rfl
@[simp] theorem emitAll_treev (bs : List Byte) (s : State) : (emitAll bs s).treev = s.treev := by
  unfold emitAll; split <;> rfl
@[simp] theorem emitAll_tabv (bs : List Byte) (s : State) : (emitAll bs s).tabv = s.tabv := by
  unfold emitAll; split <;> rfl
@[simp] theorem emitAll_errcode (bs : List Byte) (s : State) : (emitAll bs s).errcode = s.errcode := by
  unfold emitAll; split <;> rfl
@[simp] theorem emitAll_errsub (bs : List Byte) (s : State) : (emitAll bs s).errsub = s.errsub := by
  unfold emitAll; split <;> rfl
@[simp] theorem emitAll_errinfo (bs : List Byte) (s : State) : (emitAll bs s).errinfo = s.errinfo := by
  unfold emitAll; split <;> rfl
@[simp] theorem emitAll_freq (bs : List Byte) (s : State) : (emitAll bs s).freq = s.freq := by
  unfold emitAll; split <;> rfl
@[simp] theorem emitAll_nodes (bs : List Byte) (s : State) : (emitAll bs s).nodes = s.nodes := by
  unfold emitAll; split <;> rfl
@[simp] theorem emitAll_root (bs : List Byte) (s : State) : (emitAll bs s).root = s.root := by
  unfold emitAll; split <;> rfl
@[simp] theorem emitAll_table (bs : List Byte) (s : State) : (emitAll bs s).table = s.table := by
  unfold emitAll; split <;> rfl
@[simp] theorem emitAll_nent (bs : List Byte) (s : State) : (emitAll bs s).nent = s.nent := by
  unfold emitAll; split <;> rfl
@[simp] theorem emitAll_nsym (bs : List Byte) (s : State) : (emitAll bs s).nsym = s.nsym := by
  unfold emitAll; split <;> rfl
@[simp] theorem emitAll_acc (bs : List Byte) (s : State) : (emitAll bs s).acc = s.acc := by
  unfold emitAll; split <;> rfl
@[simp] theorem emitAll_nbits (bs : List Byte) (s : State) : (emitAll bs s).nbits = s.nbits := by
  unfold emitAll; split <;> rfl
@[simp] theorem emitAll_enccnt (bs : List Byte) (s : State) : (emitAll bs s).enccnt = s.enccnt := by
  unfold emitAll; split <;> rfl
@[simp] theorem emitAll_cur (bs : List Byte) (s : State) : (emitAll bs s).cur = s.cur := by
  unfold emitAll; split <;> rfl
@[simp] theorem emitAll_rem (bs : List Byte) (s : State) : (emitAll bs s).rem = s.rem := by
  unfold emitAll; split <;> rfl
@[simp] theorem emitAll_pst (bs : List Byte) (s : State) : (emitAll bs s).pst = s.pst := by
  unfold emitAll; split <;> rfl
@[simp] theorem emitAll_pcnt (bs : List Byte) (s : State) : (emitAll bs s).pcnt = s.pcnt := by
  unfold emitAll; split <;> rfl
@[simp] theorem emitAll_psym (bs : List Byte) (s : State) : (emitAll bs s).psym = s.psym := by
  unfold emitAll; split <;> rfl
@[simp] theorem emitAll_plen (bs : List Byte) (s : State) : (emitAll bs s).plen = s.plen := by
  unfold emitAll; split <;> rfl
@[simp] theorem emitAll_pidx (bs : List Byte) (s : State) : (emitAll bs s).pidx = s.pidx := by
  unfold emitAll; split <;> rfl
@[simp] theorem emitAll_ptmp (bs : List Byte) (s : State) : (emitAll bs s).ptmp = s.ptmp := by
  unfold emitAll; split <;> rfl
@[simp] theorem emitAll_pbits (bs : List Byte) (s : State) : (emitAll bs s).pbits = s.pbits := by
  unfold emitAll; split <;> rfl
@[simp] theorem emitAll_outqDepth (bs : List Byte) (s : State) : (emitAll bs s).outqDepth = s.outqDepth := by
  unfold emitAll; split <;> rfl
@[simp] theorem emitAll_taken (bs : List Byte) (s : State) : (emitAll bs s).taken = s.taken := by
  unfold emitAll; split <;> rfl
@[simp] theorem emitAll_pending (bs : List Byte) (s : State) : (emitAll bs s).pending = s.pending := by
  unfold emitAll; split <;> rfl
@[simp] theorem emitAll_answers (bs : List Byte) (s : State) : (emitAll bs s).answers = s.answers := by
  unfold emitAll; split <;> rfl

/-! ### `emit` (R75) -/

@[simp] theorem emit_mode (b : Byte) (s : State) : (emit b s).mode = s.mode := by
  simp [emit]
@[simp] theorem emit_treev (b : Byte) (s : State) : (emit b s).treev = s.treev := by
  simp [emit]
@[simp] theorem emit_tabv (b : Byte) (s : State) : (emit b s).tabv = s.tabv := by
  simp [emit]
@[simp] theorem emit_errcode (b : Byte) (s : State) : (emit b s).errcode = s.errcode := by
  simp [emit]
@[simp] theorem emit_errsub (b : Byte) (s : State) : (emit b s).errsub = s.errsub := by
  simp [emit]
@[simp] theorem emit_errinfo (b : Byte) (s : State) : (emit b s).errinfo = s.errinfo := by
  simp [emit]
@[simp] theorem emit_freq (b : Byte) (s : State) : (emit b s).freq = s.freq := by
  simp [emit]
@[simp] theorem emit_nodes (b : Byte) (s : State) : (emit b s).nodes = s.nodes := by
  simp [emit]
@[simp] theorem emit_root (b : Byte) (s : State) : (emit b s).root = s.root := by
  simp [emit]
@[simp] theorem emit_table (b : Byte) (s : State) : (emit b s).table = s.table := by
  simp [emit]
@[simp] theorem emit_nent (b : Byte) (s : State) : (emit b s).nent = s.nent := by
  simp [emit]
@[simp] theorem emit_nsym (b : Byte) (s : State) : (emit b s).nsym = s.nsym := by
  simp [emit]
@[simp] theorem emit_acc (b : Byte) (s : State) : (emit b s).acc = s.acc := by
  simp [emit]
@[simp] theorem emit_nbits (b : Byte) (s : State) : (emit b s).nbits = s.nbits := by
  simp [emit]
@[simp] theorem emit_enccnt (b : Byte) (s : State) : (emit b s).enccnt = s.enccnt := by
  simp [emit]
@[simp] theorem emit_cur (b : Byte) (s : State) : (emit b s).cur = s.cur := by
  simp [emit]
@[simp] theorem emit_rem (b : Byte) (s : State) : (emit b s).rem = s.rem := by
  simp [emit]
@[simp] theorem emit_pst (b : Byte) (s : State) : (emit b s).pst = s.pst := by
  simp [emit]
@[simp] theorem emit_pcnt (b : Byte) (s : State) : (emit b s).pcnt = s.pcnt := by
  simp [emit]
@[simp] theorem emit_psym (b : Byte) (s : State) : (emit b s).psym = s.psym := by
  simp [emit]
@[simp] theorem emit_plen (b : Byte) (s : State) : (emit b s).plen = s.plen := by
  simp [emit]
@[simp] theorem emit_pidx (b : Byte) (s : State) : (emit b s).pidx = s.pidx := by
  simp [emit]
@[simp] theorem emit_ptmp (b : Byte) (s : State) : (emit b s).ptmp = s.ptmp := by
  simp [emit]
@[simp] theorem emit_pbits (b : Byte) (s : State) : (emit b s).pbits = s.pbits := by
  simp [emit]
@[simp] theorem emit_outqDepth (b : Byte) (s : State) : (emit b s).outqDepth = s.outqDepth := by
  simp [emit]
@[simp] theorem emit_taken (b : Byte) (s : State) : (emit b s).taken = s.taken := by
  simp [emit]
@[simp] theorem emit_pending (b : Byte) (s : State) : (emit b s).pending = s.pending := by
  simp [emit]
@[simp] theorem emit_answers (b : Byte) (s : State) : (emit b s).answers = s.answers := by
  simp [emit]

/-! ### `setFreq` (R30) -/

@[simp] theorem setFreq_mode (x : Byte) (v : Word) (s : State) : (setFreq x v s).mode = s.mode := rfl
@[simp] theorem setFreq_treev (x : Byte) (v : Word) (s : State) : (setFreq x v s).treev = s.treev := rfl
@[simp] theorem setFreq_tabv (x : Byte) (v : Word) (s : State) : (setFreq x v s).tabv = s.tabv := rfl
@[simp] theorem setFreq_errcode (x : Byte) (v : Word) (s : State) : (setFreq x v s).errcode = s.errcode := rfl
@[simp] theorem setFreq_errsub (x : Byte) (v : Word) (s : State) : (setFreq x v s).errsub = s.errsub := rfl
@[simp] theorem setFreq_errinfo (x : Byte) (v : Word) (s : State) : (setFreq x v s).errinfo = s.errinfo := rfl
@[simp] theorem setFreq_nodes (x : Byte) (v : Word) (s : State) : (setFreq x v s).nodes = s.nodes := rfl
@[simp] theorem setFreq_root (x : Byte) (v : Word) (s : State) : (setFreq x v s).root = s.root := rfl
@[simp] theorem setFreq_table (x : Byte) (v : Word) (s : State) : (setFreq x v s).table = s.table := rfl
@[simp] theorem setFreq_nent (x : Byte) (v : Word) (s : State) : (setFreq x v s).nent = s.nent := rfl
@[simp] theorem setFreq_nsym (x : Byte) (v : Word) (s : State) : (setFreq x v s).nsym = s.nsym := rfl
@[simp] theorem setFreq_acc (x : Byte) (v : Word) (s : State) : (setFreq x v s).acc = s.acc := rfl
@[simp] theorem setFreq_nbits (x : Byte) (v : Word) (s : State) : (setFreq x v s).nbits = s.nbits := rfl
@[simp] theorem setFreq_enccnt (x : Byte) (v : Word) (s : State) : (setFreq x v s).enccnt = s.enccnt := rfl
@[simp] theorem setFreq_cur (x : Byte) (v : Word) (s : State) : (setFreq x v s).cur = s.cur := rfl
@[simp] theorem setFreq_rem (x : Byte) (v : Word) (s : State) : (setFreq x v s).rem = s.rem := rfl
@[simp] theorem setFreq_pst (x : Byte) (v : Word) (s : State) : (setFreq x v s).pst = s.pst := rfl
@[simp] theorem setFreq_pcnt (x : Byte) (v : Word) (s : State) : (setFreq x v s).pcnt = s.pcnt := rfl
@[simp] theorem setFreq_psym (x : Byte) (v : Word) (s : State) : (setFreq x v s).psym = s.psym := rfl
@[simp] theorem setFreq_plen (x : Byte) (v : Word) (s : State) : (setFreq x v s).plen = s.plen := rfl
@[simp] theorem setFreq_pidx (x : Byte) (v : Word) (s : State) : (setFreq x v s).pidx = s.pidx := rfl
@[simp] theorem setFreq_ptmp (x : Byte) (v : Word) (s : State) : (setFreq x v s).ptmp = s.ptmp := rfl
@[simp] theorem setFreq_pbits (x : Byte) (v : Word) (s : State) : (setFreq x v s).pbits = s.pbits := rfl
@[simp] theorem setFreq_outq (x : Byte) (v : Word) (s : State) : (setFreq x v s).outq = s.outq := rfl
@[simp] theorem setFreq_outqDepth (x : Byte) (v : Word) (s : State) : (setFreq x v s).outqDepth = s.outqDepth := rfl
@[simp] theorem setFreq_held (x : Byte) (v : Word) (s : State) : (setFreq x v s).held = s.held := rfl
@[simp] theorem setFreq_taken (x : Byte) (v : Word) (s : State) : (setFreq x v s).taken = s.taken := rfl
@[simp] theorem setFreq_pending (x : Byte) (v : Word) (s : State) : (setFreq x v s).pending = s.pending := rfl
@[simp] theorem setFreq_answers (x : Byte) (v : Word) (s : State) : (setFreq x v s).answers = s.answers := rfl

/-! ### `setCode` (R36) -/

@[simp] theorem setCode_mode (x : Byte) (c : BitSeq) (s : State) : (setCode x c s).mode = s.mode := rfl
@[simp] theorem setCode_treev (x : Byte) (c : BitSeq) (s : State) : (setCode x c s).treev = s.treev := rfl
@[simp] theorem setCode_tabv (x : Byte) (c : BitSeq) (s : State) : (setCode x c s).tabv = s.tabv := rfl
@[simp] theorem setCode_errcode (x : Byte) (c : BitSeq) (s : State) : (setCode x c s).errcode = s.errcode := rfl
@[simp] theorem setCode_errsub (x : Byte) (c : BitSeq) (s : State) : (setCode x c s).errsub = s.errsub := rfl
@[simp] theorem setCode_errinfo (x : Byte) (c : BitSeq) (s : State) : (setCode x c s).errinfo = s.errinfo := rfl
@[simp] theorem setCode_freq (x : Byte) (c : BitSeq) (s : State) : (setCode x c s).freq = s.freq := rfl
@[simp] theorem setCode_nodes (x : Byte) (c : BitSeq) (s : State) : (setCode x c s).nodes = s.nodes := rfl
@[simp] theorem setCode_root (x : Byte) (c : BitSeq) (s : State) : (setCode x c s).root = s.root := rfl
@[simp] theorem setCode_table (x : Byte) (c : BitSeq) (s : State) : (setCode x c s).table = Memory.insert s.table x.toNat c := rfl
@[simp] theorem setCode_nent (x : Byte) (c : BitSeq) (s : State) : (setCode x c s).nent = s.nent := rfl
@[simp] theorem setCode_nsym (x : Byte) (c : BitSeq) (s : State) : (setCode x c s).nsym = s.nsym := rfl
@[simp] theorem setCode_acc (x : Byte) (c : BitSeq) (s : State) : (setCode x c s).acc = s.acc := rfl
@[simp] theorem setCode_nbits (x : Byte) (c : BitSeq) (s : State) : (setCode x c s).nbits = s.nbits := rfl
@[simp] theorem setCode_enccnt (x : Byte) (c : BitSeq) (s : State) : (setCode x c s).enccnt = s.enccnt := rfl
@[simp] theorem setCode_cur (x : Byte) (c : BitSeq) (s : State) : (setCode x c s).cur = s.cur := rfl
@[simp] theorem setCode_rem (x : Byte) (c : BitSeq) (s : State) : (setCode x c s).rem = s.rem := rfl
@[simp] theorem setCode_pst (x : Byte) (c : BitSeq) (s : State) : (setCode x c s).pst = s.pst := rfl
@[simp] theorem setCode_pcnt (x : Byte) (c : BitSeq) (s : State) : (setCode x c s).pcnt = s.pcnt := rfl
@[simp] theorem setCode_psym (x : Byte) (c : BitSeq) (s : State) : (setCode x c s).psym = s.psym := rfl
@[simp] theorem setCode_plen (x : Byte) (c : BitSeq) (s : State) : (setCode x c s).plen = s.plen := rfl
@[simp] theorem setCode_pidx (x : Byte) (c : BitSeq) (s : State) : (setCode x c s).pidx = s.pidx := rfl
@[simp] theorem setCode_ptmp (x : Byte) (c : BitSeq) (s : State) : (setCode x c s).ptmp = s.ptmp := rfl
@[simp] theorem setCode_pbits (x : Byte) (c : BitSeq) (s : State) : (setCode x c s).pbits = s.pbits := rfl
@[simp] theorem setCode_outq (x : Byte) (c : BitSeq) (s : State) : (setCode x c s).outq = s.outq := rfl
@[simp] theorem setCode_outqDepth (x : Byte) (c : BitSeq) (s : State) : (setCode x c s).outqDepth = s.outqDepth := rfl
@[simp] theorem setCode_held (x : Byte) (c : BitSeq) (s : State) : (setCode x c s).held = s.held := rfl
@[simp] theorem setCode_taken (x : Byte) (c : BitSeq) (s : State) : (setCode x c s).taken = s.taken := rfl
@[simp] theorem setCode_pending (x : Byte) (c : BitSeq) (s : State) : (setCode x c s).pending = s.pending := rfl
@[simp] theorem setCode_answers (x : Byte) (c : BitSeq) (s : State) : (setCode x c s).answers = s.answers := rfl

/-! ### `answer` (R61) -/

@[simp] theorem answer_mode (a : Answer) (s : State) : (answer a s).mode = s.mode := rfl
@[simp] theorem answer_treev (a : Answer) (s : State) : (answer a s).treev = s.treev := rfl
@[simp] theorem answer_tabv (a : Answer) (s : State) : (answer a s).tabv = s.tabv := rfl
@[simp] theorem answer_errcode (a : Answer) (s : State) : (answer a s).errcode = s.errcode := rfl
@[simp] theorem answer_errsub (a : Answer) (s : State) : (answer a s).errsub = s.errsub := rfl
@[simp] theorem answer_errinfo (a : Answer) (s : State) : (answer a s).errinfo = s.errinfo := rfl
@[simp] theorem answer_freq (a : Answer) (s : State) : (answer a s).freq = s.freq := rfl
@[simp] theorem answer_nodes (a : Answer) (s : State) : (answer a s).nodes = s.nodes := rfl
@[simp] theorem answer_root (a : Answer) (s : State) : (answer a s).root = s.root := rfl
@[simp] theorem answer_table (a : Answer) (s : State) : (answer a s).table = s.table := rfl
@[simp] theorem answer_nent (a : Answer) (s : State) : (answer a s).nent = s.nent := rfl
@[simp] theorem answer_nsym (a : Answer) (s : State) : (answer a s).nsym = s.nsym := rfl
@[simp] theorem answer_acc (a : Answer) (s : State) : (answer a s).acc = s.acc := rfl
@[simp] theorem answer_nbits (a : Answer) (s : State) : (answer a s).nbits = s.nbits := rfl
@[simp] theorem answer_enccnt (a : Answer) (s : State) : (answer a s).enccnt = s.enccnt := rfl
@[simp] theorem answer_cur (a : Answer) (s : State) : (answer a s).cur = s.cur := rfl
@[simp] theorem answer_rem (a : Answer) (s : State) : (answer a s).rem = s.rem := rfl
@[simp] theorem answer_pst (a : Answer) (s : State) : (answer a s).pst = s.pst := rfl
@[simp] theorem answer_pcnt (a : Answer) (s : State) : (answer a s).pcnt = s.pcnt := rfl
@[simp] theorem answer_psym (a : Answer) (s : State) : (answer a s).psym = s.psym := rfl
@[simp] theorem answer_plen (a : Answer) (s : State) : (answer a s).plen = s.plen := rfl
@[simp] theorem answer_pidx (a : Answer) (s : State) : (answer a s).pidx = s.pidx := rfl
@[simp] theorem answer_ptmp (a : Answer) (s : State) : (answer a s).ptmp = s.ptmp := rfl
@[simp] theorem answer_pbits (a : Answer) (s : State) : (answer a s).pbits = s.pbits := rfl
@[simp] theorem answer_outq (a : Answer) (s : State) : (answer a s).outq = s.outq := rfl
@[simp] theorem answer_outqDepth (a : Answer) (s : State) : (answer a s).outqDepth = s.outqDepth := rfl
@[simp] theorem answer_held (a : Answer) (s : State) : (answer a s).held = s.held := rfl
@[simp] theorem answer_taken (a : Answer) (s : State) : (answer a s).taken = s.taken := rfl
@[simp] theorem answer_pending (a : Answer) (s : State) : (answer a s).pending = s.pending := rfl
@[simp] theorem answer_answers (a : Answer) (s : State) : (answer a s).answers = s.answers ++ [a] := rfl

/-! ### `complete` (R130) -/

@[simp] theorem complete_mode (s : State) : (complete s).mode = s.mode := by
  unfold complete; split <;> rfl
@[simp] theorem complete_treev (s : State) : (complete s).treev = s.treev := by
  unfold complete; split <;> rfl
@[simp] theorem complete_tabv (s : State) : (complete s).tabv = s.tabv := by
  unfold complete; split <;> rfl
@[simp] theorem complete_errcode (s : State) : (complete s).errcode = s.errcode := by
  unfold complete; split <;> rfl
@[simp] theorem complete_errsub (s : State) : (complete s).errsub = s.errsub := by
  unfold complete; split <;> rfl
@[simp] theorem complete_errinfo (s : State) : (complete s).errinfo = s.errinfo := by
  unfold complete; split <;> rfl
@[simp] theorem complete_freq (s : State) : (complete s).freq = s.freq := by
  unfold complete; split <;> rfl
@[simp] theorem complete_nodes (s : State) : (complete s).nodes = s.nodes := by
  unfold complete; split <;> rfl
@[simp] theorem complete_root (s : State) : (complete s).root = s.root := by
  unfold complete; split <;> rfl
@[simp] theorem complete_table (s : State) : (complete s).table = s.table := by
  unfold complete; split <;> rfl
@[simp] theorem complete_nent (s : State) : (complete s).nent = s.nent := by
  unfold complete; split <;> rfl
@[simp] theorem complete_nsym (s : State) : (complete s).nsym = s.nsym := by
  unfold complete; split <;> rfl
@[simp] theorem complete_acc (s : State) : (complete s).acc = s.acc := by
  unfold complete; split <;> rfl
@[simp] theorem complete_nbits (s : State) : (complete s).nbits = s.nbits := by
  unfold complete; split <;> rfl
@[simp] theorem complete_enccnt (s : State) : (complete s).enccnt = s.enccnt := by
  unfold complete; split <;> rfl
@[simp] theorem complete_cur (s : State) : (complete s).cur = s.cur := by
  unfold complete; split <;> rfl
@[simp] theorem complete_rem (s : State) : (complete s).rem = s.rem := by
  unfold complete; split <;> rfl
@[simp] theorem complete_pst (s : State) : (complete s).pst = s.pst := by
  unfold complete; split <;> rfl
@[simp] theorem complete_pcnt (s : State) : (complete s).pcnt = s.pcnt := by
  unfold complete; split <;> rfl
@[simp] theorem complete_psym (s : State) : (complete s).psym = s.psym := by
  unfold complete; split <;> rfl
@[simp] theorem complete_plen (s : State) : (complete s).plen = s.plen := by
  unfold complete; split <;> rfl
@[simp] theorem complete_pidx (s : State) : (complete s).pidx = s.pidx := by
  unfold complete; split <;> rfl
@[simp] theorem complete_ptmp (s : State) : (complete s).ptmp = s.ptmp := by
  unfold complete; split <;> rfl
@[simp] theorem complete_pbits (s : State) : (complete s).pbits = s.pbits := by
  unfold complete; split <;> rfl
@[simp] theorem complete_outq (s : State) : (complete s).outq = s.outq := by
  unfold complete; split <;> rfl
@[simp] theorem complete_outqDepth (s : State) : (complete s).outqDepth = s.outqDepth := by
  unfold complete; split <;> rfl
@[simp] theorem complete_held (s : State) : (complete s).held = s.held := by
  unfold complete; split <;> rfl
@[simp] theorem complete_taken (s : State) : (complete s).taken = s.taken := by
  unfold complete; split <;> rfl
@[simp] theorem complete_pending (s : State) : (complete s).pending = s.pending := by
  unfold complete; split <;> rfl

/-! ### `sinkTake` (R74) -/

@[simp] theorem sinkTake_mode (s : State) : (sinkTake s).mode = s.mode := by
  unfold sinkTake refill; split <;> (try split) <;> simp
@[simp] theorem sinkTake_treev (s : State) : (sinkTake s).treev = s.treev := by
  unfold sinkTake refill; split <;> (try split) <;> simp
@[simp] theorem sinkTake_tabv (s : State) : (sinkTake s).tabv = s.tabv := by
  unfold sinkTake refill; split <;> (try split) <;> simp
@[simp] theorem sinkTake_errcode (s : State) : (sinkTake s).errcode = s.errcode := by
  unfold sinkTake refill; split <;> (try split) <;> simp
@[simp] theorem sinkTake_errsub (s : State) : (sinkTake s).errsub = s.errsub := by
  unfold sinkTake refill; split <;> (try split) <;> simp
@[simp] theorem sinkTake_errinfo (s : State) : (sinkTake s).errinfo = s.errinfo := by
  unfold sinkTake refill; split <;> (try split) <;> simp
@[simp] theorem sinkTake_freq (s : State) : (sinkTake s).freq = s.freq := by
  unfold sinkTake refill; split <;> (try split) <;> simp
@[simp] theorem sinkTake_nodes (s : State) : (sinkTake s).nodes = s.nodes := by
  unfold sinkTake refill; split <;> (try split) <;> simp
@[simp] theorem sinkTake_root (s : State) : (sinkTake s).root = s.root := by
  unfold sinkTake refill; split <;> (try split) <;> simp
@[simp] theorem sinkTake_table (s : State) : (sinkTake s).table = s.table := by
  unfold sinkTake refill; split <;> (try split) <;> simp
@[simp] theorem sinkTake_nent (s : State) : (sinkTake s).nent = s.nent := by
  unfold sinkTake refill; split <;> (try split) <;> simp
@[simp] theorem sinkTake_nsym (s : State) : (sinkTake s).nsym = s.nsym := by
  unfold sinkTake refill; split <;> (try split) <;> simp
@[simp] theorem sinkTake_acc (s : State) : (sinkTake s).acc = s.acc := by
  unfold sinkTake refill; split <;> (try split) <;> simp
@[simp] theorem sinkTake_nbits (s : State) : (sinkTake s).nbits = s.nbits := by
  unfold sinkTake refill; split <;> (try split) <;> simp
@[simp] theorem sinkTake_enccnt (s : State) : (sinkTake s).enccnt = s.enccnt := by
  unfold sinkTake refill; split <;> (try split) <;> simp
@[simp] theorem sinkTake_cur (s : State) : (sinkTake s).cur = s.cur := by
  unfold sinkTake refill; split <;> (try split) <;> simp
@[simp] theorem sinkTake_rem (s : State) : (sinkTake s).rem = s.rem := by
  unfold sinkTake refill; split <;> (try split) <;> simp
@[simp] theorem sinkTake_pst (s : State) : (sinkTake s).pst = s.pst := by
  unfold sinkTake refill; split <;> (try split) <;> simp
@[simp] theorem sinkTake_pcnt (s : State) : (sinkTake s).pcnt = s.pcnt := by
  unfold sinkTake refill; split <;> (try split) <;> simp
@[simp] theorem sinkTake_psym (s : State) : (sinkTake s).psym = s.psym := by
  unfold sinkTake refill; split <;> (try split) <;> simp
@[simp] theorem sinkTake_plen (s : State) : (sinkTake s).plen = s.plen := by
  unfold sinkTake refill; split <;> (try split) <;> simp
@[simp] theorem sinkTake_pidx (s : State) : (sinkTake s).pidx = s.pidx := by
  unfold sinkTake refill; split <;> (try split) <;> simp
@[simp] theorem sinkTake_ptmp (s : State) : (sinkTake s).ptmp = s.ptmp := by
  unfold sinkTake refill; split <;> (try split) <;> simp
@[simp] theorem sinkTake_pbits (s : State) : (sinkTake s).pbits = s.pbits := by
  unfold sinkTake refill; split <;> (try split) <;> simp
@[simp] theorem sinkTake_outqDepth (s : State) : (sinkTake s).outqDepth = s.outqDepth := by
  unfold sinkTake refill; split <;> (try split) <;> simp
@[simp] theorem sinkTake_pending (s : State) : (sinkTake s).pending = s.pending := by
  unfold sinkTake refill; split <;> (try split) <;> simp

/-! ### `writeBit` (R192) -/

@[simp] theorem writeBit_mode (t : Bool) (s : State) : (writeBit t s).mode = s.mode := by
  unfold writeBit; split <;> simp
@[simp] theorem writeBit_treev (t : Bool) (s : State) : (writeBit t s).treev = s.treev := by
  unfold writeBit; split <;> simp
@[simp] theorem writeBit_tabv (t : Bool) (s : State) : (writeBit t s).tabv = s.tabv := by
  unfold writeBit; split <;> simp
@[simp] theorem writeBit_errcode (t : Bool) (s : State) : (writeBit t s).errcode = s.errcode := by
  unfold writeBit; split <;> simp
@[simp] theorem writeBit_errsub (t : Bool) (s : State) : (writeBit t s).errsub = s.errsub := by
  unfold writeBit; split <;> simp
@[simp] theorem writeBit_errinfo (t : Bool) (s : State) : (writeBit t s).errinfo = s.errinfo := by
  unfold writeBit; split <;> simp
@[simp] theorem writeBit_freq (t : Bool) (s : State) : (writeBit t s).freq = s.freq := by
  unfold writeBit; split <;> simp
@[simp] theorem writeBit_nodes (t : Bool) (s : State) : (writeBit t s).nodes = s.nodes := by
  unfold writeBit; split <;> simp
@[simp] theorem writeBit_root (t : Bool) (s : State) : (writeBit t s).root = s.root := by
  unfold writeBit; split <;> simp
@[simp] theorem writeBit_table (t : Bool) (s : State) : (writeBit t s).table = s.table := by
  unfold writeBit; split <;> simp
@[simp] theorem writeBit_nent (t : Bool) (s : State) : (writeBit t s).nent = s.nent := by
  unfold writeBit; split <;> simp
@[simp] theorem writeBit_nsym (t : Bool) (s : State) : (writeBit t s).nsym = s.nsym := by
  unfold writeBit; split <;> simp
@[simp] theorem writeBit_enccnt (t : Bool) (s : State) : (writeBit t s).enccnt = s.enccnt := by
  unfold writeBit; split <;> simp
@[simp] theorem writeBit_cur (t : Bool) (s : State) : (writeBit t s).cur = s.cur := by
  unfold writeBit; split <;> simp
@[simp] theorem writeBit_rem (t : Bool) (s : State) : (writeBit t s).rem = s.rem := by
  unfold writeBit; split <;> simp
@[simp] theorem writeBit_pst (t : Bool) (s : State) : (writeBit t s).pst = s.pst := by
  unfold writeBit; split <;> simp
@[simp] theorem writeBit_pcnt (t : Bool) (s : State) : (writeBit t s).pcnt = s.pcnt := by
  unfold writeBit; split <;> simp
@[simp] theorem writeBit_psym (t : Bool) (s : State) : (writeBit t s).psym = s.psym := by
  unfold writeBit; split <;> simp
@[simp] theorem writeBit_plen (t : Bool) (s : State) : (writeBit t s).plen = s.plen := by
  unfold writeBit; split <;> simp
@[simp] theorem writeBit_pidx (t : Bool) (s : State) : (writeBit t s).pidx = s.pidx := by
  unfold writeBit; split <;> simp
@[simp] theorem writeBit_ptmp (t : Bool) (s : State) : (writeBit t s).ptmp = s.ptmp := by
  unfold writeBit; split <;> simp
@[simp] theorem writeBit_pbits (t : Bool) (s : State) : (writeBit t s).pbits = s.pbits := by
  unfold writeBit; split <;> simp
@[simp] theorem writeBit_outqDepth (t : Bool) (s : State) : (writeBit t s).outqDepth = s.outqDepth := by
  unfold writeBit; split <;> simp
@[simp] theorem writeBit_taken (t : Bool) (s : State) : (writeBit t s).taken = s.taken := by
  unfold writeBit; split <;> simp
@[simp] theorem writeBit_pending (t : Bool) (s : State) : (writeBit t s).pending = s.pending := by
  unfold writeBit; split <;> simp
@[simp] theorem writeBit_answers (t : Bool) (s : State) : (writeBit t s).answers = s.answers := by
  unfold writeBit; split <;> simp

/-! ### `writeBits` (R192) -/

@[simp] theorem writeBits_mode (c : BitSeq) (s : State) : (writeBits c s).mode = s.mode := by
  induction c generalizing s with
  | nil => rfl
  | cons t c ih => exact (ih _).trans (writeBit_mode t s)
@[simp] theorem writeBits_treev (c : BitSeq) (s : State) : (writeBits c s).treev = s.treev := by
  induction c generalizing s with
  | nil => rfl
  | cons t c ih => exact (ih _).trans (writeBit_treev t s)
@[simp] theorem writeBits_tabv (c : BitSeq) (s : State) : (writeBits c s).tabv = s.tabv := by
  induction c generalizing s with
  | nil => rfl
  | cons t c ih => exact (ih _).trans (writeBit_tabv t s)
@[simp] theorem writeBits_errcode (c : BitSeq) (s : State) : (writeBits c s).errcode = s.errcode := by
  induction c generalizing s with
  | nil => rfl
  | cons t c ih => exact (ih _).trans (writeBit_errcode t s)
@[simp] theorem writeBits_errsub (c : BitSeq) (s : State) : (writeBits c s).errsub = s.errsub := by
  induction c generalizing s with
  | nil => rfl
  | cons t c ih => exact (ih _).trans (writeBit_errsub t s)
@[simp] theorem writeBits_errinfo (c : BitSeq) (s : State) : (writeBits c s).errinfo = s.errinfo := by
  induction c generalizing s with
  | nil => rfl
  | cons t c ih => exact (ih _).trans (writeBit_errinfo t s)
@[simp] theorem writeBits_freq (c : BitSeq) (s : State) : (writeBits c s).freq = s.freq := by
  induction c generalizing s with
  | nil => rfl
  | cons t c ih => exact (ih _).trans (writeBit_freq t s)
@[simp] theorem writeBits_nodes (c : BitSeq) (s : State) : (writeBits c s).nodes = s.nodes := by
  induction c generalizing s with
  | nil => rfl
  | cons t c ih => exact (ih _).trans (writeBit_nodes t s)
@[simp] theorem writeBits_root (c : BitSeq) (s : State) : (writeBits c s).root = s.root := by
  induction c generalizing s with
  | nil => rfl
  | cons t c ih => exact (ih _).trans (writeBit_root t s)
@[simp] theorem writeBits_table (c : BitSeq) (s : State) : (writeBits c s).table = s.table := by
  induction c generalizing s with
  | nil => rfl
  | cons t c ih => exact (ih _).trans (writeBit_table t s)
@[simp] theorem writeBits_nent (c : BitSeq) (s : State) : (writeBits c s).nent = s.nent := by
  induction c generalizing s with
  | nil => rfl
  | cons t c ih => exact (ih _).trans (writeBit_nent t s)
@[simp] theorem writeBits_nsym (c : BitSeq) (s : State) : (writeBits c s).nsym = s.nsym := by
  induction c generalizing s with
  | nil => rfl
  | cons t c ih => exact (ih _).trans (writeBit_nsym t s)
@[simp] theorem writeBits_enccnt (c : BitSeq) (s : State) : (writeBits c s).enccnt = s.enccnt := by
  induction c generalizing s with
  | nil => rfl
  | cons t c ih => exact (ih _).trans (writeBit_enccnt t s)
@[simp] theorem writeBits_cur (c : BitSeq) (s : State) : (writeBits c s).cur = s.cur := by
  induction c generalizing s with
  | nil => rfl
  | cons t c ih => exact (ih _).trans (writeBit_cur t s)
@[simp] theorem writeBits_rem (c : BitSeq) (s : State) : (writeBits c s).rem = s.rem := by
  induction c generalizing s with
  | nil => rfl
  | cons t c ih => exact (ih _).trans (writeBit_rem t s)
@[simp] theorem writeBits_pst (c : BitSeq) (s : State) : (writeBits c s).pst = s.pst := by
  induction c generalizing s with
  | nil => rfl
  | cons t c ih => exact (ih _).trans (writeBit_pst t s)
@[simp] theorem writeBits_pcnt (c : BitSeq) (s : State) : (writeBits c s).pcnt = s.pcnt := by
  induction c generalizing s with
  | nil => rfl
  | cons t c ih => exact (ih _).trans (writeBit_pcnt t s)
@[simp] theorem writeBits_psym (c : BitSeq) (s : State) : (writeBits c s).psym = s.psym := by
  induction c generalizing s with
  | nil => rfl
  | cons t c ih => exact (ih _).trans (writeBit_psym t s)
@[simp] theorem writeBits_plen (c : BitSeq) (s : State) : (writeBits c s).plen = s.plen := by
  induction c generalizing s with
  | nil => rfl
  | cons t c ih => exact (ih _).trans (writeBit_plen t s)
@[simp] theorem writeBits_pidx (c : BitSeq) (s : State) : (writeBits c s).pidx = s.pidx := by
  induction c generalizing s with
  | nil => rfl
  | cons t c ih => exact (ih _).trans (writeBit_pidx t s)
@[simp] theorem writeBits_ptmp (c : BitSeq) (s : State) : (writeBits c s).ptmp = s.ptmp := by
  induction c generalizing s with
  | nil => rfl
  | cons t c ih => exact (ih _).trans (writeBit_ptmp t s)
@[simp] theorem writeBits_pbits (c : BitSeq) (s : State) : (writeBits c s).pbits = s.pbits := by
  induction c generalizing s with
  | nil => rfl
  | cons t c ih => exact (ih _).trans (writeBit_pbits t s)
@[simp] theorem writeBits_outqDepth (c : BitSeq) (s : State) : (writeBits c s).outqDepth = s.outqDepth := by
  induction c generalizing s with
  | nil => rfl
  | cons t c ih => exact (ih _).trans (writeBit_outqDepth t s)
@[simp] theorem writeBits_taken (c : BitSeq) (s : State) : (writeBits c s).taken = s.taken := by
  induction c generalizing s with
  | nil => rfl
  | cons t c ih => exact (ih _).trans (writeBit_taken t s)
@[simp] theorem writeBits_pending (c : BitSeq) (s : State) : (writeBits c s).pending = s.pending := by
  induction c generalizing s with
  | nil => rfl
  | cons t c ih => exact (ih _).trans (writeBit_pending t s)
@[simp] theorem writeBits_answers (c : BitSeq) (s : State) : (writeBits c s).answers = s.answers := by
  induction c generalizing s with
  | nil => rfl
  | cons t c ih => exact (ih _).trans (writeBit_answers t s)

end Sys2Proof.Machine
end

