-- ==== Sys2Proof/Laws/Ops.lean ====
section
/-! SUPPORT. One lemma per shared operation of Machine/Ops.lean that says once what it can do: the stores, `emit` and the
output queue, `raise`, and the frame of a command. -/

namespace Sys2Proof.Machine

/-! ### Stores -/

theorem byte_toNat_inj {x y : Byte} : x.toNat = y.toNat ↔ x = y := by
  constructor
  · exact BitVec.eq_of_toNat_eq
  · rintro rfl; rfl

@[simp] theorem freqOf_setFreq_same (x : Byte) (v : Word) (s : State) : freqOf (setFreq x v s) x = v := by
  unfold freqOf setFreq
  split
  · rename_i h; simp [Memory.find_erase, h]
  · simp

theorem freqOf_setFreq_other {x y : Byte} (v : Word) (s : State) (h : y ≠ x) :
    freqOf (setFreq x v s) y = freqOf s y := by
  have hn : y.toNat ≠ x.toNat := fun e => h (BitVec.eq_of_toNat_eq e)
  unfold freqOf setFreq
  split
  · simp [Memory.find_erase, hn]
  · simp [Memory.find_insert_other _ _ hn]

/-- A write of `FREQ` keeps its canonical form. -/
theorem countsWf_setFreq (x : Byte) (v : Word) {s : State} (h : Memory.countsWf s.freq = true) :
    Memory.countsWf (setFreq x v s).freq = true := by
  unfold setFreq
  split
  · exact Memory.countsWf_erase _ h
  · rename_i hv
    exact Memory.countsWf_insert (by simpa using x.isLt) hv h

@[simp] theorem codeOf_setCode_same (x : Byte) (c : BitSeq) (s : State) : codeOf (setCode x c s) x = some c := by
  simp [codeOf]

theorem codeOf_setCode_other {x y : Byte} (c : BitSeq) (s : State) (h : y ≠ x) :
    codeOf (setCode x c s) y = codeOf s y := by
  have hn : y.toNat ≠ x.toNat := fun e => h (BitVec.eq_of_toNat_eq e)
  simp [codeOf, Memory.find_insert_other _ _ hn]

/-- A write of the code table keeps its canonical form. -/
theorem wf_setCode (x : Byte) (c : BitSeq) {s : State} (h : Memory.wf s.table = true) :
    Memory.wf (setCode x c s).table = true :=
  Memory.wf_insert _ (by simpa using x.isLt) h

/-- A canonical table is its codes: two of them that give every symbol the same code are equal. -/
theorem table_ext {s t : State} (hs : Memory.wf s.table = true) (ht : Memory.wf t.table = true)
    (h : ∀ x, codeOf s x = codeOf t x) : s.table = t.table := by
  refine Memory.ext_of_wf hs ht (fun k => ?_)
  by_cases hk : k < 256
  · have := h (BitVec.ofNat 8 k)
    simpa [codeOf, Nat.mod_eq_of_lt hk] using this
  · rw [Memory.find_of_wf_ge hs (by omega), Memory.find_of_wf_ge ht (by omega)]

/-- Every symbol is one of the 256 the loops run over. -/
@[simp] theorem mem_allSyms (x : Byte) : x ∈ allSyms := by
  unfold allSyms
  refine List.mem_map.mpr ⟨x.toNat, ?_, ?_⟩
  · simpa using x.isLt
  · simp

@[simp] theorem length_allSyms : allSyms.length = 256 := by simp [allSyms]

theorem nodup_allSyms : allSyms.Nodup := by
  unfold allSyms
  refine List.Nodup.map_on ?_ List.nodup_range
  intro a ha b hb h
  have ha' : a < 256 := by simpa using ha
  have hb' : b < 256 := by simpa using hb
  have := congrArg BitVec.toNat h
  simpa [Nat.mod_eq_of_lt ha', Nat.mod_eq_of_lt hb'] using this

/-! ### Output -/

/-- `emit` only appends to `OUT` (R75), whatever the depth of the queue. -/
@[simp] theorem emitAll_out (bs : List Byte) (s : State) : (emitAll bs s).out = s.out ++ bs := by
  unfold emitAll
  split
  · rename_i h
    simp [State.out, h, List.append_assoc]
  · simp [State.out, List.append_assoc]

@[simp] theorem emit_out (b : Byte) (s : State) : (emit b s).out = s.out ++ [b] := by simp [emit]

/-- `emit` writes nothing but the output queue. -/
theorem emitAll_frame (bs : List Byte) (s : State) :
    emitAll bs s = { s with outq := (emitAll bs s).outq, held := (emitAll bs s).held } := by
  unfold emitAll; split <;> rfl

@[simp] theorem emitAll_nil (s : State) : emitAll [] s = s := by
  unfold emitAll
  split
  · rename_i h
    cases s
    simp_all
  · simp

/-- The state an `emit` leaves depends on the queue only through its own fields. -/
theorem emitAll_congr_fields (bs : List Byte) (s : State) (f : State → State)
    (h1 : (f s).held = s.held) (h2 : (f s).outq = s.outq) (h3 : (f s).outqDepth = s.outqDepth) :
    (emitAll bs (f s)).outq = (emitAll bs s).outq ∧ (emitAll bs (f s)).held = (emitAll bs s).held := by
  unfold emitAll
  simp only [h1, h2, h3]
  split <;> simp

@[simp] theorem raised_out (c : ErrCode) (sub : BitVec 4) (info : Word) (s : State) :
    (s.raised c sub info).out = s.out := rfl

@[simp] theorem setFreq_out (x : Byte) (v : Word) (s : State) : (setFreq x v s).out = s.out := rfl

@[simp] theorem setCode_out (x : Byte) (c : BitSeq) (s : State) : (setCode x c s).out = s.out := rfl

@[simp] theorem answer_out (a : Answer) (s : State) : (answer a s).out = s.out := rfl

@[simp] theorem complete_out (s : State) : (complete s).out = s.out := by
  unfold complete; split <;> rfl

/-- A transfer to the sink leaves `OUT` as it is (R76). -/
@[simp] theorem sinkTake_out (s : State) : (sinkTake s).out = s.out := by
  unfold sinkTake refill
  split
  · rfl
  · rename_i b bs hq
    dsimp only
    split
    · rename_i hh
      simp [State.out, hq, hh]
    · rename_i c cs hh
      simp [State.out, hq, hh]

/-- The queue's bound (R75): `emit` never fills `OUTQ` past its depth, and holds bytes back only when it is full. -/
theorem emitAll_queue {bs : List Byte} {s : State} {d : Nat} (hd : s.outqDepth = some d)
    (hle : s.outq.length ≤ d) (hfull : s.held ≠ [] → s.outq.length = d) :
    (emitAll bs s).outq.length ≤ d ∧ ((emitAll bs s).held ≠ [] → (emitAll bs s).outq.length = d) := by
  unfold emitAll
  split
  · simp only [hd, roomFor, List.length_append, List.length_take, ne_eq, List.drop_eq_nil_iff]
    constructor
    · omega
    · intro h; omega
  · rename_i h
    exact ⟨hle, fun _ => hfull h⟩

/-- An unbounded queue never holds a byte back. -/
theorem emitAll_unbounded {bs : List Byte} {s : State} (hd : s.outqDepth = none) (hh : s.held = []) :
    (emitAll bs s).held = [] := by
  simp [emitAll, hd, hh, roomFor]

/-! ### Commands -/

@[simp] theorem bind_go (s : State) (k : State → Flow) : (Flow.go s).bind k = k s := rfl
@[simp] theorem bind_raised (s : State) (k : State → Flow) : (Flow.raised s).bind k = .raised s := rfl
@[simp] theorem bind_stuck (f : Fault) (k : State → Flow) : (Flow.stuck f).bind k = .stuck f := rfl
@[simp] theorem finish_go (s : State) : (Flow.go s).finish = .next s := rfl
@[simp] theorem finish_raised (s : State) : (Flow.raised s).finish = .next s := rfl
@[simp] theorem finish_stuck (f : Fault) : (Flow.stuck f).finish = .fault f := rfl
@[simp] theorem raise_def (c : ErrCode) (sub : BitVec 4) (info : Word) (s : State) :
    raise c sub info s = .raised (s.raised c sub info) := rfl

theorem bind_eq_go {r : Flow} {k : State → Flow} {t : State} (h : r.bind k = .go t) :
    ∃ u, r = .go u ∧ k u = .go t := by
  cases r with
  | go u => exact ⟨u, rfl, h⟩
  | raised u => cases h
  | stuck f => cases h

theorem bind_eq_raised {r : Flow} {k : State → Flow} {t : State} (h : r.bind k = .raised t) :
    r = .raised t ∨ ∃ u, r = .go u ∧ k u = .raised t := by
  cases r with
  | go u => exact .inr ⟨u, rfl, h⟩
  | raised u =>
    have hu : u = t := by simpa [Flow.bind] using h
    exact .inl (by rw [hu])
  | stuck f => cases h

theorem bind_assoc (r : Flow) (k l : State → Flow) : (r.bind k).bind l = r.bind (fun s => (k s).bind l) := by
  cases r <;> rfl

theorem finish_next {r : Flow} {t : State} (h : r.finish = .next t) : r = .go t ∨ r = .raised t := by
  cases r with
  | go u =>
    have hu : u = t := by simpa [Flow.finish] using h
    exact .inl (by rw [hu])
  | raised u =>
    have hu : u = t := by simpa [Flow.finish] using h
    exact .inr (by rw [hu])
  | stuck f => cases h

/-- In `FAULT` mode a command has no effect (R131). -/
theorem command_fault (i : Instr) (body : State → Flow) {s : State} (h : s.mode = .fault) :
    command i body s = .next s := by
  simp [command, h]

/-- A failed `require` (R135). -/
theorem command_rejects (i : Instr) (body : State → Flow) {s : State} (h : s.mode ≠ .fault)
    (ha : accepts i s = false) : command i body s = .next (s.raised .sequence 0#4 (encode i)) := by
  simp [command, h, ha]

/-- A command that is accepted runs its pseudocode (R130). -/
theorem command_accepts (i : Instr) (body : State → Flow) {s : State} (h : s.mode ≠ .fault)
    (ha : accepts i s = true) : command i body s = (body s).finish := by
  simp [command, h, ha]

/-- Everything a command can do: nothing in `FAULT` mode, a `SequenceError`, or its pseudocode to its end or to a
`raise`. -/
theorem command_cases {i : Instr} {body : State → Flow} {s t : State} (h : command i body s = .next t) :
    (s.mode = .fault ∧ t = s) ∨
    (s.mode ≠ .fault ∧ accepts i s = false ∧ t = s.raised .sequence 0#4 (encode i)) ∨
    (s.mode ≠ .fault ∧ accepts i s = true ∧ (body s = .go t ∨ body s = .raised t)) := by
  by_cases hm : s.mode = .fault
  · rw [command_fault i body hm] at h
    cases h
    exact .inl ⟨hm, rfl⟩
  · cases ha : accepts i s with
    | false =>
      rw [command_rejects i body hm ha] at h
      cases h
      exact .inr (.inl ⟨hm, rfl, rfl⟩)
    | true =>
      rw [command_accepts i body hm ha] at h
      exact .inr (.inr ⟨hm, rfl, finish_next h⟩)

/-- A command never ends in a refusal. -/
theorem command_not_refused (i : Instr) (body : State → Flow) (s : State) (r : Refusal) :
    command i body s ≠ .refused r := by
  unfold command
  split
  · simp
  · split
    · cases body s <;> simp
    · simp

end Sys2Proof.Machine
end

