-- ==== Sys2Proof/Laws/Bits.lean ====
section
/-! SUPPORT. Bit order: what a shift does to each bit of a byte, the bits of a packed byte (R70), and the bit writer as
an append to the waiting bits (R192). -/

namespace Sys2Proof.Machine

/-- The new bit stands at bit 0, every other bit moves up by one (R192). -/
theorem getLsbD_shiftIn (v : Byte) (t : Bool) (j : Nat) (hj : j < 8) :
    (shiftIn v t).getLsbD j = if j = 0 then t else v.getLsbD (j - 1) := by
  unfold shiftIn
  cases t <;> rcases j with _ | j <;> simp <;> omega

@[simp] theorem length_byteBits (b : Byte) : (byteBits b).length = 8 := rfl

/-- The stream order of a byte: its bit `7 - i` comes `i`-th (R68). -/
theorem byteBits_eq (b : Byte) : byteBits b = (List.range 8).map (fun i => b.getLsbD (7 - i)) := rfl

/-- Bit `i` of the stream order of a byte is its bit `7 - i` (R68). -/
theorem getElem_byteBits (b : Byte) (i : Nat) (hi : i < (byteBits b).length) :
    (byteBits b)[i] = b.getLsbD (7 - i) := by
  simp only [length_byteBits] at hi
  rcases i with _ | _ | _ | _ | _ | _ | _ | _ | i <;> first | rfl | omega

/-- A byte is its bits. -/
theorem byteBits_inj {a b : Byte} (h : byteBits a = byteBits b) : a = b := by
  refine BitVec.eq_of_getLsbD_eq (fun j hj => ?_)
  have h1 := getElem_byteBits a (7 - j) (by simp; omega)
  have h2 := getElem_byteBits b (7 - j) (by simp; omega)
  have e : 7 - (7 - j) = j := by omega
  rw [e] at h1 h2
  rw [← h1, ← h2]
  simp only [h]

/-- Shifting the first `n` bits in leaves bit `n - 1 - i` equal to the `i`-th of them. -/
theorem getLsbD_shiftFold (f : Nat → Bool) (n : Nat) (hn : n ≤ 8) (j : Nat) (hj : j < n) :
    ((List.range n).foldl (fun v i => shiftIn v (f i)) 0#8).getLsbD j = f (n - 1 - j) := by
  induction n generalizing j with
  | zero => omega
  | succ n ih =>
    rw [List.range_succ, List.foldl_append]
    simp only [List.foldl_cons, List.foldl_nil]
    rw [getLsbD_shiftIn _ _ _ (by omega)]
    split
    · rename_i h; subst h; simp
    · rw [ih (by omega) (j - 1) (by omega)]
      congr 1
      omega

/-- R70: "bit `7 - i` of byte `j` is `c[8j + i]` when `8j + i < n`, else 0". -/
theorem byteBits_packByte (c : BitSeq) (j : Nat) :
    byteBits (packByte c j) = (List.range 8).map (fun i => c.getD (8 * j + i) false) := by
  rw [byteBits_eq]
  apply List.map_congr_left
  intro i hi
  have hi' : i < 8 := by simpa using hi
  unfold packByte
  rw [getLsbD_shiftFold (fun i => c.getD (8 * j + i) false) 8 (by omega) (7 - i) (by omega)]
  congr 1
  omega

@[simp] theorem length_pack (c : BitSeq) : (pack c).length = byteCount c.length := by simp [pack]

@[simp] theorem pack_nil : pack [] = [] := rfl

/-- Packing whole bytes: the first eight bits are the first byte, the rest is packed on its own. -/
theorem pack_append_byte (b : Byte) (c : BitSeq) : pack (byteBits b ++ c) = b :: pack c := by
  have hlen : byteCount (byteBits b ++ c).length = byteCount c.length + 1 := by
    simp [byteCount]; omega
  unfold pack
  rw [hlen, List.range_succ_eq_map, List.map_cons, List.map_map]
  congr 1
  · apply byteBits_inj
    rw [byteBits_packByte]
    conv_rhs => rw [byteBits_eq]
    apply List.map_congr_left
    intro i hi
    have hi' : i < 8 := by simpa using hi
    have hl : i < (byteBits b).length := by simpa using hi'
    have := getElem_byteBits b i hl
    simp only [Nat.mul_zero, Nat.zero_add, List.getD_eq_getElem?_getD, List.getElem?_append, hl, if_true]
    rw [List.getElem?_eq_getElem hl, this]
    rfl

/-- `unpack` reads back what `pack` holds (R70): the code, then pad bits 0. -/
theorem flatMap_byteBits_pack (c : BitSeq) :
    (pack c).flatMap byteBits = c ++ List.replicate (8 * byteCount c.length - c.length) false := by
  unfold pack
  have key : ∀ m, ((List.range m).map (packByte c)).flatMap byteBits =
      (List.range (8 * m)).map (fun i => c.getD i false) := by
    intro m
    induction m with
    | zero => rfl
    | succ m ih =>
      rw [List.range_succ, List.map_append, List.flatMap_append, ih]
      rw [show 8 * (m + 1) = 8 * m + 8 by ring, List.range_add, List.map_append]
      simp only [List.map_cons, List.map_nil, List.flatMap_cons, List.flatMap_nil, List.append_nil, List.map_map]
      rw [byteBits_packByte]
      rfl
  rw [key]
  have hb : c.length ≤ 8 * byteCount c.length := by unfold byteCount; omega
  apply List.ext_getElem
  · simp; omega
  · intro i h1 h2
    simp only [List.getElem_map, List.getElem_range]
    rw [List.getElem_append]
    split
    · rename_i h
      simp [List.getD_eq_getElem?_getD, h]
    · rename_i h
      simp [List.getD_eq_getElem?_getD, List.getElem?_eq_none (Nat.le_of_not_lt h)]

/-- R70: `unpack(pack(c), len(c)) = c`. -/
@[simp] theorem unpack_pack (c : BitSeq) : unpack (pack c) c.length = c := by
  simp [unpack, flatMap_byteBits_pack]

/-- `unpack` ignores what follows the first `n` bits, whatever the pad bits are (R70, R241). -/
theorem unpack_append (a b : List Byte) (n : Nat) (h : n ≤ 8 * a.length) : unpack (a ++ b) n = unpack a n := by
  unfold unpack
  rw [List.flatMap_append, List.take_append_of_le_length]
  have : (a.flatMap byteBits).length = 8 * a.length := by
    induction a with
    | nil => rfl
    | cons x a ih => simp [List.flatMap_cons]; omega
  omega

/-! ### The bit writer -/

@[simp] theorem length_accBits (s : State) : (accBits s).length = s.nbits.toNat := by simp [accBits]

/-- Seven bits wait: the eighth completes a byte, which is emitted, first bit highest (R192). -/
theorem writeBit_full {t : Bool} {s : State} (h : s.nbits = 7#3) :
    writeBit t s = emit (shiftIn s.acc t) { s with acc := 0#8, nbits := 0#3 } ∧
    byteBits (shiftIn s.acc t) = accBits s ++ [t] := by
  constructor
  · simp [writeBit, h]
  · have hn : s.nbits.toNat = 7 := by rw [h]; rfl
    have e : accBits s ++ [t] =
        (List.range 7).map (fun i => s.acc.getLsbD (7 - 1 - i)) ++ [t] := by simp [accBits, hn]
    rw [e, byteBits_eq, List.range_succ, List.map_append]
    congr 1
    · apply List.map_congr_left
      intro i hi
      have hi' : i < 7 := by simpa using hi
      rw [getLsbD_shiftIn _ _ _ (by omega)]
      have : ¬ (7 - i = 0) := by omega
      simp only [this, if_false]
      congr 1
      omega
    · simpa using getLsbD_shiftIn s.acc t 0 (by omega)

/-- Fewer bits wait: the new one joins them (R192). -/
theorem writeBit_room {t : Bool} {s : State} (h : s.nbits ≠ 7#3) :
    writeBit t s = { s with acc := shiftIn s.acc t, nbits := s.nbits + 1#3 } ∧
    (s.nbits + 1#3).toNat = s.nbits.toNat + 1 ∧ accBits (writeBit t s) = accBits s ++ [t] := by
  have hlt : s.nbits.toNat < 7 := by
    have h1 := s.nbits.isLt
    have h2 : s.nbits.toNat ≠ 7 := fun e => h (BitVec.eq_of_toNat_eq (by simpa using e))
    omega
  have hn : (s.nbits + 1#3).toNat = s.nbits.toNat + 1 := by
    rw [BitVec.toNat_add]
    simp
    omega
  refine ⟨by simp [writeBit, h], hn, ?_⟩
  have hw : writeBit t s = { s with acc := shiftIn s.acc t, nbits := s.nbits + 1#3 } := by simp [writeBit, h]
  rw [hw]
  apply List.ext_getElem
  · simp [accBits, hn]
  · intro i h1 h2
    have h1' : i < s.nbits.toNat + 1 := by simpa [accBits, hn] using h1
    rw [List.getElem_append]
    simp only [accBits, List.getElem_map, List.getElem_range, hn, List.length_map, List.length_range]
    rw [getLsbD_shiftIn _ _ _ (by omega)]
    by_cases hi : i < s.nbits.toNat
    · have : ¬ (s.nbits.toNat + 1 - 1 - i = 0) := by omega
      simp only [hi, this, if_false, dite_true]
      congr 1
      omega
    · have e : s.nbits.toNat + 1 - 1 - i = 0 := by omega
      simp only [hi, e, if_true, dite_false]
      simp

/-- What `writeBit` can do, once: the bits of the bytes it emits and the bits it leaves waiting are the bits that
waited and the new one. -/
theorem writeBit_spec (t : Bool) (s : State) :
    ∃ bytes : List Byte, (writeBit t s).out = s.out ++ bytes ∧
      bytes.flatMap byteBits ++ accBits (writeBit t s) = accBits s ++ [t] := by
  by_cases h : s.nbits = 7#3
  · obtain ⟨h1, h2⟩ := writeBit_full (t := t) h
    refine ⟨[shiftIn s.acc t], ?_, ?_⟩
    · rw [h1, emit_out]
      rfl
    · rw [h1]
      simp [accBits, h2]
  · obtain ⟨h1, -, h3⟩ := writeBit_room (t := t) h
    exact ⟨[], by rw [h1]; simp [State.out], by simpa using h3⟩

/-- `writeBits` as one append to the waiting bits (R192, R195). -/
theorem writeBits_spec (c : BitSeq) (s : State) :
    ∃ bytes : List Byte, (writeBits c s).out = s.out ++ bytes ∧
      bytes.flatMap byteBits ++ accBits (writeBits c s) = accBits s ++ c := by
  induction c generalizing s with
  | nil => exact ⟨[], by simp [writeBits], by simp [writeBits]⟩
  | cons t c ih =>
    obtain ⟨b1, o1, e1⟩ := writeBit_spec t s
    obtain ⟨b2, o2, e2⟩ := ih (writeBit t s)
    refine ⟨b1 ++ b2, ?_, ?_⟩
    · change (writeBits c (writeBit t s)).out = _
      rw [o2, o1, List.append_assoc]
    · change (b1 ++ b2).flatMap byteBits ++ accBits (writeBits c (writeBit t s)) = _
      rw [List.flatMap_append, List.append_assoc, e2, ← List.append_assoc, e1]
      simp

/-- `writeBits` touches the accumulator and the output queue only. -/
theorem writeBits_frame (c : BitSeq) (s : State) :
    writeBits c s = { s with
      acc := (writeBits c s).acc, nbits := (writeBits c s).nbits,
      outq := (writeBits c s).outq, held := (writeBits c s).held } := by
  apply State.ext <;> simp

/-- The byte `ENCEND` flushes (R198): the waiting bits at the top, zeros below. -/
theorem byteBits_flush (s : State) :
    byteBits (s.acc <<< (8 - s.nbits.toNat)) = accBits s ++ List.replicate (8 - s.nbits.toNat) false := by
  have hn := s.nbits.isLt
  rw [byteBits_eq]
  apply List.ext_getElem
  · simp; omega
  · intro i h1 h2
    have hi : i < 8 := by simpa using h1
    rw [List.getElem_append]
    simp only [List.getElem_map, List.getElem_range, length_accBits]
    rw [BitVec.getLsbD_shiftLeft]
    by_cases hlt : i < s.nbits.toNat
    · have e1 : 7 - i < 8 := by omega
      have e2 : ¬ (7 - i < 8 - s.nbits.toNat) := by omega
      have e3 : 7 - i - (8 - s.nbits.toNat) = s.nbits.toNat - 1 - i := by omega
      simp [hlt, e1, e2, e3, accBits]
    · have e2 : 7 - i < 8 - s.nbits.toNat := by omega
      simp [hlt, e2]

/-- What `ENCEND`'s flush can do, once (R198): it appends `pack` of the waiting bits. -/
theorem flushBits_out (s : State) : (flushBits s).out = s.out ++ pack (accBits s) := by
  unfold flushBits
  split
  · rename_i h
    have : accBits s = [] := by
      apply List.eq_nil_of_length_eq_zero
      simp [h]
    simp [this]
  · rename_i h
    rw [emit_out]
    have hn := s.nbits.isLt
    have hpos : 0 < s.nbits.toNat := by
      rcases Nat.eq_zero_or_pos s.nbits.toNat with e | e
      · exact absurd (BitVec.eq_of_toNat_eq (by simpa using e)) h
      · exact e
    have hlen : (pack (accBits s)).length = 1 := by
      rw [length_pack, length_accBits]
      unfold byteCount
      omega
    obtain ⟨y, hy⟩ := List.length_eq_one_iff.mp hlen
    have hb := flatMap_byteBits_pack (accBits s)
    have hc : 8 * byteCount (accBits s).length - (accBits s).length = 8 - s.nbits.toNat := by
      rw [length_accBits]
      unfold byteCount
      omega
    rw [hy, hc, ← byteBits_flush] at hb
    have : y = s.acc <<< (8 - s.nbits.toNat) := byteBits_inj (by simpa using hb)
    rw [hy, this]
    rfl

end Sys2Proof.Machine
end

