-- ==== Sys2Proof/Laws/Arena.lean ====
section
/-! SUPPORT. The node arena: reads after an allocation, paths, what the walk of `GENTAB` finds, what one decoding step can
do, and what `extract_min` returns. -/

namespace Sys2Proof.Machine

/-! ### Reads -/

theorem nodeAt_lt {nodes : List Node} {h : Handle} {n : Node} (e : nodeAt nodes h = some n) : h.toNat < nodes.length := by
  unfold nodeAt at e
  exact (List.getElem?_eq_some_iff.mp e).1

/-- An allocation leaves every allocated node as it is (R33). -/
theorem nodeAt_append {nodes more : List Node} {h : Handle} (hlt : h.toNat < nodes.length) :
    nodeAt (nodes ++ more) h = nodeAt nodes h := by
  unfold nodeAt
  rw [List.getElem?_append_left hlt]

/-- The handle an allocation returns is the old number of nodes (R33). -/
theorem nextHandle_toNat {nodes : List Node} (h : nodes.length < 512) : (nextHandle nodes).toNat = nodes.length := by
  unfold nextHandle
  rw [BitVec.toNat_ofNat]
  omega

/-- The handle of an allocation below the capacity is not `NIL` (R33). -/
theorem nextHandle_ne_nil {nodes : List Node} (h : nodes.length < 511) : nextHandle nodes ≠ Config.nil := by
  intro e
  have h1 := nextHandle_toNat (nodes := nodes) (by omega)
  rw [e] at h1
  have : (Config.nil).toNat = 511 := rfl
  omega

/-- The new node stands at the handle the allocation returns (R33). -/
theorem nodeAt_new {nodes : List Node} (n : Node) (h : nodes.length < 512) :
    nodeAt (nodes ++ [n]) (nextHandle nodes) = some n := by
  unfold nodeAt
  rw [nextHandle_toNat h]
  simp

theorem weightAt_append {nodes more : List Node} {h : Handle} (hlt : h.toNat < nodes.length) :
    weightAt (nodes ++ more) h = weightAt nodes h := by
  unfold weightAt
  rw [nodeAt_append hlt]

/-! ### Paths -/

theorem descend_nil {nodes : List Node} {h : Handle} (hn : h ≠ Config.nil) (hlt : h.toNat < nodes.length) :
    descend nodes h [] = some h := by
  simp [descend, hn, hlt]

theorem descend_internal {nodes : List Node} {h : Handle} {w : Word} {l r : Handle} (hn : h ≠ Config.nil)
    (e : nodeAt nodes h = some (.internal w l r)) (b : Bool) (p : BitSeq) :
    descend nodes h (b :: p) = descend nodes (if b then r else l) p := by
  simp [descend, hn, e]

theorem descend_leaf {nodes : List Node} {h : Handle} {x : Byte} {w : Word} (e : nodeAt nodes h = some (.leaf x w))
    (b : Bool) (p : BitSeq) : descend nodes h (b :: p) = none := by
  unfold descend
  split
  · rfl
  · simp [e]

/-- Where a path leads is allocated and not `NIL`. -/
theorem descend_allocated {nodes : List Node} {h g : Handle} {p : BitSeq} (e : descend nodes h p = some g) :
    g ≠ Config.nil ∧ g.toNat < nodes.length := by
  induction p generalizing h with
  | nil =>
    unfold descend at e
    split at e
    · rename_i hc
      cases e
      exact hc
    · cases e
  | cons b p ih =>
    unfold descend at e
    split at e
    · cases e
    · split at e
      · exact ih e
      · cases e

/-- Two parts of a path, one after the other. -/
theorem descend_append (nodes : List Node) (h : Handle) (p q : BitSeq) :
    descend nodes h (p ++ q) = (descend nodes h p).bind (fun g => descend nodes g q) := by
  induction p generalizing h with
  | nil =>
    rw [List.nil_append]
    by_cases hc : h ≠ Config.nil ∧ h.toNat < nodes.length
    · simp [descend, hc]
    · have e : descend nodes h [] = none := by simp only [descend, hc, if_false]
      rw [e, Option.bind_none]
      cases q with
      | nil => exact e
      | cons b q =>
        unfold descend
        split
        · rfl
        · rename_i hn
          split
          · rename_i w l r hl
            exact absurd ⟨hn, nodeAt_lt hl⟩ hc
          · rfl
  | cons b p ih =>
    rw [List.cons_append]
    conv_lhs => unfold descend
    conv_rhs => rw [descend]
    split
    · rfl
    · split
      · exact ih _
      · rfl

/-- A path through the arena stays what it is when nodes are added. -/
theorem descend_more {nodes more : List Node} {h g : Handle} {p : BitSeq} (e : descend nodes h p = some g) :
    descend (nodes ++ more) h p = some g := by
  induction p generalizing h with
  | nil =>
    have hc := descend_allocated e
    unfold descend at e
    split at e
    · cases e
      exact descend_nil hc.1 (by simp; omega)
    · cases e
  | cons b p ih =>
    unfold descend at e
    split at e
    · cases e
    · rename_i hn
      split at e
      · rename_i w l r hl
        rw [descend_internal hn (by rw [nodeAt_append (nodeAt_lt hl)]; exact hl)]
        exact ih e
      · cases e

theorem follow_nil {nodes : List Node} {h : Handle} (hn : h ≠ Config.nil) : follow nodes h [] = nodeAt nodes h := by
  unfold follow
  by_cases hlt : h.toNat < nodes.length
  · rw [descend_nil hn hlt]
    rfl
  · simp [descend, hlt, nodeAt]

theorem follow_internal {nodes : List Node} {h : Handle} {w : Word} {l r : Handle} (hn : h ≠ Config.nil)
    (e : nodeAt nodes h = some (.internal w l r)) (b : Bool) (p : BitSeq) :
    follow nodes h (b :: p) = follow nodes (if b then r else l) p := by
  unfold follow
  rw [descend_internal hn e]

/-- No path leads through `NIL`. -/
@[simp] theorem follow_of_nil (nodes : List Node) (p : BitSeq) : follow nodes Config.nil p = none := by
  cases p <;> simp [follow, descend]

/-! ### The walk of `GENTAB` (R181) -/

theorem bothCodes_ok {a b : Except Fault Codes} {cs : Codes} (h : bothCodes a b = .ok cs) :
    ∃ xs ys, a = .ok xs ∧ b = .ok ys ∧ cs = xs ++ ys := by
  unfold bothCodes at h
  split at h
  · cases h
  · split at h
    · cases h
    · rename_i xs _ ys
      cases h
      exact ⟨xs, ys, rfl, rfl, rfl⟩

/-- What a walk that ends has found: exactly the leaves below `h`, each with the path to it (R181). -/
theorem mem_walk {nodes : List Node} {fuel : Nat} {h : Handle} {path : BitSeq} {cs : Codes} (hn : h ≠ Config.nil)
    (e : walk nodes fuel h path = .ok cs) (x : Byte) (c : BitSeq) :
    (x, c) ∈ cs ↔ ∃ p w, c = path ++ p ∧ follow nodes h p = some (.leaf x w) := by
  induction fuel generalizing h path cs with
  | zero => simp [walk] at e
  | succ fuel ih =>
    unfold walk at e
    split at e
    · cases e
    · rename_i y w hl
      cases e
      constructor
      · intro hm
        have hm' : (x, c) = (y, path) := by simpa using hm
        cases hm'
        exact ⟨[], w, by simp, by rw [follow_nil hn]; exact hl⟩
      · rintro ⟨p, v, rfl, hf⟩
        cases p with
        | nil =>
          rw [follow_nil hn, hl] at hf
          cases hf
          simp
        | cons b p =>
          simp [follow, descend_leaf hl] at hf
    · rename_i w l r hl
      obtain ⟨xs, ys, hx, hy, rfl⟩ := bothCodes_ok e
      have left : (x, c) ∈ xs ↔ ∃ p v, c = path ++ [false] ++ p ∧ follow nodes l p = some (.leaf x v) := by
        split at hx
        · rename_i hnil
          cases hx
          simp [hnil]
        · rename_i hnil
          exact ih hnil hx
      have right : (x, c) ∈ ys ↔ ∃ p v, c = path ++ [true] ++ p ∧ follow nodes r p = some (.leaf x v) := by
        split at hy
        · rename_i hnil
          cases hy
          simp [hnil]
        · rename_i hnil
          exact ih hnil hy
      rw [List.mem_append, left, right]
      constructor
      · rintro (⟨p, v, rfl, hf⟩ | ⟨p, v, rfl, hf⟩)
        · exact ⟨false :: p, v, by simp, by rw [follow_internal hn hl]; exact hf⟩
        · exact ⟨true :: p, v, by simp, by rw [follow_internal hn hl]; exact hf⟩
      · rintro ⟨p, v, rfl, hf⟩
        cases p with
        | nil =>
          rw [follow_nil hn, hl] at hf
          cases hf
        | cons b p =>
          rw [follow_internal hn hl] at hf
          cases b with
          | false => exact .inl ⟨p, v, by simp, hf⟩
          | true => exact .inr ⟨p, v, by simp, hf⟩

/-! ### One decoding step (R216) -/

/-- Everything `decodeBit` can do when it goes on: ignore the bit, go down, or emit a symbol and return to the root. -/
theorem decodeBit_go {b : Bool} {s t : State} (h : decodeBit b s = .go t) :
    (s.rem = 0#32 ∧ t = s) ∨
    (s.rem ≠ 0#32 ∧ ∃ n, nodeAt s.nodes s.cur = some n ∧ n.child b ≠ Config.nil ∧
      ((∃ w l r, nodeAt s.nodes (n.child b) = some (.internal w l r) ∧ t = { s with cur := n.child b }) ∨
       (∃ x w, nodeAt s.nodes (n.child b) = some (.leaf x w) ∧
         t = { emit x s with rem := s.rem - 1#32, cur := s.root }))) := by
  unfold decodeBit at h
  split at h
  · rename_i hr
    cases h
    exact .inl ⟨hr, rfl⟩
  · rename_i hr
    split at h
    · cases h
    · rename_i n hn
      split at h
      · cases h
      · rename_i hc
        split at h
        · cases h
        · rename_i m hm
          refine .inr ⟨hr, n, hn, hc, ?_⟩
          cases m with
          | internal w l r =>
            cases h
            exact .inl ⟨w, l, r, hm, rfl⟩
          | leaf x w =>
            cases h
            exact .inr ⟨x, w, hm, rfl⟩

/-- A fault of `decodeBit` leaves only the record (R216: "`CUR` is not advanced"). -/
theorem decodeBit_raised {b : Bool} {s t : State} (h : decodeBit b s = .raised t) :
    s.rem ≠ 0#32 ∧ t = s.raised .structuralCorruption 1#4 (missingChildInfo b s.cur) ∧
    ∃ n, nodeAt s.nodes s.cur = some n ∧ n.child b = Config.nil := by
  unfold decodeBit at h
  split at h
  · cases h
  · rename_i hr
    split at h
    · cases h
    · rename_i n hn
      split at h
      · rename_i hc
        cases h
        exact ⟨hr, rfl, n, hn, hc⟩
      · split at h <;> cases h

/-- A decoding step writes `CUR`, `REM` and the output queue only. -/
theorem decodeBit_frame {b : Bool} {s t : State} (h : decodeBit b s = .go t) :
    t = { s with cur := t.cur, rem := t.rem, outq := t.outq, held := t.held } := by
  rcases decodeBit_go h with ⟨-, rfl⟩ | ⟨-, n, -, -, ⟨w, l, r, -, rfl⟩ | ⟨x, w, -, rfl⟩⟩
  · rfl
  · rfl
  · apply State.ext <;> simp

/-! ### `extract_min` (R161, R162) -/

/-- Keys compare by weight, then by handle, both unsigned (R161, R167). -/
theorem keyLt_iff (nodes : List Node) (a b : Handle) : keyLt nodes a b = true ↔ KeyBefore nodes a b := by
  simp [keyLt, KeyBefore]

theorem keyBefore_irrefl (nodes : List Node) (a : Handle) : ¬ KeyBefore nodes a a := by
  simp [KeyBefore]

theorem keyBefore_trans {nodes : List Node} {a b c : Handle} (h1 : KeyBefore nodes a b) (h2 : KeyBefore nodes b c) :
    KeyBefore nodes a c := by
  unfold KeyBefore at *
  rcases h1 with h1 | ⟨e1, h1⟩ <;> rcases h2 with h2 | ⟨e2, h2⟩
  · exact .inl (by omega)
  · exact .inl (by rw [← e2]; exact h1)
  · exact .inl (by rw [e1]; exact h2)
  · exact .inr ⟨e1.trans e2, by omega⟩

/-- Two different nodes never compare equal (R161: "no two queue members ever compare equal"). -/
theorem keyBefore_total (nodes : List Node) {a b : Handle} (h : a ≠ b) : KeyBefore nodes a b ∨ KeyBefore nodes b a := by
  have hn : a.toNat ≠ b.toNat := fun e => h (BitVec.eq_of_toNat_eq e)
  unfold KeyBefore
  rcases Nat.lt_trichotomy (weightAt nodes a).toNat (weightAt nodes b).toNat with hw | hw | hw
  · exact .inl (.inl hw)
  · have e : weightAt nodes a = weightAt nodes b := BitVec.eq_of_toNat_eq hw
    rcases Nat.lt_or_gt_of_ne hn with h1 | h1
    · exact .inl (.inr ⟨e, h1⟩)
    · exact .inr (.inr ⟨e.symm, h1⟩)
  · exact .inr (.inl hw)

/-- The smallest key of a list: a member, and no other member comes before it. -/
theorem minKey_spec (nodes : List Node) (m : Handle) (q : List Handle) :
    minKey nodes m q ∈ m :: q ∧ ∀ h ∈ m :: q, h = minKey nodes m q ∨ KeyBefore nodes (minKey nodes m q) h := by
  induction q generalizing m with
  | nil => simp [minKey]
  | cons k q ih =>
    simp only [minKey]
    obtain ⟨hm, hall⟩ := ih (if keyLt nodes k m then k else m)
    by_cases hk : keyLt nodes k m = true
    · simp only [hk, if_true] at hm hall ⊢
      refine ⟨List.mem_cons_of_mem _ hm, ?_⟩
      intro h hh
      rcases List.mem_cons.mp hh with rfl | hh
      · have hkm := (keyLt_iff nodes k h).mp hk
        rcases hall k (by simp) with e | e
        · exact .inr (by rw [← e]; exact hkm)
        · exact .inr (keyBefore_trans e hkm)
      · exact hall h hh
    · have hk' : keyLt nodes k m = false := by simpa using hk
      simp only [hk', Bool.false_eq_true, if_false] at hm hall ⊢
      constructor
      · rcases List.mem_cons.mp hm with e | e
        · rw [e]; simp
        · exact List.mem_cons_of_mem _ (List.mem_cons_of_mem _ e)
      · intro h hh
        rcases List.mem_cons.mp hh with rfl | hh
        · exact hall _ (by simp)
        · rcases List.mem_cons.mp hh with rfl | hh
          · by_cases e : m = h
            · exact hall h (by rw [e]; simp)
            · have hmh : KeyBefore nodes m h := by
                rcases keyBefore_total nodes e with h1 | h1
                · exact h1
                · exact absurd ((keyLt_iff nodes h m).mpr h1) hk
              rcases hall m (by simp) with e2 | e2
              · exact .inr (by rw [← e2]; exact hmh)
              · exact .inr (keyBefore_trans e2 hmh)
          · exact hall h (List.mem_cons_of_mem _ hh)

/-- What `extract_min` returns (R162): the member with the smallest key, and the queue without it. -/
theorem extractMin_spec {nodes : List Node} {q r : List Handle} {a : Handle} (h : extractMin nodes q = some (a, r)) :
    a ∈ q ∧ r = q.erase a ∧ ∀ g ∈ q, g = a ∨ KeyBefore nodes a g := by
  unfold extractMin at h
  split at h
  · cases h
  · rename_i k t
    simp only [Option.some.injEq, Prod.mk.injEq] at h
    obtain ⟨rfl, rfl⟩ := h
    exact ⟨(minKey_spec nodes k t).1, rfl, (minKey_spec nodes k t).2⟩

end Sys2Proof.Machine
end

