-- ==== Sys2Proof/Laws/Exec.lean ====
section
/-! SUPPORT. Inversion lemmas: everything `exec`, an outside event and `step` can do. -/

namespace Sys2Proof.Machine

/-- The pseudocode each command runs once it is accepted; `RESET` has none that can stop. -/
def bodyOf (i : Instr) (s : State) : Flow :=
  match i with
  | .nop => .go s
  | .reset => .go (resetBlock s)
  | .clrf => .go (clearFreq s)
  | .count x => countSym x s
  | .build => buildTree s
  | .gentab => genTable s
  | .recon => reconTree s
  | .ser => .go (emitAll (headerBytes s) s)
  | .tabstart => .go (startTable s)
  | .tabb b => parseByte b s
  | .tabend => endTable s
  | .encstart => .go (startEncoding s)
  | .enc x => encodeSym x s
  | .encend => endEncoding s
  | .decstart => startDecoding s
  | .decb b => decodeBits (byteBits b) s
  | .decbit t => decodeBit t s
  | .decend => endDecoding s

/-- Every command but `RESET` is its pseudocode inside the dispatch frame (R130). -/
theorem exec_eq_command {i : Instr} (h : i ≠ .reset) (s : State) : exec i s = command i (bodyOf i) s := by
  cases i <;> first | rfl | exact absurd rfl h

@[simp] theorem exec_reset (s : State) : exec .reset s = .next (resetBlock s) := rfl

/-- Everything a command can do: reset; nothing in `FAULT` mode; a `SequenceError`; its pseudocode, to its end or to a
`raise`. -/
theorem exec_cases {i : Instr} {s t : State} (h : exec i s = .next t) :
    (i = .reset ∧ t = resetBlock s) ∨
    (i ≠ .reset ∧ s.mode = .fault ∧ t = s) ∨
    (i ≠ .reset ∧ s.mode ≠ .fault ∧ accepts i s = false ∧ t = s.raised .sequence 0#4 (encode i)) ∨
    (i ≠ .reset ∧ s.mode ≠ .fault ∧ accepts i s = true ∧ (bodyOf i s = .go t ∨ bodyOf i s = .raised t)) := by
  by_cases hi : i = .reset
  · subst hi
    rw [exec_reset] at h
    cases h
    exact .inl ⟨rfl, rfl⟩
  · rw [exec_eq_command hi] at h
    rcases command_cases h with ⟨a, b⟩ | ⟨a, b, c⟩ | ⟨a, b, c⟩
    · exact .inr (.inl ⟨hi, a, b⟩)
    · exact .inr (.inr (.inl ⟨hi, a, b, c⟩))
    · exact .inr (.inr (.inr ⟨hi, a, b, c⟩))

/-- No command ends in a refusal. -/
theorem exec_not_refused (i : Instr) (s : State) (r : Refusal) : exec i s ≠ .refused r := by
  by_cases hi : i = .reset
  · subst hi; simp
  · rw [exec_eq_command hi]
    exact command_not_refused _ _ _ _

/-- The model itself stops in a command only where the pseudocode is stuck. -/
theorem exec_fault {i : Instr} {s : State} {f : Fault} (h : exec i s = .fault f) :
    i ≠ .reset ∧ s.mode ≠ .fault ∧ accepts i s = true ∧ bodyOf i s = .stuck f := by
  by_cases hi : i = .reset
  · subst hi; simp at h
  · rw [exec_eq_command hi] at h
    unfold command at h
    split at h
    · cases h
    · rename_i hm
      split at h
      · rename_i ha
        refine ⟨hi, hm, ha, ?_⟩
        cases hb : bodyOf i s with
        | go u => simp [hb] at h
        | raised u => simp [hb] at h
        | stuck g => simpa [hb] using h
      · simp at h

/-- Address 0 is `CMD`, and only it (R62). -/
theorem locate_cmd (a : Addr) : locate a = some .cmd ↔ a = 0#15 := by
  constructor
  · intro h
    unfold locate at h
    simp only at h
    split at h
    · cases h
    · split at h
      · rename_i h4 _
        split at h <;> cases h
        rename_i h0
        apply BitVec.eq_of_toNat_eq
        have : a.toNat / 4 = 0 := h0
        simp
        omega
      · split at h
        · cases h
        · split at h
          · cases h
          · split at h
            · cases h
            · split at h
              · cases h
              · split at h <;> cases h
  · rintro rfl; rfl

/-- A `FREQ` location is one of the window's words (R62). -/
theorem locate_freq {a : Addr} {x : Byte} (h : locate a = some (.freq x)) : a.toNat = 0x0400 + 4 * x.toNat := by
  unfold locate at h
  simp only at h
  split at h
  · cases h
  · rename_i h4
    split at h
    · split at h <;> cases h
    · split at h
      · rename_i h1 h2
        have hx : BitVec.ofNat 8 ((a.toNat - 1024) / 4) = x := by simpa using h
        rw [← hx, BitVec.toNat_ofNat]
        omega
      · split at h
        · cases h
        · split at h
          · cases h
          · split at h
            · cases h
            · split at h <;> cases h

/-- The word `FREQ[x]` stands at its address (R62). -/
theorem locate_freq_addr (x : Byte) : locate (BitVec.ofNat 15 (0x0400 + 4 * x.toNat)) = some (.freq x) := by
  have hx := x.isLt
  have e : (BitVec.ofNat 15 (0x0400 + 4 * x.toNat)).toNat = 0x0400 + 4 * x.toNat := by
    rw [BitVec.toNat_ofNat]; omega
  unfold locate
  simp only [e]
  have h1 : ¬ ((1024 + 4 * x.toNat) % 4 ≠ 0) := by omega
  have h2 : ¬ (1024 + 4 * x.toNat < 1024) := by omega
  have h3 : 1024 + 4 * x.toNat < 2048 := by omega
  have h4 : (1024 + 4 * x.toNat - 1024) / 4 = x.toNat := by omega
  simp [h2, h3]

/-- What an outside event can do (R8). -/
theorem handle_cases {e : Event} {s t : State} (h : handle e s = .next t) :
    (∃ a, e = .regRead a ∧ t = answer (regRead a s) s) ∨
    (∃ w i r, e = .regWrite 0#15 w ∧ decode w = .ok i ∧ exec i s = .next r ∧ t = complete r) ∨
    (∃ w d, e = .regWrite 0#15 w ∧ decode w = .error d ∧ s.mode = .fault ∧ t = complete s) ∨
    (∃ w d, e = .regWrite 0#15 w ∧ decode w = .error d ∧ s.mode ≠ .fault ∧
      t = complete (s.raised .illegalCommand 0#4 w)) ∨
    (∃ a x v, e = .regWrite a v ∧ locate a = some (.freq x) ∧ s.mode = .idle ∧ t = answer .ok (setFreq x v s)) ∨
    (∃ a v, e = .regWrite a v ∧ a ≠ 0#15 ∧ t = answer .busError s) ∨
    (e = .sinkReady ∧ t = sinkTake s) ∨
    (e = .rst ∧ t = rstBlock s) := by
  cases e with
  | regRead a =>
    simp only [handle, Host.Outcome.next.injEq] at h
    exact .inl ⟨a, rfl, h.symm⟩
  | sinkReady =>
    simp only [handle, Host.Outcome.next.injEq] at h
    exact .inr (.inr (.inr (.inr (.inr (.inr (.inl ⟨rfl, h.symm⟩))))))
  | rst =>
    simp only [handle, Host.Outcome.next.injEq] at h
    exact .inr (.inr (.inr (.inr (.inr (.inr (.inr ⟨rfl, h.symm⟩))))))
  | regWrite a v =>
    simp only [handle, regWrite] at h
    split at h
    · rename_i hl
      have ha := (locate_cmd a).mp hl
      subst ha
      unfold issue at h
      split at h
      · rename_i i hd
        unfold onNext at h
        split at h
        · rename_i r hr
          simp only [Host.Outcome.next.injEq] at h
          exact .inr (.inl ⟨v, i, r, rfl, hd, hr, h.symm⟩)
        · cases h
        · cases h
      · rename_i d hd
        split at h
        · rename_i hm
          simp only [onNext, Host.Outcome.next.injEq] at h
          exact .inr (.inr (.inl ⟨v, d, rfl, hd, hm, h.symm⟩))
        · rename_i hm
          simp only [onNext, raise_def, finish_raised, Host.Outcome.next.injEq] at h
          exact .inr (.inr (.inr (.inl ⟨v, d, rfl, hd, hm, h.symm⟩)))
    · rename_i x hl
      split at h
      · rename_i hm
        simp only [Host.Outcome.next.injEq] at h
        exact .inr (.inr (.inr (.inr (.inl ⟨a, x, v, rfl, hl, hm, h.symm⟩))))
      · simp only [Host.Outcome.next.injEq] at h
        refine .inr (.inr (.inr (.inr (.inr (.inl ⟨a, v, rfl, ?_, h.symm⟩)))))
        rintro rfl
        rw [(locate_cmd _).mpr rfl] at hl
        cases hl
    · rename_i h1 h2
      simp only [Host.Outcome.next.injEq] at h
      refine .inr (.inr (.inr (.inr (.inr (.inl ⟨a, v, rfl, ?_, h.symm⟩)))))
      rintro rfl
      exact h1 ((locate_cmd _).mpr rfl)

/-- Everything a step can do: nothing when no event can act, or one outside event (R8, R130). -/
theorem step_cases {s t : State} (h : step s = .next t) :
    (nextEvent s = none ∧ t = s) ∨
    ∃ e rest, nextEvent s = some (e, rest) ∧ handle e { s with pending := rest } = .next t := by
  unfold step advance at h
  split at h
  · rename_i hn
    cases h
    exact .inl ⟨hn, rfl⟩
  · rename_i e rest hn
    exact .inr ⟨e, rest, hn, h⟩

/-- The next event when the core does not wait: the first. -/
theorem nextEvent_of_not_waiting {s : State} {e : Event} {es : List Event} (hh : s.held = [])
    (hp : s.pending = e :: es) : nextEvent s = some (e, es) := by
  simp [nextEvent, State.waits, hh, hp]

/-- The next event when it is the sink's or `rst`: the first, whether or not the core waits. -/
theorem nextEvent_of_outside {s : State} {e : Event} {es : List Event} (he : e.isHost = false)
    (hp : s.pending = e :: es) : nextEvent s = some (e, es) := by
  unfold nextEvent
  split
  · simp [hp, takeUnstalled, he]
  · simp [hp]

/-- A step with a known next event. -/
theorem step_of_nextEvent {s : State} {e : Event} {es : List Event} (h : nextEvent s = some (e, es)) :
    step s = handle e { s with pending := es } := by
  simp [step, advance, h]

/-- The invariant principle: what holds is kept by every command, by every other thing an outside event does, is kept by
every step. -/
theorem step_keeps (P : State → Prop)
    (hPending : ∀ s es, P s → P { s with pending := es })
    (hAnswer : ∀ s a, P s → P (answer a s))
    (hExec : ∀ i s t, P s → exec i s = .next t → P t)
    (hIllegal : ∀ s w, P s → s.mode ≠ .fault → P (s.raised .illegalCommand 0#4 w))
    (hFreq : ∀ s x v, P s → s.mode = .idle → P (setFreq x v s))
    (hSink : ∀ s, P s → P (sinkTake s))
    (hRst : ∀ s, P s → P (rstBlock s))
    {s t : State} (hs : P s) (h : step s = .next t) : P t := by
  have hComplete : ∀ s, P s → P (complete s) := by
    intro s hs
    unfold complete
    split
    · exact hs
    · exact hAnswer _ _ hs
  rcases step_cases h with ⟨-, rfl⟩ | ⟨e, rest, -, he⟩
  · exact hs
  · have hu := hPending s rest hs
    rcases handle_cases he with ⟨a, -, rfl⟩ | ⟨w, i, r, -, -, hr, rfl⟩ | ⟨w, d, -, -, -, rfl⟩ | ⟨w, d, -, -, hm, rfl⟩ |
      ⟨a, x, v, -, -, hm, rfl⟩ | ⟨a, v, -, -, rfl⟩ | ⟨-, rfl⟩ | ⟨-, rfl⟩
    · exact hAnswer _ _ hu
    · exact hComplete _ (hExec i _ _ hu hr)
    · exact hComplete _ hu
    · exact hComplete _ (hIllegal _ _ hu hm)
    · exact hAnswer _ _ (hFreq _ _ _ hu hm)
    · exact hAnswer _ _ hu
    · exact hSink _ hu
    · exact hRst _ hu

end Sys2Proof.Machine
end

