-- ==== Sys2Proof/Laws/Bus.lean ====
section
/-! SUPPORT. What stands at each address of the register space (R62), what a read and a refused access do to the state
(R61), and the output queue after a transfer (R74, R75). -/

namespace Sys2Proof.Machine

/-- The word `CLEN[x]` stands at its address (R62). -/
theorem locate_clen_addr (x : Byte) : locate (BitVec.ofNat 15 (0x0800 + 4 * x.toNat)) = some (.clen x) := by
  have hx := x.isLt
  have e : (BitVec.ofNat 15 (0x0800 + 4 * x.toNat)).toNat = 0x0800 + 4 * x.toNat := by
    rw [BitVec.toNat_ofNat]; omega
  unfold locate
  simp only [e]
  have h1 : ¬ ((2048 + 4 * x.toNat) % 4 ≠ 0) := by omega
  have h2 : ¬ (2048 + 4 * x.toNat < 1024) := by omega
  have h3 : ¬ (2048 + 4 * x.toNat < 2048) := by omega
  have h4 : 2048 + 4 * x.toNat < 3072 := by omega
  have h5 : (2048 + 4 * x.toNat - 2048) / 4 = x.toNat := by omega
  simp only [h1, h2, h3, h4, h5, if_true, if_false, BitVec.ofNat_toNat, BitVec.setWidth_eq]

/-- Word `w` of `CBITS[x]` stands at its address (R62). -/
theorem locate_cbits_addr (x : Byte) (w : Nat) (hw : w < 8) :
    locate (BitVec.ofNat 15 (0x2000 + 32 * x.toNat + 4 * w)) = some (.cbits x w) := by
  have hx := x.isLt
  have e : (BitVec.ofNat 15 (0x2000 + 32 * x.toNat + 4 * w)).toNat = 0x2000 + 32 * x.toNat + 4 * w := by
    rw [BitVec.toNat_ofNat]; omega
  unfold locate
  simp only [e]
  have h1 : ¬ ((8192 + 32 * x.toNat + 4 * w) % 4 ≠ 0) := by omega
  have h2 : ¬ (8192 + 32 * x.toNat + 4 * w < 1024) := by omega
  have h3 : ¬ (8192 + 32 * x.toNat + 4 * w < 2048) := by omega
  have h4 : ¬ (8192 + 32 * x.toNat + 4 * w < 3072) := by omega
  have h5 : ¬ (8192 + 32 * x.toNat + 4 * w < 8192) := by omega
  have h6 : 8192 + 32 * x.toNat + 4 * w < 16384 := by omega
  have h7 : (8192 + 32 * x.toNat + 4 * w - 8192) / 32 = x.toNat := by omega
  have h8 : (8192 + 32 * x.toNat + 4 * w - 8192) / 4 % 8 = w := by omega
  simp only [h1, h2, h3, h4, h5, h6, h7, h8, if_true, if_false, BitVec.ofNat_toNat, BitVec.setWidth_eq]

/-- Word `f` of `NODE[h]` stands at its address (R62). -/
theorem locate_node_addr (h f : Nat) (hh : h ≤ 510) (hf : f < 4) :
    locate (BitVec.ofNat 15 (0x4000 + 16 * h + 4 * f)) = some (.node h f) := by
  have e : (BitVec.ofNat 15 (0x4000 + 16 * h + 4 * f)).toNat = 0x4000 + 16 * h + 4 * f := by
    rw [BitVec.toNat_ofNat]; omega
  unfold locate
  simp only [e]
  have h1 : ¬ ((16384 + 16 * h + 4 * f) % 4 ≠ 0) := by omega
  have h2 : ¬ (16384 + 16 * h + 4 * f < 1024) := by omega
  have h3 : ¬ (16384 + 16 * h + 4 * f < 2048) := by omega
  have h4 : ¬ (16384 + 16 * h + 4 * f < 3072) := by omega
  have h5 : ¬ (16384 + 16 * h + 4 * f < 8192) := by omega
  have h6 : ¬ (16384 + 16 * h + 4 * f < 16384) := by omega
  have h7 : 16384 + 16 * h + 4 * f < 24560 := by omega
  have h8 : (16384 + 16 * h + 4 * f - 16384) / 16 = h := by omega
  have h9 : (16384 + 16 * h + 4 * f - 16384) / 4 % 4 = f := by omega
  simp only [h1, h2, h3, h4, h5, h6, h7, h8, h9, if_true, if_false]

/-- A host read, when the core does not wait: it is answered, and nothing else changes (R61, R63). -/
theorem step_regRead {s : State} {a : Addr} {es : List Event} (hh : s.held = []) :
    step { s with pending := .regRead a :: es } = .next { s with pending := es, answers := s.answers ++ [regRead a s] } := by
  have hn : nextEvent { s with pending := .regRead a :: es } = some (.regRead a, es) :=
    nextEvent_of_not_waiting hh rfl
  rw [step_of_nextEvent hn]
  rfl

/-- A host write outside `CMD` and the `FREQ` window, when the core does not wait, is refused (R61). -/
theorem step_regWrite_refused {s : State} {a : Addr} {v : Word} {es : List Event} (hh : s.held = [])
    (hc : locate a ≠ some .cmd) (hf : ∀ x, locate a ≠ some (.freq x)) :
    step { s with pending := .regWrite a v :: es } = .next { s with pending := es, answers := s.answers ++ [.busError] } := by
  have hn : nextEvent { s with pending := .regWrite a v :: es } = some (.regWrite a v, es) :=
    nextEvent_of_not_waiting hh rfl
  rw [step_of_nextEvent hn]
  simp only [handle, regWrite]
  rfl

/-- What a transfer does to the queue (R74, R75): the head leaves, and the first waiting byte takes its place. -/
theorem sinkTake_queue {s : State} {b : Byte} {bs : List Byte} (h : s.outq = b :: bs) :
    (sinkTake s).outq = bs ++ s.held.take 1 ∧ (sinkTake s).held = s.held.drop 1 ∧
    (sinkTake s).taken = s.taken ++ [b] := by
  unfold sinkTake refill
  rw [h]
  dsimp only
  split
  · rename_i hh
    simp [hh]
  · rename_i c cs hh
    simp only [hh, List.take_succ_cons, List.take_zero, List.drop_succ_cons, List.drop_zero]
    unfold complete
    split <;> simp [answer]

/-- A transfer writes the queue, the record of taken bytes and the answers only. -/
theorem sinkTake_frame (s : State) :
    sinkTake s = { s with
      outq := (sinkTake s).outq, held := (sinkTake s).held, taken := (sinkTake s).taken,
      answers := (sinkTake s).answers } := by
  apply State.ext <;> simp

end Sys2Proof.Machine
end

