-- ==== Sys2Proof/Laws/Encoding.lean ====
section
/-! SUPPORT. The fields of an encoded command (R100, R112), and that every term of `Instr` is well-formed. -/

namespace Sys2Proof

@[simp] theorem encode_upper (i : Instr) : (encode i).extractLsb' 16 16 = 0#16 := by
  unfold encode
  apply BitVec.eq_of_getLsbD_eq
  intro j hj
  have h1 : ¬ (16 + j < 8 + 8) := by omega
  simp only [BitVec.getLsbD_extractLsb', BitVec.getLsbD_append, h1, if_false, BitVec.getLsbD_zero, Bool.and_false]

@[simp] theorem encode_op (i : Instr) : (encode i).extractLsb' 8 8 = i.op := by
  unfold encode
  apply BitVec.eq_of_getLsbD_eq
  intro j hj
  have h1 : 8 + j < 8 + 8 := by omega
  have h2 : ¬ (8 + j < 8) := by omega
  have h3 : 8 + j - 8 = j := by omega
  simp only [BitVec.getLsbD_extractLsb', BitVec.getLsbD_append, h1, h2, h3, hj, if_true, if_false, decide_true,
    Bool.true_and]

@[simp] theorem encode_operand (i : Instr) : (encode i).extractLsb' 0 8 = i.operand := by
  unfold encode
  apply BitVec.eq_of_getLsbD_eq
  intro j hj
  have h1 : j < 8 + 8 := by omega
  have h3 : 0 + j = j := by omega
  simp only [BitVec.getLsbD_extractLsb', BitVec.getLsbD_append, h1, h3, hj, if_true, decide_true, Bool.true_and]

/-- A 32-bit word is its upper half, opcode and operand fields. -/
theorem word_eq_fields (w : Word) :
    w = w.extractLsb' 16 16 ++ (w.extractLsb' 8 8 ++ w.extractLsb' 0 8) := by
  apply BitVec.eq_of_getLsbD_eq
  intro j hj
  simp only [BitVec.getLsbD_append, BitVec.getLsbD_extractLsb']
  by_cases h16 : j < 8 + 8
  · by_cases h8 : j < 8
    · simp [h8, h16]
    · have h3 : 8 + (j - 8) = j := by omega
      have h4 : j - 8 < 8 := by omega
      simp [h8, h16, h3, h4]
  · have h3 : 16 + (j - (8 + 8)) = j := by omega
    have h4 : j - (8 + 8) < 16 := by omega
    simp only [h16, if_false, h3, h4, decide_true, Bool.true_and]

@[simp] theorem opFormat_op (i : Instr) : opFormat i.op = some i.format := by cases i <;> rfl

/-- Every term is well-formed: its operand is one its format admits (R101). -/
@[simp] theorem wellFormed_all (i : Instr) : i.wellFormed = true := by
  cases i with
  | decbit t => cases t <;> rfl
  | _ => rfl

/-- Every encoding is a legal word (R106). -/
@[simp] theorem legalWord_encode (i : Instr) : legalWord (encode i) = true := by
  have h := wellFormed_all i
  simp only [Instr.wellFormed] at h
  simp [legalWord, h]

end Sys2Proof
end

