-- ==== Sys2Proof/Laws/PerInstr.lean ====
section
/-! SUPPORT. Family `Fields`: the encoding of each command has the fields R100 and R104 give it, and is legal. -/

namespace Sys2Proof.Laws.Fields

/-- The upper half is 0, the opcode and operand fields are the command's, and the word is legal (R100, R104, R106). -/
def Statement (i : Instr) : Prop :=
  (encode i).extractLsb' 16 16 = 0#16 ∧ (encode i).extractLsb' 8 8 = i.op ∧
  (encode i).extractLsb' 0 8 = i.operand ∧ legalWord (encode i) = true

theorem any (i : Instr) : Statement i := ⟨encode_upper i, encode_op i, encode_operand i, legalWord_encode i⟩

theorem nop : Statement .nop := any _
theorem reset : Statement .reset := any _
theorem clrf : Statement .clrf := any _
theorem count (s : Byte) : Statement (.count s) := any _
theorem build : Statement .build := any _
theorem gentab : Statement .gentab := any _
theorem recon : Statement .recon := any _
theorem ser : Statement .ser := any _
theorem tabstart : Statement .tabstart := any _
theorem tabb (b : Byte) : Statement (.tabb b) := any _
theorem tabend : Statement .tabend := any _
theorem encstart : Statement .encstart := any _
theorem enc (s : Byte) : Statement (.enc s) := any _
theorem encend : Statement .encend := any _
theorem decstart : Statement .decstart := any _
theorem decb (b : Byte) : Statement (.decb b) := any _
theorem decbit (t : Bool) : Statement (.decbit t) := any _
theorem decend : Statement .decend := any _

end Sys2Proof.Laws.Fields
end

