-- ==== Sys2Proof/Laws/Serdes.lean ====
section
/-! SUPPORT. The header fields as numbers, what `entry_done` does, and what one turn of `RECON`'s loop can write. -/

namespace Sys2Proof.Machine

/-- `(PTMP << 8) | b` as a number (R236). -/
theorem fieldSoFar_toNat (s : State) (b : Byte) : (fieldSoFar s b).toNat = s.ptmp.toNat * 256 + b.toNat := by
  have hp := s.ptmp.isLt
  have hb := b.isLt
  have hdisj : s.ptmp.toNat * 256 ||| b.toNat = s.ptmp.toNat * 256 + b.toNat := by
    have := Nat.two_pow_add_eq_or_of_lt (i := 8) (b := b.toNat) (by omega) s.ptmp.toNat
    rw [show s.ptmp.toNat * 256 = 2 ^ 8 * s.ptmp.toNat by omega]
    exact this.symm
  unfold fieldSoFar
  rw [BitVec.toNat_or, BitVec.toNat_shiftLeft, BitVec.toNat_setWidth, BitVec.toNat_setWidth, Nat.shiftLeft_eq]
  have e1 : s.ptmp.toNat % 2 ^ 32 = s.ptmp.toNat := Nat.mod_eq_of_lt (by omega)
  have e2 : b.toNat % 2 ^ 32 = b.toNat := Nat.mod_eq_of_lt (by omega)
  have e3 : s.ptmp.toNat * 2 ^ 8 % 2 ^ 32 = s.ptmp.toNat * 256 := Nat.mod_eq_of_lt (by omega)
  rw [e1, e2, e3, hdisj]

/-- A field as the word of that number (R236). -/
theorem fieldSoFar_eq (s : State) (b : Byte) : fieldSoFar s b = BitVec.ofNat 32 (s.ptmp.toNat * 256 + b.toNat) := by
  have h := fieldSoFar_toNat s b
  have hp := s.ptmp.isLt
  have hb := b.isLt
  apply BitVec.eq_of_toNat_eq
  rw [h, BitVec.toNat_ofNat]
  omega

/-- The code an `entry_done` writes, and the codes it leaves (R236). -/
theorem codeOf_entryDone (s : State) (y : Byte) :
    codeOf (entryDone s) y = if y = s.psym then some (s.pbits.take s.plen.toNat) else codeOf s y := by
  have key : codeOf (entryDone s) y = codeOf (setCode s.psym (s.pbits.take s.plen.toNat) s) y := by
    unfold entryDone
    dsimp only
    split <;> rfl
  rw [key]
  split
  · rename_i h
    rw [h, codeOf_setCode_same]
  · rename_i h
    exact codeOf_setCode_other _ _ h

/-! ### One turn of `RECON`'s loop (R245) -/

theorem allocInto_frame (slot : Slot) (n : Node) (s : State) :
    allocInto slot n s = { s with nodes := (allocInto slot n s).nodes, root := (allocInto slot n s).root } := by
  cases slot <;> rfl

/-- A slot write changes no length: an allocation makes the arena one node longer (R33). -/
theorem length_allocInto (slot : Slot) (n : Node) (s : State) :
    (allocInto slot n s).nodes.length = s.nodes.length + 1 := by
  cases slot with
  | root => simp [allocInto, setSlot]
  | child p b => simp [allocInto, setSlot]

/-- Placing a symbol writes the arena and `ROOT` only, and never past the capacity. -/
theorem place_go {x : Byte} {c : BitSeq} {slot : Slot} {s t : State} (h : place x c slot s = .go t) :
    t = { s with nodes := t.nodes, root := t.root } ∧
    (s.nodes.length ≤ Config.nodeCap → t.nodes.length ≤ Config.nodeCap) := by
  induction c generalizing slot s with
  | nil =>
    unfold place at h
    split at h
    · cases h
    · split at h
      · cases h
      · rename_i hf
        cases h
        refine ⟨allocInto_frame _ _ _, fun _ => ?_⟩
        rw [length_allocInto]
        simp [arenaFull] at hf
        omega
  | cons b c ih =>
    unfold place at h
    split at h
    · split at h
      · cases h
      · rename_i hf
        obtain ⟨h1, h2⟩ := ih h
        constructor
        · rw [allocInto_frame] at h1
          exact h1
        · intro _
          apply h2
          rw [length_allocInto]
          simp [arenaFull] at hf
          omega
    · split at h
      · cases h
      · exact ih h
      · cases h

/-- A fault while placing a symbol: one of the three corruptions with that symbol, the arena and `ROOT` as far as they
had been built (R245). -/
theorem place_raised {x : Byte} {c : BitSeq} {slot : Slot} {s t : State} (h : place x c slot s = .raised t) :
    ∃ sub, (sub = 3#4 ∨ sub = 4#4 ∨ sub = 5#4) ∧
      t = { s.raised .structuralCorruption sub (x.zeroExtend 32) with nodes := t.nodes, root := t.root } := by
  induction c generalizing slot s with
  | nil =>
    unfold place at h
    split at h
    · cases h
      exact ⟨4#4, by decide, rfl⟩
    · split at h
      · cases h
        exact ⟨5#4, by decide, rfl⟩
      · cases h
  | cons b c ih =>
    unfold place at h
    split at h
    · split at h
      · cases h
        exact ⟨5#4, by decide, rfl⟩
      · obtain ⟨sub, hs, he⟩ := ih h
        refine ⟨sub, hs, ?_⟩
        rw [allocInto_frame] at he
        exact he
    · split at h
      · cases h
        exact ⟨3#4, by decide, rfl⟩
      · exact ih h
      · cases h

/-- The symbol loop writes the arena and `ROOT` only (R245). -/
theorem placeSyms_go {xs : List Byte} {s t : State} (h : placeSyms xs s = .go t) :
    t = { s with nodes := t.nodes, root := t.root } ∧
    (s.nodes.length ≤ Config.nodeCap → t.nodes.length ≤ Config.nodeCap) := by
  induction xs generalizing s with
  | nil =>
    cases h
    exact ⟨rfl, id⟩
  | cons x xs ih =>
    simp only [placeSyms] at h
    obtain ⟨u, hu, ht⟩ := bind_eq_go h
    obtain ⟨h1, h2⟩ := ih ht
    have hx : u = { s with nodes := u.nodes, root := u.root } ∧
        (s.nodes.length ≤ Config.nodeCap → u.nodes.length ≤ Config.nodeCap) := by
      unfold placeSym at hu
      split at hu
      · cases hu
        exact ⟨rfl, id⟩
      · exact place_go hu
    refine ⟨?_, fun hs => h2 (hx.2 hs)⟩
    rw [hx.1] at h1
    exact h1

end Sys2Proof.Machine
end

