-- ==== Sys2Proof/Tests/Slice0.lean ====
section
/-! SUPPORT. The model's own tests. Every expected value is a vector of spec/95_test_vectors.md (named in the docstring),
a word of R112 or a value of R291; nothing is the model's own answer. After the tests, a witness for the hypotheses of
every statement that has some. -/

namespace Sys2Proof.Tests

open Sys2Proof Sys2Proof.Machine

/-! ### Decoding (V-COD, R112) -/

theorem test_decode_nop : decode 0x00000000#32 = .ok .nop := by decide
theorem test_decode_reset : decode 0x00000100#32 = .ok .reset := by decide
theorem test_decode_clrf : decode 0x00001000#32 = .ok .clrf := by decide
theorem test_decode_count : decode 0x00001161#32 = .ok (.count 0x61#8) ∧ decode 0x00001100#32 = .ok (.count 0x00#8) ∧
    decode 0x000011FF#32 = .ok (.count 0xFF#8) := by decide
theorem test_decode_build : decode 0x00002000#32 = .ok .build := by decide
theorem test_decode_gentab : decode 0x00002100#32 = .ok .gentab := by decide
theorem test_decode_recon : decode 0x00002200#32 = .ok .recon := by decide
theorem test_decode_ser : decode 0x00003000#32 = .ok .ser := by decide
theorem test_decode_tabstart : decode 0x00003100#32 = .ok .tabstart := by decide
theorem test_decode_tabb : decode 0x00003280#32 = .ok (.tabb 0x80#8) := by decide
theorem test_decode_tabend : decode 0x00003300#32 = .ok .tabend := by decide
theorem test_decode_encstart : decode 0x00004000#32 = .ok .encstart := by decide
theorem test_decode_enc : decode 0x00004162#32 = .ok (.enc 0x62#8) := by decide
theorem test_decode_encend : decode 0x00004200#32 = .ok .encend := by decide
theorem test_decode_decstart : decode 0x00005000#32 = .ok .decstart := by decide
theorem test_decode_decb : decode 0x000051E0#32 = .ok (.decb 0xE0#8) := by decide
theorem test_decode_decbit : decode 0x00005200#32 = .ok (.decbit false) ∧ decode 0x00005201#32 = .ok (.decbit true) := by
  decide
theorem test_decode_decend : decode 0x00005300#32 = .ok .decend := by decide

/-- The illegal words of V-COD, each refused by name. -/
theorem test_decode_illegal :
    decode 0x00000200#32 = .error .unassignedOpcode ∧ decode 0x00010000#32 = .error .upperHalfNotZero ∧
    decode 0x00002001#32 = .error .operandNotZero ∧ decode 0x00005202#32 = .error .bitOperandTooWide ∧
    decode 0x0000FF00#32 = .error .unassignedOpcode ∧ decode 0x80000000#32 = .error .upperHalfNotZero := by decide

/-- The first and the last opcode of every gap of R106 is illegal. -/
theorem test_decode_gaps :
    [0x02, 0x0F, 0x12, 0x1F, 0x23, 0x2F, 0x34, 0x3F, 0x43, 0x4F, 0x54, 0xFF].all
      (fun op => decode (BitVec.ofNat 32 (op * 256)) = .error .unassignedOpcode) = true := by decide

/-- A row the table gives as a number reads alike; bits above `nbits` are 0. -/
theorem test_decodeTableWord : decodeTableWord 32 0x00004162 = some (.enc 0x62#8) ∧ decodeTableWord 32 0x00000200 = none := by
  decide

/-! ### Well-formedness: an ill-formed term for each check -/

/-- `legalWord` refuses a nonzero upper half, an unassigned opcode and each format's bad operand (R106). -/
theorem test_illformed_words :
    legalWord 0x00010000#32 = false ∧ legalWord 0x80001161#32 = false ∧ legalWord 0x00000200#32 = false ∧
    legalWord 0x00002001#32 = false ∧ legalWord 0x00005202#32 = false ∧ legalWord 0x00005280#32 = false := by decide

/-- The operand fields a format refuses (R101): `N` all but 0, `T` all but 0 and 1; `B` refuses none. -/
theorem test_illformed_operands :
    Format.n.admits 0x01#8 = false ∧ Format.n.admits 0x80#8 = false ∧ Format.t.admits 0x02#8 = false ∧
    Format.t.admits 0xFF#8 = false ∧ Format.t.admits 0x01#8 = true ∧ Format.b.admits 0xFF#8 = true := by decide

/-- A memory out of order, with a key twice, with a key past 255, or with a listed 0 is not canonical. -/
theorem test_illformed_memories :
    Memory.wf [(2, 1#32), (1, 1#32)] = false ∧ Memory.wf [(1, 1#32), (1, 2#32)] = false ∧
    Memory.wf [(256, 1#32)] = false ∧ Memory.countsWf [(1, 0#32)] = false ∧ Memory.countsWf [(1, 1#32), (2, 1#32)] = true := by
  decide

/-! ### One step on a small state -/

/-- The state after the host has written one command word. -/
def run (w : Nat) (s : State) : Option State :=
  match step (s.withFetchWord 32 w) with
  | .next t => some t
  | _ => none

/-- What a read of a register returns. -/
def read (a : Nat) (s : State) : Answer := regRead (BitVec.ofNat 15 a) s

/-- The fault record and the mode. -/
def record (s : State) : Mode × ErrCode × BitVec 4 × Word := (s.mode, s.errcode, s.errsub, s.errinfo)

/-- `a`:3, `b`:1 (V-BLD1). -/
def counted : State := { State.reset with freq := [(0x61, 3#32), (0x62, 1#32)] }

/-- The arena of V-BLD1. -/
def arena1 : List Node := [.leaf 0x61#8 3#32, .leaf 0x62#8 1#32, .internal 4#32 1#9 0#9]

/-- V-BLD1 after `BUILD`. -/
def built : State := { counted with nodes := arena1, root := 2#9, nent := 2#9, nsym := 4#32, treev := true }

/-- V-BLD1 after `GENTAB`: a="1", b="0". -/
def tabled : State := { built with table := [(0x61, [true]), (0x62, [false])], tabv := true }

/-- V-ENC1 after `ENCSTART` and `ENC 'a'`. -/
def encoding : State := { tabled with mode := .enc, acc := 1#8, nbits := 1#3, enccnt := 1#32 }

/-- V-DEC13 after `DECSTART`. -/
def decoding : State := { built with mode := .dec, rem := 4#32, cur := 2#9 }

/-- P2 while it waits for entries: one to go. -/
def parsing : State :=
  { State.reset with
    mode := .loadtab, pst := .esym, pcnt := 1#9, nent := 2#9, nsym := 4#32, ptmp := 0#24, table := [(0x61, [true])],
    psym := 0x61#8, plen := 1#8, pidx := 1#6, pbits := [true, false, false, false, false, false, false, false] }

/-- P2 before `RECON`: the table a="1", b="0" from a header. -/
def headered : State :=
  { State.reset with
    table := [(0x61, [true]), (0x62, [false])], tabv := true, nent := 2#9, nsym := 4#32 }

/-- A faulted state (V-CTL1). -/
def faultedState : State := { State.reset with mode := .fault, errcode := .sequence, errinfo := 0x2100#32 }

/-- V-CTL5: `NOP` changes nothing but the answers. -/
theorem test_nop : run 0x0000 encoding = some { encoding with answers := [.ok] } := by decide

/-- V-CTL4: in `FAULT` an illegal word and a command do nothing; `RESET` gives the reset state. -/
theorem test_fault_mode : run 0x0101 faultedState = some { faultedState with answers := [.ok] } ∧
    run 0x1101 faultedState = some { faultedState with answers := [.ok] } := by decide

theorem test_reset : run 0x0100 { faultedState with freq := [(1, 1#32)], nodes := arena1, outq := [1#8] } =
    some { State.reset with outq := [1#8], answers := [.ok] } := by decide

/-- V-FRQ3. -/
theorem test_clrf : run 0x1000 counted = some { State.reset with answers := [.ok] } := by decide

/-- P1: the second `a`. V-FRQ5: the largest count. -/
theorem test_count : (run 0x1161 counted).map (fun t => freqOf t 0x61#8) = some 4#32 ∧
    (run 0x1141 { State.reset with freq := [(0x41, 0xFFFFFFFE#32)] }).map (fun t => (freqOf t 0x41#8, t.mode)) =
      some (0xFFFFFFFF#32, .idle) := by decide

/-- V-FRQ4: fault `7.1 0x41`, and the count stays. -/
theorem test_count_overflow :
    (run 0x1141 { State.reset with freq := [(0x41, 0xFFFFFFFF#32)] }).map (fun t => (record t, freqOf t 0x41#8)) =
      some ((.fault, .overflow, 1#4, 0x41#32), 0xFFFFFFFF#32) := by decide

/-- V-BLD4, "abracadabra": arena, `ROOT`, `NENT`, `NSYM`. -/
theorem test_build :
    (run 0x2000 { State.reset with
        freq := [(0x61, 5#32), (0x62, 2#32), (0x63, 1#32), (0x64, 1#32), (0x72, 2#32)] }).map
      (fun t => (t.nodes, t.root, t.nent, t.nsym, t.treev, t.tabv)) =
    some ([.leaf 0x61#8 5#32, .leaf 0x62#8 2#32, .leaf 0x63#8 1#32, .leaf 0x64#8 1#32, .leaf 0x72#8 2#32,
      .internal 2#32 2#9 3#9, .internal 4#32 1#9 4#9, .internal 6#32 5#9 6#9, .internal 11#32 0#9 7#9],
      8#9, 5#9, 11#32, true, false) := by decide +kernel

/-- V-BLD11: fault `7.2 0`, nothing written. -/
theorem test_build_overflow :
    (run 0x2000 { State.reset with freq := [(0, 0xFFFFFFFF#32), (1, 1#32)] }).map
      (fun t => (record t, t.treev, t.nodes, t.root)) =
    some ((.fault, .overflow, 2#4, 0#32), false, [], 0x1FF#9) := by decide +kernel

/-- V-BLD1: a="1", b="0", `NENT` = 2, `STATUS` = 0x30. -/
theorem test_gentab : (run 0x2100 built).map (fun t => (t.table, t.nent, read 0x4 t)) =
    some ([(0x61, [true]), (0x62, [false])], 2#9, .value 0x30#32) := by decide

/-- V-CTL1. V-BLD2: an alphabet of one has the empty code. -/
theorem test_gentab_edges : (run 0x2100 State.reset).map record = some (.fault, .sequence, 0#4, 0x2100#32) ∧
    (run 0x2100 { State.reset with nodes := [.leaf 0x7A#8 4#32], root := 0#9, treev := true }).map
      (fun t => (t.table, read (0x0800 + 4 * 0x7A) t)) = some ([(0x7A, [])], .value 0x100#32) := by decide

/-- P2: the arena `RECON` makes of a="1", b="0". -/
theorem test_recon : (run 0x2200 headered).map (fun t => (t.nodes, t.root, read 0x4 t)) =
    some ([.internal 0#32 2#9 1#9, .leaf 0x61#8 0#32, .leaf 0x62#8 0#32], 0#9, .value 0x30#32) := by decide +kernel

/-- P6: a="0", b="01" is fault `3.3 0x62` after two nodes, `TREEV` = 0. -/
theorem test_recon_corrupt :
    (run 0x2200 { headered with table := [(0x61, [false]), (0x62, [false, true])] }).map
      (fun t => (record t, t.nodes, t.root, t.treev)) =
    some ((.fault, .structuralCorruption, 3#4, 0x62#32), [.internal 0#32 1#9 0x1FF#9, .leaf 0x61#8 0#32], 0#9, false) := by
  decide +kernel

/-- P1: the header. -/
theorem test_ser : (run 0x3000 tabled).map State.out =
    some [0x00#8, 0x02#8, 0x00#8, 0x00#8, 0x00#8, 0x04#8, 0x61#8, 0x01#8, 0x80#8, 0x62#8, 0x01#8, 0x00#8] := by
  decide +kernel

/-- P2: `STATUS` = 0x01; the table is emptied (R235). -/
theorem test_tabstart : (run 0x3100 tabled).map (fun t => (read 0x4 t, t.table, t.pst)) =
    some (.value 0x01#32, [], .h0) := by decide

/-- P2: `TABB 0x62` gives `PARSE` = 0x01620017. -/
theorem test_tabb_symbol : (run 0x3262 parsing).map (read 0x30) = some (.value 0x01620017#32) := by decide

/-- P2: the last byte completes the header: `PARSE` = 0x01620008, `STATUS` = 0x20, b="0". -/
theorem test_tabb_last :
    (run 0x3200 { parsing with psym := 0x62#8, pst := .ecode, plen := 1#8, pidx := 0#6, pbits := [] }).map
      (fun t => (read 0x30 t, read 0x4 t, codeOf t 0x62#8)) =
    some (.value 0x01620008#32, .value 0x20#32, some [false]) := by decide

/-- R240: `TABEND` reports the parser state. -/
theorem test_tabend : (run 0x3300 parsing).map record = some (.fault, .malformedTable, 3#4, 6#32) := by decide

/-- P1: `STATUS` = 0x32, `BITACC` = 0, `ENCCNT` = 0. -/
theorem test_encstart : (run 0x4000 { tabled with enccnt := 4#32 }).map (fun t => (read 0x4 t, read 0x2C t, read 0x20 t)) =
    some (.value 0x32#32, .value 0#32, .value 0#32) := by decide

/-- V-ENC1: the second `ENC 'a'` leaves `BITACC` = 0x203. V-ENC4: a 9-bit code onto 7 waiting bits emits ED FE. -/
theorem test_enc : (run 0x4161 encoding).map (fun t => (read 0x2C t, t.out, t.enccnt)) =
      some (.value 0x203#32, [], 2#32) ∧
    (run 0x4130 { State.reset with
        mode := .enc, tabv := true, acc := 0x76#8, nbits := 7#3, nsym := 143#32, enccnt := 2#32,
        table := [(0x30, [true, true, true, true, true, true, true, true, false])] }).map
      (fun t => (t.out, t.acc, t.nbits)) = some ([0xED#8, 0xFE#8], 0#8, 0#3) := by decide

/-- V-ENC6 and V-ENC8: the two faults, before any bit is written. -/
theorem test_enc_faults :
    (run 0x4163 encoding).map (fun t => (record t, t.acc, t.nbits)) =
      some ((.fault, .missingCode, 0#4, 0x63#32), 1#8, 1#3) ∧
    (run 0x4161 { encoding with nsym := 1#32 }).map record = some (.fault, .countMismatch, 1#4, 1#32) := by decide

/-- V-ENC2: 1110 and four zeros is E0. -/
theorem test_encend : (run 0x4200 { encoding with acc := 0x0E#8, nbits := 4#3, enccnt := 4#32 }).map
      (fun t => (t.out, read 0x2C t, read 0x4 t, t.enccnt)) =
    some ([0xE0#8], .value 0#32, .value 0x30#32, 4#32) := by decide

/-- V-ENC7: no flush. -/
theorem test_encend_short : (run 0x4200 { encoding with nsym := 3#32 }).map (fun t => (record t, t.out, read 0x2C t)) =
    some ((.fault, .countMismatch, 2#4, 1#32), [], .value 0x101#32) := by decide

/-- V-DEC8: a single leaf emits all `NSYM` copies. V-DEC10: fault `3.2 0`. -/
theorem test_decstart :
    (run 0x5000 { State.reset with nodes := [.leaf 0x7A#8 0#32], root := 0#9, treev := true, nsym := 4#32 }).map
      (fun t => (t.out, t.rem, t.cur, t.mode)) = some ([0x7A#8, 0x7A#8, 0x7A#8, 0x7A#8], 0#32, 0#9, .dec) ∧
    (run 0x5000 { State.reset with treev := true, tabv := true, nsym := 3#32 }).map
      (fun t => (record t, t.rem, t.cur, read 0x4 t)) =
      some ((.fault, .structuralCorruption, 2#4, 0#32), 0#32, 0x1FF#9, .value 0x37#32) := by decide

/-- V-DEC13: E0 is 1110, then ignored bits: 61 61 61 62. -/
theorem test_decb : (run 0x51E0 decoding).map (fun t => (t.out, t.rem, t.cur)) =
    some ([0x61#8, 0x61#8, 0x61#8, 0x62#8], 0#32, 2#9) := by decide

/-- P7 (V-DEC11): the first bit emits 61, the second has no child: fault `3.1 0x00010000`, `REM` = 1, `CUR` = 0. -/
theorem test_decb_missing_child :
    (run 0x5140 { State.reset with
        mode := .dec, treev := true, tabv := true, rem := 2#32, cur := 0#9, root := 0#9, nsym := 2#32,
        nodes := [.internal 0#32 1#9 0x1FF#9, .leaf 0x61#8 0#32] }).map
      (fun t => (record t, t.out, t.rem, t.cur)) =
    some ((.fault, .structuralCorruption, 1#4, 0x10000#32), [0x61#8], 1#32, 0#9) := by decide

/-- V-DEC7: bit 1 emits `a` and returns to the root. V-DEC3: with `REM` = 0 a bit is ignored. -/
theorem test_decbit : (run 0x5201 decoding).map (fun t => (t.out, t.rem, t.cur)) = some ([0x61#8], 3#32, 2#9) ∧
    run 0x5201 { decoding with rem := 0#32 } = some { decoding with rem := 0#32, answers := [.ok] } := by decide

/-- V-DEC13: `STATUS` = 0x10. V-DEC6: fault `5.0 0x00000007`. -/
theorem test_decend : (run 0x5300 { decoding with rem := 0#32 }).map (read 0x4) = some (.value 0x10#32) ∧
    (run 0x5300 { decoding with rem := 7#32 }).map record = some (.fault, .truncatedStream, 0#4, 7#32) := by decide

/-! ### The bus, the sink and reset -/

/-- V-BUS: registers and windows after `GENTAB` of V-BLD1. -/
theorem test_bus_reads :
    read 0x0018 tabled = .value 2#32 ∧ read 0x001C tabled = .value 3#32 ∧ read 0x0584 tabled = .value 3#32 ∧
    read 0x0984 tabled = .value 0x101#32 ∧ read 0x098C tabled = .value 0#32 ∧ read 0x2C20 tabled = .value 0x80000000#32 ∧
    read 0x4000 tabled = .value 0x61#32 ∧ read 0x4008 tabled = .value 0x1FF#32 ∧ read 0x4020 tabled = .value 0x80000000#32 ∧
    read 0x4028 tabled = .value 1#32 ∧ read 0x402C tabled = .value 0#32 ∧ read 0x4030 tabled = .value 0#32 := by decide

/-- V-BUS: `BusError`. -/
theorem test_bus_errors :
    [0x0002, 0x0034, 0x0C00, 0x5FF0, 0x7FFC].all (fun a => read a tabled = .busError) = true := by decide

/-- The state after one outside event. -/
def after (e : Event) (s : State) : Option State :=
  match step { s with pending := [e] } with
  | .next t => some t
  | _ => none

/-- V-BUS: `FREQ[0]` is written in `IDLE` and refused after `ENCSTART`; `STATUS` is read-only. -/
theorem test_bus_writes :
    after (.regWrite 0x0400#15 7#32) tabled =
      some { tabled with freq := [(0, 7#32), (0x61, 3#32), (0x62, 1#32)], answers := [.ok] } ∧
    after (.regWrite 0x0400#15 7#32) encoding = some { encoding with answers := [.busError] } ∧
    after (.regWrite 0x0004#15 1#32) tabled = some { tabled with answers := [.busError] } := by decide

/-- R75, R80: a full queue of depth 1; the second byte waits, and the write completes when the sink has made room. -/
theorem test_queue :
    (run 0x5300 { decoding with outqDepth := some 1, outq := [1#8], held := [2#8], rem := 0#32 }).map
      (fun t => (t.outq, t.held, t.taken, t.mode, t.answers)) = some ([2#8], [], [1#8], .idle, [.ok, .ok]) := by decide

/-- R291: the register space after reset. -/
theorem test_reset_registers :
    read 0x0004 State.reset = .value 0#32 ∧ read 0x0018 State.reset = .value 0x1FF#32 ∧
    read 0x0028 State.reset = .value 0x1FF#32 ∧ read 0x0030 State.reset = .value 0#32 ∧
    read 0x0584 State.reset = .value 0#32 ∧ read 0x4000 State.reset = .value 0#32 := by decide

/-! ### Witnesses: the hypotheses of each statement, met together -/

/-- The outcome is a next state, and it is `t`. -/
def isNext (r : Host.Outcome State Fault Refusal) (t : State) : Bool :=
  match r with
  | .next u => u == t
  | _ => false

theorem of_isNext {r : Host.Outcome State Fault Refusal} {t : State} (h : isNext r t = true) : r = .next t := by
  unfold isNext at h
  split at h
  · rw [eq_of_beq h]
  · cases h

/-- The state a run of commands ends in (the reset state where it does not). -/
def endOf (r : Host.Outcome State Fault Refusal) : State :=
  match r with
  | .next t => t
  | _ => State.reset

/-- `w` written to `CMD` next. -/
def writing (w : Word) (s : State) : State := { s with pending := [.regWrite 0#15 w] }

theorem witness_StepRunsTheDecodedCommand :
    ∃ (s : State) (w : Word) (i : Instr) (es : List Event), s.held = [] ∧ s.pending = .regWrite 0#15 w :: es ∧ decode w = .ok i :=
  ⟨writing 0x1161#32 State.reset, 0x1161#32, .count 0x61#8, [], by decide⟩

/-- Both ends of every range of `Illegal`, and each of its four clauses. -/
theorem witness_IllegalWordRaises_words :
    ∀ w ∈ [0x00010000#32, 0x80000000#32, 0x0200#32, 0x0F00#32, 0x1200#32, 0x1FFF#32, 0x2300#32, 0x2F00#32, 0x3400#32,
      0x3F00#32, 0x4300#32, 0x4F00#32, 0x5400#32, 0xFFFF#32, 0x2001#32, 0x00FF#32, 0x5202#32, 0x5280#32], Illegal w := by
  simp only [List.forall_mem_cons, List.not_mem_nil, false_implies, implies_true, and_true, Illegal]
  and_intros <;> decide

/-- Their neighbours are legal. -/
theorem witness_IllegalWordRaises_legal :
    ∀ w ∈ [0x0000#32, 0x0100#32, 0x1000#32, 0x11FF#32, 0x2000#32, 0x2200#32, 0x3000#32, 0x3300#32, 0x4000#32, 0x4200#32,
      0x5000#32, 0x5200#32, 0x5201#32, 0x5300#32], ¬ Illegal w := by
  simp only [List.forall_mem_cons, List.not_mem_nil, false_implies, implies_true, and_true, Illegal]
  and_intros <;> decide

theorem witness_IllegalWordRaises :
    ∃ (s : State) (w : Word) (es : List Event), s.held = [] ∧ s.pending = .regWrite 0#15 w :: es ∧ s.mode ≠ .fault ∧ Illegal w :=
  ⟨writing 0x5202#32 parsing, 0x5202#32, [], by unfold Illegal; decide⟩

theorem witness_FaultModeIgnoresAllButReset :
    ∀ w ∈ [0x0000#32, 0x00FF#32, 0x0101#32, 0x0100#32], ∃ (s : State) (es : List Event),
      s.held = [] ∧ s.pending = .regWrite 0#15 w :: es ∧ s.mode = .fault :=
  fun w _ => ⟨writing w faultedState, [], rfl, rfl, rfl⟩

/-- Every command with a `require` line in a state where it is false. -/
theorem witness_FailedRequireRaisesSequenceError :
    (∀ i ∈ [Instr.gentab, .recon, .ser, .encstart, .decstart, .tabb 0#8, .tabend, .enc 0#8, .encend, .decb 0#8,
      .decbit true, .decend], State.reset.mode ≠ .fault ∧ ¬ RequireHolds i State.reset) ∧
    ∀ i ∈ [Instr.clrf, .count 0#8, .build, .tabstart, .gentab, .recon, .ser, .encstart, .decstart],
      encoding.mode ≠ .fault ∧ ¬ RequireHolds i encoding := by
  constructor <;> simp [RequireHolds, State.reset, encoding]

/-- The clause of a completed command, of a fault, and of a fault inside `RECON`. -/
theorem witness_ModeMachine :
    (∃ t : State, ModeOk built ∧ built.mode ≠ .fault ∧ exec .gentab built = .next t ∧ RequireHolds .gentab built ∧ t.mode ≠ .fault) ∧
    (∃ t : State, ModeOk State.reset ∧ exec .gentab State.reset = .next t ∧ t.mode = .fault ∧ ¬ RequireHolds .gentab State.reset) ∧
    ∃ (s t : State), ModeOk s ∧ s.mode ≠ .fault ∧ exec .recon s = .next t ∧ RequireHolds .recon s ∧ t.mode = .fault := by
  refine ⟨⟨tabled, ?_, by decide, of_isNext (by decide +kernel), ?_, by decide⟩,
    ⟨endOf (exec .gentab State.reset), ?_, of_isNext (by decide +kernel), by decide +kernel, ?_⟩,
    ⟨{ headered with table := [(0x61, [false]), (0x62, [false, true])] },
      endOf (exec .recon { headered with table := [(0x61, [false]), (0x62, [false, true])] }),
      ?_, by decide, of_isNext (by decide +kernel), ?_, by decide +kernel⟩⟩
  all_goals first | (unfold ModeOk; decide) | simp [RequireHolds, built, counted, State.reset, headered]

theorem witness_ClrfClearsTheCounts : counted.mode = .idle ∧ (encoding.mode ≠ .idle ∧ encoding.mode ≠ .fault) := by decide

/-- Counts 0, the last that can be counted, the largest; and a wrong mode. -/
theorem witness_CountIncrements :
    (State.reset.mode = .idle ∧ freqOf State.reset 0#8 ≠ 0xFFFFFFFF#32) ∧
    (∃ s : State, s.mode = .idle ∧ freqOf s 0xFF#8 = 0xFFFFFFFE#32) ∧
    (∃ s : State, s.mode = .idle ∧ freqOf s 0xFF#8 = 0xFFFFFFFF#32) ∧
    (encoding.mode ≠ .idle ∧ encoding.mode ≠ .fault) :=
  ⟨by decide, ⟨{ State.reset with freq := [(0xFF, 0xFFFFFFFE#32)] }, by decide⟩,
    ⟨{ State.reset with freq := [(0xFF, 0xFFFFFFFF#32)] }, by decide⟩, by decide⟩

theorem witness_CountsAddUp :
    State.reset.mode = .idle ∧ (∀ x, freqOf State.reset x = 0#32) ∧ [0x61#8, 0x61#8].length < 2 ^ 32 ∧
    ∃ t, execAll ([0x61#8, 0x61#8].map .count) State.reset = .next t ∧ t.mode ≠ .fault :=
  ⟨rfl, fun _ => rfl, by decide, { State.reset with freq := [(0x61, 2#32)] }, of_isNext (by decide +kernel), by decide⟩

/-- The largest sum that builds and the smallest that does not (V-BLD10, V-BLD11). -/
theorem witness_BuildNumbersTheNodes :
    (∃ s : State, s.mode = .idle ∧ (allSyms.map (fun x => (freqOf s x).toNat)).sum = 0xFFFFFFFF) ∧
    ∃ s : State, s.mode = .idle ∧ (allSyms.map (fun x => (freqOf s x).toNat)).sum = 0xFFFFFFFF + 1 :=
  ⟨⟨{ State.reset with freq := [(0, 0xFFFFFFFE#32), (1, 1#32)] }, by decide +kernel⟩,
    ⟨{ State.reset with freq := [(0, 0xFFFFFFFF#32), (1, 1#32)] }, by decide +kernel⟩⟩

theorem witness_BuildMergesTheTwoLightest :
    ∃ (t : State) (m : Nat), counted.mode = .idle ∧ (allSyms.map (fun x => (freqOf counted x).toNat)).sum ≤ 0xFFFFFFFF ∧
      exec .build counted = .next t ∧ (alphabet counted).length ≤ m ∧ m < t.nodes.length :=
  ⟨built, 2, by decide, by decide +kernel, of_isNext (by decide +kernel), by decide +kernel, by decide⟩

theorem witness_BuildTreeIsStrict :
    ∃ t : State, counted.mode = .idle ∧ exec .build counted = .next t ∧ t.mode ≠ .fault ∧ t.root ≠ 0x1FF#9 ∧
      isInternal t.nodes (BitVec.ofNat 9 2) = true :=
  ⟨built, by decide, of_isNext (by decide +kernel), by decide⟩

theorem treeOk_built : TreeOk built := by
  refine ⟨⟨by decide, by decide, .inl (by decide)⟩, by decide, by decide⟩

theorem witness_GentabRecordsThePaths :
    TreeOk built ∧ built.mode = .idle ∧ built.treev = true ∧ codeOf tabled 0x61#8 = some [true] ∧
      follow built.nodes built.root [true] = some (.leaf 0x61#8 3#32) :=
  ⟨treeOk_built, by decide⟩

theorem witness_GentabAfterBuildCoversTheAlphabet :
    ∃ t : State, counted.mode = .idle ∧ exec .build counted = .next t ∧ t.mode ≠ .fault ∧ 2 ≤ (alphabet counted).length :=
  ⟨built, by decide, of_isNext (by decide +kernel), by decide, by decide +kernel⟩

/-- V-BLD6's table from V-BLD6's counts: `b` (weight 2) has a shorter code than `c` (weight 1). -/
theorem witness_HeavierSymbolsGetNoLongerCodes :
    ∃ (s t u : State), s.mode = .idle ∧ exec .build s = .next t ∧ t.mode ≠ .fault ∧ exec .gentab t = .next u ∧
      codeOf u 0x62#8 = some [false] ∧ codeOf u 0x63#8 = some [true, false] ∧
      (freqOf s 0x63#8).toNat < (freqOf s 0x62#8).toNat :=
  ⟨{ State.reset with freq := [(0x61, 2#32), (0x62, 2#32), (0x63, 1#32)] },
    endOf (exec .build { State.reset with freq := [(0x61, 2#32), (0x62, 2#32), (0x63, 1#32)] }),
    endOf (exec .gentab (endOf (exec .build { State.reset with freq := [(0x61, 2#32), (0x62, 2#32), (0x63, 1#32)] }))),
    by decide, of_isNext (by decide +kernel), by decide +kernel, of_isNext (by decide +kernel), by decide +kernel,
    by decide +kernel, by decide⟩

theorem witness_SerEmitsTheHeader : (tabled.mode = .idle ∧ tabled.tabv = true) ∧
    (built.mode ≠ .fault ∧ ¬ (built.mode = .idle ∧ built.tabv = true)) := by decide

theorem witness_TabstartOpensTheHeader : tabled.mode = .idle ∧ (parsing.mode ≠ .idle ∧ parsing.mode ≠ .fault) := by decide

/-- The parser in state `p`. -/
def parserIn (p : ParserState) : State := { parsing with pst := p, psym := 0x62#8, pbits := [] }

/-- Every clause of `TABB`; `NENT` 256 and 257, the last entry and one before it, and the last and an earlier code byte
stand on the two sides of their conditions. -/
theorem witness_TabbParsesOneByte :
    (State.reset.mode ≠ .loadtab ∧ State.reset.mode ≠ .fault) ∧
    (∀ p ∈ [ParserState.h0, .h1, .n0, .n1, .n2, .n3, .esym, .elen, .ecode],
      (parserIn p).mode = .loadtab ∧ (parserIn p).pst = p) ∧
    (0x01#24).toNat * 256 + (0x00#8).toNat = 256 ∧ (0x01#24).toNat * 256 + (0x01#8).toNat = 257 ∧
    (parserIn .n3).nent ≠ 0#9 ∧ ({ parserIn .n3 with nent := 0#9 }).nent = 0#9 ∧
    codeOf (parserIn .esym) 0x62#8 = none ∧ codeOf (parserIn .esym) 0x61#8 ≠ none ∧
    (parserIn .elen).pcnt = 1#9 ∧ ({ parserIn .elen with pcnt := 2#9 }).pcnt ≠ 1#9 ∧
    (({ parserIn .ecode with plen := 9#8, pidx := 0#6 }).pidx + 1#6).toNat ≠ ((9#8).toNat + 7) / 8 ∧
    (({ parserIn .ecode with plen := 8#8, pidx := 0#6 }).pidx + 1#6).toNat = ((8#8).toNat + 7) / 8 := by decide

theorem witness_TabendReportsTruncation : parsing.mode = .loadtab ∧ (tabled.mode ≠ .loadtab ∧ tabled.mode ≠ .fault) := by
  decide

theorem witness_HeaderRoundTripsTheTable :
    ∃ (a' : State) (header : List Byte), tabled.mode = .idle ∧ tabled.tabv = true ∧ Memory.wf tabled.table = true ∧
      (∀ x c, codeOf tabled x = some c → c.length ≤ 255) ∧ tabled.nent.toNat = tabled.table.length ∧
      exec .ser tabled = .next a' ∧ a'.out = tabled.out ++ header ∧ State.reset.mode = .idle := by
  refine ⟨endOf (exec .ser tabled), (endOf (exec .ser tabled)).out, by decide, by decide, by decide, ?_, by decide,
    of_isNext (by decide +kernel), rfl, rfl⟩
  intro x c h
  have hm : c ∈ [[true], [false]] := by
    simp only [codeOf, tabled, Memory.find] at h
    split at h
    · cases h; simp
    · split at h
      · cases h; simp
      · cases h
  simp only [List.mem_cons, List.not_mem_nil, or_false] at hm
  rcases hm with rfl | rfl <;> decide

/-- A prefix-free table, and P6's, which is not. -/
theorem witness_ReconRebuildsTheTree :
    (headered.mode = .idle ∧ headered.tabv = true ∧ PrefixFree headered ∧ trieSize headered ≤ 511) ∧
    ∃ s : State, s.mode = .idle ∧ s.tabv = true ∧ trieSize s ≤ 511 ∧ ¬ (PrefixFree s ∧ trieSize s ≤ 511) := by
  have h1 : codesInOrder headered = [[true], [false]] := by decide +kernel
  have h2 : codesInOrder { headered with table := [(0x61, [false]), (0x62, [false, true])] } = [[false], [false, true]] := by
    decide +kernel
  refine ⟨⟨by decide, by decide, ?_, ?_⟩,
    ⟨{ headered with table := [(0x61, [false]), (0x62, [false, true])] }, ?_, ?_, ?_, ?_⟩⟩
  · rw [PrefixFree, h1]; decide
  · rw [trieSize, h1]; decide
  · decide
  · decide
  · rw [trieSize, h2]; decide
  · rw [PrefixFree, h2]; decide

theorem witness_GentabInvertsRecon :
    ∃ t, headered.mode = .idle ∧ headered.tabv = true ∧ Memory.wf headered.table = true ∧
      headered.nent.toNat = headered.table.length ∧ exec .recon headered = .next t ∧ t.mode ≠ .fault :=
  ⟨{ headered with
      nodes := [.internal 0#32 2#9 1#9, .leaf 0x61#8 0#32, .leaf 0x62#8 0#32], root := 0#9, treev := true },
    by decide, by decide, by decide, by decide, of_isNext (by decide +kernel), by decide⟩

theorem witness_EncstartOpensTheStream : (tabled.mode = .idle ∧ tabled.tabv = true) ∧
    (built.mode ≠ .fault ∧ ¬ (built.mode = .idle ∧ built.tabv = true)) := by decide

/-- The four clauses: written, no code, count used up, wrong mode. -/
theorem witness_EncWritesTheCode :
    (encoding.mode = .enc ∧ codeOf encoding 0x61#8 = some [true] ∧ encoding.enccnt ≠ encoding.nsym) ∧
    codeOf encoding 0x63#8 = none ∧
    (∃ s : State, s.mode = .enc ∧ codeOf s 0x61#8 ≠ none ∧ s.enccnt = s.nsym) ∧ (tabled.mode ≠ .enc ∧ tabled.mode ≠ .fault) :=
  ⟨by decide, by decide, ⟨{ encoding with nsym := 1#32 }, by decide⟩, by decide⟩

theorem witness_EncendFlushesTheBits :
    (∃ s : State, s.mode = .enc ∧ s.enccnt = s.nsym) ∧ (encoding.mode = .enc ∧ encoding.enccnt ≠ encoding.nsym) ∧
    (tabled.mode ≠ .enc ∧ tabled.mode ≠ .fault) :=
  ⟨⟨{ encoding with nsym := 1#32 }, by decide⟩, by decide, by decide⟩

theorem witness_EncodingSessionEmitsThePackedCodes :
    tabled.mode = .idle ∧ tabled.tabv = true ∧
    (∀ x ∈ [0x61#8, 0x61#8, 0x61#8, 0x62#8], codeOf tabled x ≠ none) ∧
    [0x61#8, 0x61#8, 0x61#8, 0x62#8].length = tabled.nsym.toNat ∧
    ∃ t, execAll (.encstart :: ([0x61#8, 0x61#8, 0x61#8, 0x62#8].map .enc ++ [.encend])) tabled = .next t ∧
      t.mode ≠ .fault :=
  ⟨by decide, by decide, by decide, by decide,
    endOf (execAll (.encstart :: ([0x61#8, 0x61#8, 0x61#8, 0x62#8].map .enc ++ [.encend])) tabled),
    of_isNext (by decide +kernel), by decide +kernel⟩

/-- The clauses of `DECSTART`: refused, `NSYM` = 0, no tree, an internal root, a leaf root. -/
theorem witness_DecstartOpensTheStream :
    (State.reset.mode ≠ .fault ∧ ¬ (State.reset.mode = .idle ∧ State.reset.treev = true)) ∧
    (∃ s : State, s.mode = .idle ∧ s.treev = true ∧ s.nsym = 0#32) ∧
    (∃ s : State, s.mode = .idle ∧ s.treev = true ∧ s.nsym ≠ 0#32 ∧ s.root = 0x1FF#9) ∧
    (built.mode = .idle ∧ built.treev = true ∧ built.nsym ≠ 0#32 ∧ built.root ≠ 0x1FF#9 ∧
      nodeAt built.nodes built.root = some (.internal 4#32 1#9 0#9)) ∧
    ∃ s : State, s.mode = .idle ∧ s.treev = true ∧ s.nsym ≠ 0#32 ∧ s.root ≠ 0x1FF#9 ∧
      nodeAt s.nodes s.root = some (.leaf 0x7A#8 4#32) :=
  ⟨by decide, ⟨{ State.reset with treev := true }, by decide⟩, ⟨{ State.reset with treev := true, nsym := 1#32 }, by decide⟩,
    by decide, ⟨{ State.reset with treev := true, nsym := 4#32, root := 0#9, nodes := [.leaf 0x7A#8 4#32] }, by decide⟩⟩

/-- The clauses of `DECBIT` (and the two of `DECB`): wrong mode, `REM` = 0, leaf child, absent child, inner child. -/
theorem witness_DecbitAndDecbDecodeBits :
    (built.mode ≠ .dec ∧ built.mode ≠ .fault) ∧ (∃ s : State, s.mode = .dec ∧ s.rem = 0#32) ∧
    (decoding.mode = .dec ∧ decoding.rem ≠ 0#32 ∧ nodeAt decoding.nodes decoding.cur = some (.internal 4#32 1#9 0#9) ∧
      (1#9 : Handle) ≠ 0x1FF#9 ∧ nodeAt decoding.nodes 1#9 = some (.leaf 0x62#8 1#32)) ∧
    (∃ s : State, s.mode = .dec ∧ s.rem ≠ 0#32 ∧ nodeAt s.nodes s.cur = some (.internal 0#32 1#9 0x1FF#9)) ∧
    ∃ s : State, s.mode = .dec ∧ s.rem ≠ 0#32 ∧ nodeAt s.nodes s.cur = some (.internal 0#32 1#9 0x1FF#9) ∧
      nodeAt s.nodes 1#9 = some (.internal 0#32 2#9 0x1FF#9) :=
  ⟨by decide, ⟨{ decoding with rem := 0#32 }, by decide⟩, by decide,
    ⟨{ decoding with cur := 0#9, nodes := [.internal 0#32 1#9 0x1FF#9, .leaf 0x61#8 0#32] }, by decide⟩,
    ⟨{ decoding with
      cur := 0#9, nodes := [.internal 0#32 1#9 0x1FF#9, .internal 0#32 2#9 0x1FF#9, .leaf 0x61#8 0#32] }, by decide⟩⟩

theorem witness_DecbCompletesOnAStrictTree : TreeOk decoding ∧ decoding.mode = .dec ∧ StrictArena decoding.nodes :=
  ⟨⟨⟨by decide, by decide, .inl (by decide)⟩, by decide, by decide⟩, by decide, by unfold StrictArena; decide⟩

theorem witness_DecendClosesTheStream :
    (∃ s : State, s.mode = .dec ∧ s.rem = 0#32) ∧ (decoding.mode = .dec ∧ decoding.rem ≠ 0#32) ∧
    (built.mode ≠ .dec ∧ built.mode ≠ .fault) :=
  ⟨⟨{ decoding with rem := 0#32 }, by decide⟩, by decide, by decide⟩

/-- V-DEC13's tree, and a single leaf, whose path is empty. -/
theorem witness_DecodingSessionEmitsTheSymbols :
    (∃ (xs : List Byte) (path : Byte → BitSeq), built.mode = .idle ∧ built.treev = true ∧ xs.length = built.nsym.toNat ∧
      ∀ x ∈ xs, ∃ w, follow built.nodes built.root (path x) = some (.leaf x w)) ∧
    ∃ (s : State) (xs : List Byte) (path : Byte → BitSeq), s.mode = .idle ∧ s.treev = true ∧ xs.length = s.nsym.toNat ∧
      xs ≠ [] ∧ ∀ x ∈ xs, ∃ w, follow s.nodes s.root (path x) = some (.leaf x w) := by
  refine ⟨⟨[0x61#8, 0x61#8, 0x61#8, 0x61#8], fun _ => [true], by decide, by decide, by decide, ?_⟩,
    ⟨{ State.reset with treev := true, nsym := 1#32, root := 0#9, nodes := [.leaf 0x7A#8 1#32] }, [0x7A#8], fun _ => [],
      by decide, by decide, by decide, by decide, ?_⟩⟩
  · intro x hx
    have : x = 0x61#8 := by simpa using hx
    subst this
    exact ⟨3#32, by decide⟩
  · intro x hx
    have : x = 0x7A#8 := by simpa using hx
    subst this
    exact ⟨1#32, by decide⟩

theorem witness_DecompressInvertsCompress : [0x61#8, 0x61#8, 0x61#8, 0x62#8].length < 2 ^ 32 ∧ ([] : List Byte).length < 2 ^ 32 := by
  decide

theorem witness_ControlRegistersRead : tabled.held = [] ∧ tabled.nodes.length ≤ 511 := by decide

/-- The first and the last word of the window, in both modes. -/
theorem witness_FreqWindowReadsAndWrites :
    (0x0400#15 = BitVec.ofNat 15 (0x0400 + 4 * (0x00#8).toNat) ∧ 0x07FC#15 = BitVec.ofNat 15 (0x0400 + 4 * (0xFF#8).toNat)) ∧
    (encoding.mode ≠ .idle ∧ encoding.held = []) ∧ (counted.mode = .idle ∧ counted.held = []) := by decide

/-- A symbol without and one with a code, the longest code, and the windows' first and last words. -/
theorem witness_CodeWindowsRead :
    (codeOf tabled 0x63#8 = none ∧ codeOf tabled 0x61#8 = some [true] ∧ tabled.held = []) ∧
    (∃ (s : State) (c : BitSeq), codeOf s 0xFF#8 = some c ∧ c.length = 255 ∧ s.held = []) ∧
    (0x0800 + 4 * (0xFF#8).toNat = 0x0BFC ∧ 0x2000 + 32 * (0xFF#8).toNat + 4 * 7 = 0x3FFC) :=
  ⟨by decide, ⟨{ State.reset with table := [(0xFF, List.replicate 255 true)] }, List.replicate 255 true, by decide +kernel, by decide +kernel,
    by decide⟩, by decide⟩

/-- A leaf, an inner node, the first handle past the arena and the last of the window. -/
theorem witness_NodeWindowReads :
    built.held = [] ∧ built.nodes[0]? = some (.leaf 0x61#8 3#32) ∧ built.nodes[2]? = some (.internal 4#32 1#9 0#9) ∧
    (3 ≤ 510 ∧ built.nodes.length ≤ 3) ∧ (510 ≤ 510 ∧ built.nodes.length ≤ 510) := by decide

/-- Both ends of every reserved range, and their neighbours. -/
theorem witness_BadAccessesAreRefused :
    (∀ a ∈ [0x0002#15, 0x0034#15, 0x03FC#15, 0x0C00#15, 0x1FFC#15, 0x5FF0#15, 0x7FFF#15], NoLocation a) ∧
    (∀ a ∈ [0x0000#15, 0x0030#15, 0x0400#15, 0x0BFC#15, 0x2000#15, 0x5FEC#15], ¬ NoLocation a) ∧
    (∀ a ∈ [0x0004#15, 0x03FC#15, 0x0800#15], a ≠ 0#15 ∧ ¬ (0x0400 ≤ a.toNat ∧ a.toNat < 0x0800)) ∧ tabled.held = [] := by
  simp only [List.forall_mem_cons, List.not_mem_nil, false_implies, implies_true, and_true, NoLocation]
  and_intros <;> decide

/-- The sink ready: an empty queue, a byte with none waiting, a byte with the last one waiting. -/
theorem witness_SinkTakesTheHead :
    (∃ s : State, s.pending = [.sinkReady] ∧ s.outq = []) ∧
    (∃ s : State, s.pending = [.sinkReady] ∧ s.outq = [1#8] ∧ s.held = []) ∧
    ∃ s : State, s.pending = [.sinkReady] ∧ s.outq = [1#8] ∧ s.held = [2#8] :=
  ⟨⟨{ State.reset with pending := [.sinkReady] }, by decide⟩, ⟨{ State.reset with pending := [.sinkReady], outq := [1#8] }, by decide⟩,
    ⟨{ State.reset with pending := [.sinkReady], outq := [1#8], held := [2#8] }, by decide⟩⟩

/-- A core that waits, with and without an event of the sink behind a host access. -/
theorem witness_WaitingCoreAcceptsNoHostAccess :
    (∃ (s : State) (hosts : List Event), s.held ≠ [] ∧ (∀ e ∈ hosts, e.isHost = true) ∧ hosts ≠ [] ∧ s.pending = hosts) ∧
    ∃ (s : State) (hosts rest : List Event) (e : Event), s.held ≠ [] ∧ (∀ e ∈ hosts, e.isHost = true) ∧ hosts ≠ [] ∧
      e.isHost = false ∧ s.pending = hosts ++ e :: rest :=
  ⟨⟨{ State.reset with outq := [1#8], held := [2#8], pending := [.regRead 4#15] }, [.regRead 4#15], by decide⟩,
    ⟨{ State.reset with outq := [1#8], held := [2#8], pending := [.regRead 4#15, .sinkReady] }, [.regRead 4#15], [],
      .sinkReady, by decide⟩⟩

/-- Two states of one block, one with all its output taken, one with it queued. -/
theorem witness_OutDoesNotDependOnTheQueue :
    ∃ (b a' : State), SameButQueue { tabled with taken := [7#8] } b ∧ b ≠ { tabled with taken := [7#8] } ∧
      exec .encstart { tabled with taken := [7#8] } = .next a' :=
  ⟨{ tabled with outq := [7#8], outqDepth := some 1 }, endOf (exec .encstart { tabled with taken := [7#8] }),
    ⟨rfl, rfl⟩, by decide, of_isNext (by decide +kernel)⟩

theorem witness_OutIsAppendOnly : ∃ t, step (writing 0x3000#32 tabled) = .next t :=
  ⟨endOf (step (writing 0x3000#32 tabled)), of_isNext (by decide +kernel)⟩

/-- A step that is no reset, in `ENC` and in `DEC`. -/
theorem witness_StreamsRunOnFixedTables :
    ∀ s ∈ [writing 0x4161#32 encoding, writing 0x5201#32 decoding], (∃ t, step s = .next t) ∧
      (∀ rest, nextEvent s ≠ some (.rst, rest) ∧ nextEvent s ≠ some (.regWrite 0#15 0x00000100#32, rest)) ∧
      (s.mode = .enc ∨ s.mode = .dec) := by
  intro s hs
  simp only [List.mem_cons, List.not_mem_nil, or_false] at hs
  rcases hs with rfl | rfl
  · refine ⟨⟨endOf (step (writing 0x4161#32 encoding)), of_isNext (by decide +kernel)⟩, ?_, by decide⟩
    have h : nextEvent (writing 0x4161#32 encoding) = some (.regWrite 0#15 0x4161#32, []) := by decide
    intro rest
    rw [h]
    constructor <;> simp
  · refine ⟨⟨endOf (step (writing 0x5201#32 decoding)), of_isNext (by decide +kernel)⟩, ?_, by decide⟩
    have h : nextEvent (writing 0x5201#32 decoding) = some (.regWrite 0#15 0x5201#32, []) := by decide
    intro rest
    rw [h]
    constructor <;> simp

theorem witness_FaultIsLeftOnlyByReset : ∃ t, faultedState.mode = .fault ∧ step (writing 0x1101#32 faultedState) = .next t :=
  ⟨endOf (step (writing 0x1101#32 faultedState)), by decide, of_isNext (by decide +kernel)⟩

theorem witness_FaultsAreClean :
    ∃ t, encoding.mode ≠ .fault ∧ exec (.enc 0x63#8) encoding = .next t ∧ t.mode = .fault ∧
      (∀ b, Instr.enc 0x63#8 ≠ .decb b) ∧ Instr.enc 0x63#8 ≠ .recon :=
  ⟨endOf (exec (.enc 0x63#8) encoding), by decide, of_isNext (by decide +kernel), by decide +kernel, by simp, by decide⟩

theorem witness_RaisedFaultsFollowTheCodeTable :
    ∃ t, parsing.mode ≠ .fault ∧ exec .tabend parsing = .next t ∧ t.mode = .fault :=
  ⟨endOf (exec .tabend parsing), by decide, of_isNext (by decide +kernel), by decide +kernel⟩

/-- `rst` while nothing waits, and while a command waits. -/
theorem witness_RstPinResets :
    (∃ s : State, s.pending = [.rst] ∧ s.held = []) ∧ ∃ s : State, s.pending = [.rst] ∧ s.held ≠ [] :=
  ⟨⟨{ encoding with pending := [.rst] }, by decide⟩, ⟨{ encoding with pending := [.rst], outq := [1#8], held := [2#8] }, by decide⟩⟩

/-- The first and the last control register that reads 0, and the ends of the windows. -/
theorem witness_ResetValues :
    State.reset.held = [] ∧
    (∀ a ∈ [0x0000#15, 0x0014#15, 0x001C#15, 0x0030#15],
      a.toNat % 4 = 0 ∧ a.toNat < 0x0034 ∧ a ≠ 0x0018#15 ∧ a ≠ 0x0028#15) ∧
    ∀ a ∈ [0x0400#15, 0x0BFC#15, 0x2000#15, 0x5FEC#15], ¬ NoLocation a ∧ 0x0400 ≤ a.toNat := by
  simp only [List.forall_mem_cons, List.not_mem_nil, false_implies, implies_true, and_true, NoLocation]
  and_intros <;> decide

/-- A state that meets every invariant, other than the reset state, from which a step with an effect is taken. -/
theorem witness_StepKeeps :
    ∃ (s t : State), StoresOk s ∧ FaultRecordOk s ∧ ModeOk s ∧ WriterOk s ∧ QueueOk s ∧ ParserOk s ∧ TreeOk s ∧
      s.treev = true ∧ s.freq ≠ [] ∧ step s = .next t ∧ t ≠ s := by
  refine ⟨writing 0x4161#32 encoding, endOf (step (writing 0x4161#32 encoding)), ?_, ?_, ?_, ?_, ?_, ?_,
    ⟨⟨by decide, by decide, .inl (by decide)⟩, by decide, by decide⟩, by decide, by decide, of_isNext (by decide +kernel),
    by decide +kernel⟩
  · unfold StoresOk; decide
  · unfold FaultRecordOk; decide
  · unfold ModeOk; decide
  · unfold WriterOk; decide
  · rfl
  · unfold ParserOk; decide

/-- `LengthsOk` of a state with codes and a step. -/
theorem witness_StepKeepsCodeLengths :
    ∃ (s t : State), LengthsOk s ∧ s.table ≠ [] ∧ step s = .next t := by
  refine ⟨writing 0x4000#32 headered, endOf (step (writing 0x4000#32 headered)), ⟨?_, ?_⟩, by decide,
    of_isNext (by decide +kernel)⟩
  · intro x c h
    simp only [codeOf, writing, headered, Memory.find] at h
    split at h
    · cases h; decide
    · split at h
      · cases h; decide
      · cases h
  · intro h
    cases h

theorem witness_NoStepStops : TreeOk (writing 0x5201#32 decoding) :=
  ⟨⟨by decide, by decide, .inl (by decide)⟩, by decide, by decide⟩

end Sys2Proof.Tests
end

section
/-! SUPPORT. The states a pseudocode can leave, the reads of child fields after a write of the arena, and the bound on paths
that a falling measure of the nodes gives. -/

namespace Sys2Proof.Machine

/-! ### The states a pseudocode can leave -/

/-- Every state a pseudocode leaves, at its end or at a `raise`, satisfies `P`. -/
inductive Flow.Leaves (P : State → Prop) : Flow → Prop
  | go {s : State} (h : P s) : Leaves P (.go s)
  | raised {s : State} (h : P s) : Leaves P (.raised s)
  | stuck (f : Fault) : Leaves P (.stuck f)

@[simp] theorem leaves_go {P : State → Prop} {s : State} : (Flow.go s).Leaves P ↔ P s :=
  ⟨fun h => by cases h; assumption, .go⟩

@[simp] theorem leaves_raised {P : State → Prop} {s : State} : (Flow.raised s).Leaves P ↔ P s :=
  ⟨fun h => by cases h; assumption, .raised⟩

/-- What one line may leave and the lines after it keep, the whole leaves. -/
theorem leaves_bind {P Q : State → Prop} {r : Flow} {k : State → Flow} (hr : r.Leaves P)
    (hk : ∀ s, P s → (k s).Leaves Q) (hPQ : ∀ s, P s → Q s) : (r.bind k).Leaves Q := by
  cases r with
  | go s => exact hk s (leaves_go.mp hr)
  | raised s => exact .raised (hPQ s (leaves_raised.mp hr))
  | stuck f => exact .stuck f

/-- An invariant that every accepted pseudocode and both ways of raising keep, and that holds after a reset, is kept by
every command. -/
theorem exec_keeps {P : State → Prop}
    (hReset : ∀ s, P (resetBlock s))
    (hRaised : ∀ s c sub info, P s → P (s.raised c sub info))
    (hBody : ∀ i s, accepts i s = true → P s → (bodyOf i s).Leaves P)
    {i : Instr} {s t : State} (hs : P s) (h : exec i s = .next t) : P t := by
  rcases exec_cases h with ⟨-, rfl⟩ | ⟨-, -, rfl⟩ | ⟨-, -, -, rfl⟩ | ⟨-, -, ha, hb | hb⟩
  · exact hReset s
  · exact hs
  · exact hRaised s _ _ _ hs
  · exact leaves_go.mp (hb ▸ hBody i s ha hs)
  · exact leaves_raised.mp (hb ▸ hBody i s ha hs)

/-! ### Child fields -/

@[simp] theorem child_leaf (x : Byte) (w : Word) (t : Bool) : (Node.leaf x w).child t = Config.nil := by
  cases t <;> rfl

@[simp] theorem child_internal (w : Word) (l r : Handle) (t : Bool) :
    (Node.internal w l r).child t = if t then r else l := rfl

/-- A slot write changes at most the child it writes (R245). -/
theorem child_setChild (n : Node) (t u : Bool) (h : Handle) :
    (n.setChild t h).child u = h ∨ (n.setChild t h).child u = n.child u := by
  cases n with
  | leaf x w => exact .inr rfl
  | internal w l r => cases t <;> cases u <;> simp [Node.setChild]

theorem childAt_of_nodeAt {nodes : List Node} {h : Handle} {n : Node} (e : nodeAt nodes h = some n) (t : Bool) :
    childAt nodes h.toNat t = n.child t := by
  unfold nodeAt at e
  simp [childAt, e]

/-- Past the allocated nodes there is no child (R32). -/
theorem lt_of_childAt_ne_nil {nodes : List Node} {i : Nat} {t : Bool} (h : childAt nodes i t ≠ Config.nil) :
    i < nodes.length := by
  by_contra hi
  exact h (by simp [childAt, List.getElem?_eq_none (Nat.le_of_not_lt hi)])

/-- The children after an allocation (R33). -/
theorem childAt_append (nodes : List Node) (n : Node) (i : Nat) (t : Bool) :
    childAt (nodes ++ [n]) i t = if i = nodes.length then n.child t else childAt nodes i t := by
  rcases Nat.lt_trichotomy i nodes.length with hi | rfl | hi
  · simp [childAt, List.getElem?_append_left hi, Nat.ne_of_lt hi]
  · simp [childAt]
  · simp [childAt, List.getElem?_eq_none, Nat.ne_of_gt hi, Nat.le_of_lt hi, Nat.succ_le_of_lt hi]

/-- The children after a slot write: only a child of the written node can be new, and it is the handle written (R245). -/
theorem childAt_modify (nodes : List Node) (p : Nat) (t : Bool) (h : Handle) (i : Nat) (u : Bool) :
    (i = p ∧ childAt (nodes.modify p (fun n => n.setChild t h)) i u = h) ∨
      childAt (nodes.modify p (fun n => n.setChild t h)) i u = childAt nodes i u := by
  unfold childAt
  rw [List.getElem?_modify]
  cases nodes[i]? with
  | none => exact .inr rfl
  | some n =>
    by_cases hp : p = i
    · simpa [hp] using child_setChild n t u h
    · exact .inr (by simp [hp])

/-! ### Lengths of paths -/

@[simp] theorem descend_of_nil (nodes : List Node) (p : BitSeq) : descend nodes Config.nil p = none := by
  cases p <;> simp [descend]

/-- The first step of a path goes to a child (R31). -/
theorem descend_cons {nodes : List Node} {h g : Handle} {b : Bool} {p : BitSeq} (e : descend nodes h (b :: p) = some g) :
    descend nodes (childAt nodes h.toNat b) p = some g := by
  unfold descend at e
  split at e
  · cases e
  · split at e
    · rename_i hn
      rwa [childAt_of_nodeAt hn]
    · cases e

/-- A measure that falls from every node to its children bounds the paths: none from `h` is longer than the measure of
`h`. -/
theorem length_le_of_descend {nodes : List Node} {room : Nat → Nat}
    (hroom : ∀ i t, childAt nodes i t ≠ Config.nil → room (childAt nodes i t).toNat < room i)
    {h g : Handle} {p : BitSeq} (e : descend nodes h p = some g) : p.length ≤ room h.toNat := by
  induction p generalizing h with
  | nil => exact Nat.zero_le _
  | cons b p ih =>
    have e' := descend_cons e
    have hne : childAt nodes h.toNat b ≠ Config.nil := by
      intro hn
      simp [hn] at e'
    calc (b :: p).length = p.length + 1 := rfl
      _ ≤ room (childAt nodes h.toNat b).toNat + 1 := Nat.succ_le_succ (ih e')
      _ ≤ room h.toNat := hroom _ _ hne

end Sys2Proof.Machine
end

section
/-! SUPPORT. `LengthsOk` (R6, R36, R182): what it depends on, and the commands that write neither codes nor tree. -/

namespace Sys2Proof.Machine

/-- The codes of the table are at most `LENMAX` bits (R36). -/
def CodesShort (s : State) : Prop := ∀ x c, codeOf s x = some c → c.length ≤ Config.lenMax

/-- No path from `root` is longer than `LENMAX` (R182). -/
def PathsShort (nodes : List Node) (root : Handle) : Prop :=
  ∀ p h, descend nodes root p = some h → p.length ≤ Config.lenMax

theorem lengthsOk_iff (s : State) :
    LengthsOk s ↔ CodesShort s ∧ (s.treev = true → PathsShort s.nodes s.root) := Iff.rfl

/-- The part of the state `LengthsOk` speaks of: the code table and the tree. -/
def State.codesAndTree (s : State) : Memory BitSeq × Bool × List Node × Handle := (s.table, s.treev, s.nodes, s.root)

theorem LengthsOk.congr {s t : State} (h : LengthsOk s) (e : t.codesAndTree = s.codesAndTree) : LengthsOk t := by
  simp only [State.codesAndTree, Prod.mk.injEq] at e
  obtain ⟨htable, htreev, hnodes, hroot⟩ := e
  simpa [LengthsOk, codeOf, htable, htreev, hnodes, hroot] using h

theorem CodesShort.congr {s t : State} (h : CodesShort s) (e : t.table = s.table) : CodesShort t := by
  simpa [CodesShort, codeOf, e] using h

theorem codesShort_of_empty {s : State} (h : s.table = []) : CodesShort s := by
  simp [CodesShort, codeOf, h]

theorem codesShort_setCode {s : State} {x : Byte} {c : BitSeq} (h : CodesShort s) (hc : c.length ≤ Config.lenMax) :
    CodesShort (setCode x c s) := by
  intro y d hd
  by_cases hy : y = x
  · rw [hy, codeOf_setCode_same] at hd
    cases hd
    exact hc
  · exact h y d (by rwa [codeOf_setCode_other c s hy] at hd)

theorem pathsShort_nil (nodes : List Node) : PathsShort nodes Config.nil := by
  intro p h e
  simp at e

/-- Without a table and a tree there is nothing to bound. -/
theorem lengthsOk_of_empty {s : State} (htable : s.table = []) (htreev : s.treev = false) : LengthsOk s :=
  ⟨codesShort_of_empty htable, by simp [htreev]⟩

/-- A `raise` writes the fault record only (R266). -/
theorem LengthsOk.raised {s : State} (h : LengthsOk s) (c : ErrCode) (sub : BitVec 4) (info : Word) :
    LengthsOk (s.raised c sub info) := h.congr rfl

theorem LengthsOk.raise {s : State} (h : LengthsOk s) (c : ErrCode) (sub : BitVec 4) (info : Word) :
    (raise c sub info s).Leaves LengthsOk := .raised (h.raised c sub info)

theorem LengthsOk.emitAll {s : State} (h : LengthsOk s) (bs : List Byte) : LengthsOk (emitAll bs s) :=
  h.congr (by simp [State.codesAndTree])

theorem countSym_lengthsOk (x : Byte) {s : State} (h : LengthsOk s) : (countSym x s).Leaves LengthsOk := by
  unfold countSym
  split
  · exact h.raise _ _ _
  · exact .go (h.congr (by simp [State.codesAndTree]))

theorem encodeSym_lengthsOk (x : Byte) {s : State} (h : LengthsOk s) : (encodeSym x s).Leaves LengthsOk := by
  unfold encodeSym
  split
  · exact h.raise _ _ _
  · split
    · exact h.raise _ _ _
    · exact .go (h.congr (by simp [State.codesAndTree]))

theorem flushBits_codesAndTree (s : State) : (flushBits s).codesAndTree = s.codesAndTree := by
  unfold flushBits
  split
  · rfl
  · simp [State.codesAndTree]

theorem endEncoding_lengthsOk {s : State} (h : LengthsOk s) : (endEncoding s).Leaves LengthsOk := by
  unfold endEncoding
  split
  · exact .go (h.congr (flushBits_codesAndTree s))
  · exact h.raise _ _ _

theorem decodeBit_lengthsOk (b : Bool) {s : State} (h : LengthsOk s) : (decodeBit b s).Leaves LengthsOk := by
  cases e : decodeBit b s with
  | go t =>
    rw [decodeBit_frame e]
    exact .go (h.congr rfl)
  | raised t =>
    obtain ⟨-, rfl, -⟩ := decodeBit_raised e
    exact h.raise _ _ _
  | stuck f => exact .stuck f

theorem decodeBits_lengthsOk (c : BitSeq) {s : State} (h : LengthsOk s) : (decodeBits c s).Leaves LengthsOk := by
  induction c generalizing s with
  | nil => exact .go h
  | cons b c ih => exact leaves_bind (decodeBit_lengthsOk b h) (fun _ ht => ih ht) (fun _ ht => ht)

theorem startDecoding_lengthsOk {s : State} (h : LengthsOk s) : (startDecoding s).Leaves LengthsOk := by
  unfold startDecoding
  split
  · exact .go (h.congr rfl)
  · split
    · exact h.raise _ _ _
    · split
      · exact .stuck _
      · exact .go (h.congr rfl)
      · exact .go ((h.emitAll _).congr rfl)

theorem endDecoding_lengthsOk {s : State} (h : LengthsOk s) : (endDecoding s).Leaves LengthsOk := by
  unfold endDecoding
  split
  · exact .go (h.congr rfl)
  · exact h.raise _ _ _

end Sys2Proof.Machine
end

section
/-! SUPPORT. `LengthsOk` through `GENTAB` (each code is a path of the valid tree, R182) and `TABB` (`entry_done` cuts each
code to the 8-bit `PLEN`, R236). -/

namespace Sys2Proof.Machine

/-- A code `GENTAB` finds is a path from `ROOT` (R181). -/
theorem descend_of_mem_treeCodes {s : State} {cs : Codes} (e : treeCodes s = .ok cs) {x : Byte} {c : BitSeq}
    (hm : (x, c) ∈ cs) : ∃ h, descend s.nodes s.root c = some h := by
  unfold treeCodes at e
  split at e
  · cases e
    cases hm
  · rename_i hroot
    obtain ⟨p, w, rfl, hf⟩ := (mem_walk hroot e x c).mp hm
    obtain ⟨h, hd, -⟩ := Option.bind_eq_some_iff.mp hf
    exact ⟨h, hd⟩

theorem storeCodes_frame (cs : Codes) (s : State) : storeCodes cs s = { s with table := (storeCodes cs s).table } := by
  induction cs generalizing s with
  | nil => rfl
  | cons c cs ih => exact ih _

theorem codesShort_storeCodes {cs : Codes} {s : State} (hs : CodesShort s)
    (hcs : ∀ x c, (x, c) ∈ cs → c.length ≤ Config.lenMax) : CodesShort (storeCodes cs s) := by
  induction cs generalizing s with
  | nil => exact hs
  | cons d cs ih =>
    exact ih (codesShort_setCode hs (hcs d.1 d.2 (by simp))) (fun x c hm => hcs x c (by simp [hm]))

theorem genTable_lengthsOk {s : State} (htreev : s.treev = true) (h : LengthsOk s) : (genTable s).Leaves LengthsOk := by
  obtain ⟨-, hpaths⟩ := (lengthsOk_iff s).mp h
  unfold genTable
  split
  · exact .stuck _
  · rename_i cs hcs
    have hshort : ∀ x c, (x, c) ∈ cs → c.length ≤ Config.lenMax := by
      intro x c hm
      obtain ⟨g, hg⟩ := descend_of_mem_treeCodes hcs hm
      exact hpaths htreev c g hg
    have hcodes : CodesShort (storeCodes cs { s with table := [] }) :=
      codesShort_storeCodes (codesShort_of_empty rfl) hshort
    rw [leaves_go, lengthsOk_iff, storeCodes_frame]
    exact ⟨hcodes, hpaths⟩

theorem entryDone_lengthsOk {s : State} (h : LengthsOk s) : LengthsOk (entryDone s) := by
  obtain ⟨hcodes, hpaths⟩ := (lengthsOk_iff s).mp h
  have hlen : (s.pbits.take s.plen.toNat).length ≤ Config.lenMax := by
    have hplen : s.plen.toNat < 256 := s.plen.isLt
    simp only [List.length_take, Config.lenMax]
    omega
  have hset : LengthsOk (setCode s.psym (s.pbits.take s.plen.toNat) s) := ⟨codesShort_setCode hcodes hlen, hpaths⟩
  unfold entryDone
  dsimp only
  split
  · exact hset.congr rfl
  · exact hset.congr rfl

theorem parseByte_lengthsOk (b : Byte) {s : State} (h : LengthsOk s) : (parseByte b s).Leaves LengthsOk := by
  unfold parseByte
  split
  case h_1 | h_3 | h_4 | h_5 => exact .go (h.congr rfl)
  case h_2 =>
    split
    · exact h.raise _ _ _
    · exact .go (h.congr rfl)
  case h_6 => split <;> exact .go (h.congr rfl)
  case h_7 =>
    split
    · exact h.raise _ _ _
    · exact .go (h.congr rfl)
  case h_8 =>
    split
    · exact .go (entryDone_lengthsOk (h.congr rfl))
    · exact .go (h.congr rfl)
  case h_9 =>
    dsimp only
    split
    · exact .go (entryDone_lengthsOk (h.congr rfl))
    · exact .go (h.congr rfl)

end Sys2Proof.Machine
end

section
/-! SUPPORT. The paths of `BUILD`'s tree (R182): the `k` leaves stand first, every later node is an `Internal` above its
children, and each merge takes one handle off the queue, so a path from handle `h` passes at most `h + 1 - k` nodes. -/

namespace Sys2Proof.Machine

/-- The queue and the arena between two merges, after `k` leaves (R162). -/
structure MergeOk (k : Nat) (q : List Handle) (nodes : List Node) : Prop where
  leaves_le : k ≤ nodes.length
  balance : q.length + nodes.length = 2 * k
  queue_lt : ∀ h ∈ q, h.toNat < nodes.length
  child_lt : ∀ i t, childAt nodes i t ≠ Config.nil → k ≤ i ∧ (childAt nodes i t).toNat < i

/-- A merge takes two members off the queue and puts their new parent on it (R162, R164). -/
theorem mergeOnce_some {q q' : List Handle} {nodes nodes' : List Node} (e : mergeOnce q nodes = some (q', nodes')) :
    ∃ a b, a ∈ q ∧ b ∈ q.erase a ∧ q' = (q.erase a).erase b ++ [nextHandle nodes] ∧
      nodes' = nodes ++ [.internal (weightAt nodes a + weightAt nodes b) a b] := by
  unfold mergeOnce at e
  split at e
  · cases e
  · rename_i a q₁ ha
    split at e
    · cases e
    · rename_i b q₂ hb
      cases e
      obtain ⟨haq, rfl, -⟩ := extractMin_spec ha
      obtain ⟨hbq, rfl, -⟩ := extractMin_spec hb
      exact ⟨a, b, haq, hbq, rfl, rfl⟩

theorem MergeOk.mergeOnce {k : Nat} (hk : k ≤ Config.nsyms) {q q' : List Handle} {nodes nodes' : List Node}
    (h : MergeOk k q nodes) (e : Machine.mergeOnce q nodes = some (q', nodes')) : MergeOk k q' nodes' := by
  obtain ⟨hleaves, hbal, hq, hchild⟩ := h
  obtain ⟨a, b, ha, hb, rfl, rfl⟩ := mergeOnce_some e
  have hlen : ((q.erase a).erase b).length + 2 = q.length := by
    have h1 := List.length_erase_add_one ha
    have h2 := List.length_erase_add_one hb
    omega
  have hnew : (nextHandle nodes).toNat = nodes.length := by
    apply nextHandle_toNat
    simp only [Config.nsyms] at hk
    omega
  refine ⟨by simp; omega, by simp; omega, fun g hg => ?_, fun i t => ?_⟩
  · rw [List.length_append, List.length_singleton]
    rcases List.mem_append.mp hg with hg | hg
    · exact Nat.lt_succ_of_lt (hq g (List.mem_of_mem_erase (List.mem_of_mem_erase hg)))
    · rw [List.mem_singleton.mp hg, hnew]
      exact Nat.lt_succ_self _
  · rw [childAt_append]
    split
    · rename_i hi
      intro _
      refine ⟨by omega, ?_⟩
      cases t
      · simpa [hi] using hq a ha
      · simpa [hi] using hq b (List.mem_of_mem_erase hb)
    · exact hchild i t

theorem MergeOk.mergeAll {k : Nat} (hk : k ≤ Config.nsyms) (fuel : Nat) {q : List Handle} {nodes : List Node}
    (h : MergeOk k q nodes) : MergeOk k (mergeAll fuel q nodes).1 (mergeAll fuel q nodes).2 := by
  induction fuel generalizing q nodes with
  | zero => exact h
  | succ fuel ih =>
    unfold Machine.mergeAll
    split
    · exact h
    · rename_i e
      exact ih (h.mergeOnce hk e)

theorem childAt_leafNodes (s : State) (i : Nat) (t : Bool) : childAt (leafNodes s) i t = Config.nil := by
  unfold childAt
  split
  · rename_i n hn
    obtain ⟨x, -, hx⟩ := List.mem_filterMap.mp (List.mem_of_getElem? hn)
    split at hx
    · cases hx
    · cases hx
      exact child_leaf _ _ _
  · rfl

theorem length_leafNodes_le (s : State) : (leafNodes s).length ≤ Config.nsyms :=
  (List.length_filterMap_le _ allSyms).trans_eq length_allSyms

theorem mergeOk_leaves (s : State) :
    MergeOk (leafNodes s).length (leafHandles (leafNodes s)) (leafNodes s) where
  leaves_le := le_rfl
  balance := by simp [leafHandles]; omega
  queue_lt h hm := by
    obtain ⟨i, hi, rfl⟩ := List.mem_map.mp hm
    have hlt := List.mem_range.mp hi
    rw [BitVec.toNat_ofNat]
    exact Nat.lt_of_le_of_lt (Nat.mod_le _ _) hlt
  child_lt i t h := absurd (childAt_leafNodes s i t) h

/-- Once one handle is left, no path from it is longer than the `k - 1` merges (R182). -/
theorem MergeOk.pathsShort {k : Nat} (hk : k ≤ Config.nsyms) {q : List Handle} {nodes : List Node}
    (h : MergeOk k q nodes) : PathsShort nodes (rootOf q) := by
  unfold rootOf
  split
  · rename_i root
    intro p g e
    have hroom : ∀ i t, childAt nodes i t ≠ Config.nil → (childAt nodes i t).toNat + 1 - k < i + 1 - k := by
      intro i t hne
      have := h.child_lt i t hne
      omega
    have hp : p.length ≤ root.toNat + 1 - k := length_le_of_descend (room := fun i => i + 1 - k) hroom e
    have hroot : root.toNat < nodes.length := h.queue_lt root (by simp)
    have hbal : 1 + nodes.length = 2 * k := h.balance
    have hk' : k ≤ 256 := hk
    calc p.length ≤ root.toNat + 1 - k := hp
      _ ≤ 255 := by omega
  · exact pathsShort_nil nodes

theorem buildTree_overflow {s : State} (h : Config.cmax < freqTotal s) :
    buildTree s = raise .overflow 2#4 (BitVec.ofNat 32 (freqTotal s)) s := if_pos h

/-- The tree `BUILD` leaves is the merged arena, and the code table is empty (R162). -/
theorem buildTree_fits {s : State} (h : ¬ Config.cmax < freqTotal s) :
    ∃ t, buildTree s = .go t ∧ t.nodes = (mergeAll (leafNodes s).length (leafHandles (leafNodes s)) (leafNodes s)).2 ∧
      t.root = rootOf (mergeAll (leafNodes s).length (leafHandles (leafNodes s)) (leafNodes s)).1 ∧ t.table = [] :=
  ⟨_, if_neg h, rfl, rfl, rfl⟩

theorem buildTree_lengthsOk {s : State} (h : LengthsOk s) : (buildTree s).Leaves LengthsOk := by
  rcases Nat.lt_or_ge Config.cmax (freqTotal s) with hT | hT
  · rw [buildTree_overflow hT]
    exact h.raise _ _ _
  · obtain ⟨t, e, hnodes, hroot, htable⟩ := buildTree_fits (Nat.not_lt.mpr hT)
    have hk := length_leafNodes_le s
    have hpaths : PathsShort t.nodes t.root := by
      rw [hnodes, hroot]
      exact ((mergeOk_leaves s).mergeAll hk _).pathsShort hk
    rw [e]
    exact .go ⟨codesShort_of_empty htable, fun _ => hpaths⟩

end Sys2Proof.Machine
end

section
/-! SUPPORT. The paths of the tree `RECON` makes (R245): a node made `d` bits down a code stands at depth `d`, so
`LENMAX - d` bits may follow below it. This number, the node's room, is the measure that bounds the paths. -/

namespace Sys2Proof.Machine

/-- `room` counts down by one from `LENMAX` at `ROOT` to every child, and every child is allocated. -/
structure RoomOk (room : Nat → Nat) (s : State) : Prop where
  root_room : s.root ≠ Config.nil → room s.root.toNat = Config.lenMax
  root_lt : s.root ≠ Config.nil → s.root.toNat < s.nodes.length
  child_room : ∀ i t, childAt s.nodes i t ≠ Config.nil → room (childAt s.nodes i t).toNat + 1 = room i
  child_lt : ∀ i t, childAt s.nodes i t ≠ Config.nil → (childAt s.nodes i t).toNat < s.nodes.length

theorem RoomOk.pathsShort {room : Nat → Nat} {s : State} (h : RoomOk room s) : PathsShort s.nodes s.root := by
  intro p g e
  have hne : s.root ≠ Config.nil := by
    intro hn
    simp [hn] at e
  have hfalls : ∀ i t, childAt s.nodes i t ≠ Config.nil → room (childAt s.nodes i t).toNat < room i := by
    intro i t hc
    have := h.child_room i t hc
    omega
  rw [← h.root_room hne]
  exact length_le_of_descend hfalls e

/-- The room of a node that stands in a slot. -/
def slotRoom (room : Nat → Nat) : Slot → Nat
  | .root => Config.lenMax
  | .child h _ => room h.toNat - 1

/-- The slot is `ROOT` or a child field of an allocated node with room below it. -/
def SlotOk (room : Nat → Nat) (s : State) : Slot → Prop
  | .root => True
  | .child h _ => h.toNat < s.nodes.length ∧ 0 < room h.toNat

theorem slotVal_child (p : Handle) (t : Bool) (s : State) : slotVal (.child p t) s = childAt s.nodes p.toNat t := rfl

/-- What stands in a slot is allocated and has the slot's room. -/
theorem RoomOk.slotVal {room : Nat → Nat} {s : State} (h : RoomOk room s) {slot : Slot}
    (hne : slotVal slot s ≠ Config.nil) :
    (slotVal slot s).toNat < s.nodes.length ∧ room (slotVal slot s).toNat = slotRoom room slot := by
  cases slot with
  | root => exact ⟨h.root_lt hne, h.root_room hne⟩
  | child p t =>
    rw [slotVal_child] at hne ⊢
    exact ⟨h.child_lt _ _ hne, Nat.eq_sub_of_add_eq (h.child_room _ _ hne)⟩

/-- The rooms when the next node is allocated with room `r`. -/
def withNewRoom (room : Nat → Nat) (nodes : List Node) (r : Nat) : Nat → Nat := Function.update room nodes.length r

@[simp] theorem withNewRoom_new (room : Nat → Nat) (nodes : List Node) (r : Nat) :
    withNewRoom room nodes r nodes.length = r := Function.update_self _ _ _

theorem withNewRoom_old (room : Nat → Nat) {nodes : List Node} (r : Nat) {i : Nat} (hi : i < nodes.length) :
    withNewRoom room nodes r i = room i := Function.update_of_ne (Nat.ne_of_lt hi) _ _

/-- A node without children may be allocated, with any room, before it stands in a slot. -/
theorem RoomOk.alloc {room : Nat → Nat} {s : State} (h : RoomOk room s) (r : Nat) {n : Node}
    (hn : ∀ t, n.child t = Config.nil) :
    RoomOk (withNewRoom room s.nodes r) { s with nodes := s.nodes ++ [n] } := by
  have hsame : ∀ i t, childAt (s.nodes ++ [n]) i t ≠ Config.nil →
      childAt (s.nodes ++ [n]) i t = childAt s.nodes i t := by
    intro i t hne
    rw [childAt_append] at hne ⊢
    split
    · rename_i hi
      exact absurd (by simp [hi, hn]) hne
    · rfl
  have hlt : ∀ {i}, i < s.nodes.length → i < (s.nodes ++ [n]).length := by
    intro i hi
    simpa using Nat.lt_succ_of_lt hi
  refine ⟨fun hne => ?_, fun hne => hlt (h.root_lt hne), fun i t hne => ?_, fun i t hne => ?_⟩
  · exact (withNewRoom_old _ _ (h.root_lt hne)).trans (h.root_room hne)
  · have e := hsame i t hne
    dsimp only at hne ⊢
    rw [e] at hne ⊢
    rw [withNewRoom_old _ _ (h.child_lt i t hne), withNewRoom_old _ _ (lt_of_childAt_ne_nil hne), h.child_room i t hne]
  · have e := hsame i t hne
    dsimp only at hne ⊢
    rw [e] at hne ⊢
    exact hlt (h.child_lt i t hne)

/-- An allocated node with a slot's room may be written to the slot. -/
theorem RoomOk.setSlot {room : Nat → Nat} {s : State} (h : RoomOk room s) {slot : Slot} (hslot : SlotOk room s slot)
    {g : Handle} (hg : g.toNat < s.nodes.length) (hroom : room g.toNat = slotRoom room slot) :
    RoomOk room (setSlot slot g s) := by
  cases slot with
  | root => exact ⟨fun _ => hroom, fun _ => hg, h.child_room, h.child_lt⟩
  | child p b =>
    have hpos : 0 < room p.toNat := hslot.2
    have hlen : (Machine.setSlot (.child p b) g s).nodes.length = s.nodes.length := List.length_modify _ _ _
    have hchild : ∀ i t, (i = p.toNat ∧ childAt (Machine.setSlot (.child p b) g s).nodes i t = g) ∨
        childAt (Machine.setSlot (.child p b) g s).nodes i t = childAt s.nodes i t :=
      childAt_modify s.nodes p.toNat b g
    refine ⟨h.root_room, fun hne => hlen ▸ h.root_lt hne, fun i t => ?_, fun i t => ?_⟩
    · rcases hchild i t with ⟨rfl, e⟩ | e
      · intro _
        rw [e, hroom]
        exact Nat.sub_add_cancel hpos
      · rw [e]
        exact h.child_room i t
    · rw [hlen]
      rcases hchild i t with ⟨-, e⟩ | e
      · intro _
        rwa [e]
      · rw [e]
        exact h.child_lt i t

/-- What holds while `RECON` builds: short codes, no valid tree yet, and a room for every node made so far. -/
structure ReconOk (room : Nat → Nat) (s : State) : Prop where
  codes : CodesShort s
  treev : s.treev = false
  rooms : RoomOk room s

theorem ReconOk.lengthsOk {room : Nat → Nat} {s : State} (h : ReconOk room s) : LengthsOk s :=
  ⟨h.codes, by simp [h.treev]⟩

/-- A state `RECON` may stand in. -/
def Reconstructing (s : State) : Prop := ∃ room, ReconOk room s

theorem ReconOk.raise {room : Nat → Nat} {s : State} (h : ReconOk room s) (c : ErrCode) (sub : BitVec 4) (info : Word) :
    (raise c sub info s).Leaves Reconstructing := by
  obtain ⟨hroot, hrootlt, hchild, hchildlt⟩ := h.rooms
  exact .raised ⟨room, h.codes.congr rfl, h.treev, hroot, hrootlt, hchild, hchildlt⟩

/-- The allocation changes neither the slot it is for nor that slot's room. -/
theorem SlotOk.alloc {room : Nat → Nat} {s : State} {slot : Slot} (h : SlotOk room s slot) (r : Nat) (n : Node) :
    SlotOk (withNewRoom room s.nodes r) { s with nodes := s.nodes ++ [n] } slot ∧
      slotRoom (withNewRoom room s.nodes r) slot = slotRoom room slot := by
  cases slot with
  | root => exact ⟨trivial, rfl⟩
  | child p b =>
    obtain ⟨hp, hpos⟩ := h
    have hold : withNewRoom room s.nodes r p.toNat = room p.toNat := withNewRoom_old _ _ hp
    refine ⟨⟨by simpa using Nat.lt_succ_of_lt hp, ?_⟩, congrArg (· - 1) hold⟩
    rwa [hold]

/-- `h := alloc(n); slot <- h` for a node without children (R245): it is allocated and has the slot's room. -/
theorem ReconOk.allocInto {room : Nat → Nat} {s : State} (h : ReconOk room s) {slot : Slot} (hslot : SlotOk room s slot)
    (hfull : ¬ arenaFull s.nodes = true) {n : Node} (hn : ∀ t, n.child t = Config.nil) :
    ∃ room', ReconOk room' (allocInto slot n s) ∧ (nextHandle s.nodes).toNat < (allocInto slot n s).nodes.length ∧
      room' (nextHandle s.nodes).toNat = slotRoom room slot := by
  have hlt : s.nodes.length < 511 := Nat.lt_of_not_le (of_decide_eq_false (Bool.eq_false_of_not_eq_true hfull))
  have hnew : (nextHandle s.nodes).toNat = s.nodes.length := nextHandle_toNat (by omega)
  obtain ⟨hslot', hroom⟩ := hslot.alloc (slotRoom room slot) n
  have hrooms := (h.rooms.alloc (slotRoom room slot) hn).setSlot hslot' (g := nextHandle s.nodes) (by simp [hnew])
    (by rw [hnew, hroom, withNewRoom_new])
  refine ⟨_, ⟨?_, ?_, hrooms⟩, ?_, ?_⟩
  · rw [allocInto_frame]
    exact h.codes.congr rfl
  · rw [allocInto_frame]
    exact h.treev
  · rw [length_allocInto, hnew]
    exact Nat.lt_succ_self _
  · rw [hnew, withNewRoom_new]

/-- Placing a symbol whose remaining code fits in the slot's room. -/
theorem place_reconstructing (x : Byte) {c : BitSeq} {slot : Slot} {room : Nat → Nat} {s : State} (h : ReconOk room s)
    (hslot : SlotOk room s slot) (hc : c.length ≤ slotRoom room slot) : (place x c slot s).Leaves Reconstructing := by
  induction c generalizing slot room s with
  | nil =>
    unfold place
    split
    · exact h.raise _ _ _
    · split
      · exact h.raise _ _ _
      · rename_i hfull
        obtain ⟨room', h', -, -⟩ := h.allocInto hslot hfull (n := .leaf x 0#32) (by simp)
        exact .go ⟨room', h'⟩
  | cons b c ih =>
    have hc' : c.length + 1 ≤ slotRoom room slot := hc
    unfold place
    split
    · split
      · exact h.raise _ _ _
      · rename_i hfull
        obtain ⟨room', h', hlt, hroom⟩ :=
          h.allocInto hslot hfull (n := .internal 0#32 Config.nil Config.nil) (by simp)
        exact ih h' ⟨hlt, by omega⟩ (by simp only [slotRoom]; omega)
    · rename_i hne
      obtain ⟨hlt, hroom⟩ := h.rooms.slotVal hne
      split
      · exact h.raise _ _ _
      · exact ih h ⟨hlt, by omega⟩ (by simp only [slotRoom]; omega)
      · exact .stuck _

theorem placeSyms_reconstructing (xs : List Byte) {s : State} (h : Reconstructing s) :
    (placeSyms xs s).Leaves Reconstructing := by
  induction xs generalizing s with
  | nil => exact .go h
  | cons x xs ih =>
    refine leaves_bind ?_ (fun _ ht => ih ht) (fun _ ht => ht)
    obtain ⟨room, hr⟩ := h
    unfold placeSym
    split
    · exact .go ⟨room, hr⟩
    · rename_i c hx
      exact place_reconstructing x hr trivial (hr.codes x c hx)

theorem reconTree_lengthsOk {s : State} (h : LengthsOk s) : (reconTree s).Leaves LengthsOk := by
  obtain ⟨hcodes, -⟩ := (lengthsOk_iff s).mp h
  have hempty : RoomOk (fun _ => 0) { s with treev := false, nodes := [], root := Config.nil } :=
    ⟨absurd rfl, absurd rfl, fun i t hne => absurd rfl hne, fun i t hne => absurd rfl hne⟩
  have hstart : Reconstructing { s with treev := false, nodes := [], root := Config.nil } :=
    ⟨_, hcodes.congr rfl, rfl, hempty⟩
  refine leaves_bind (placeSyms_reconstructing allSyms hstart) ?_ ?_
  · rintro t ⟨room, ht⟩
    exact .go ⟨ht.codes.congr rfl, fun _ => ht.rooms.pathsShort⟩
  · rintro t ⟨room, ht⟩
    exact ht.lengthsOk

end Sys2Proof.Machine
end

section
/-! PROOFS. Codes and paths never exceed `LENMAX` bits (R6, R36, R182). -/

namespace Sys2Proof.Machine

theorem bodyOf_lengthsOk (i : Instr) (s : State) (ha : accepts i s = true) (h : LengthsOk s) :
    (bodyOf i s).Leaves LengthsOk := by
  cases i with
  | nop => exact .go h
  | reset => exact .go (lengthsOk_of_empty rfl rfl)
  | clrf => exact .go (h.congr rfl)
  | count x => exact countSym_lengthsOk x h
  | build => exact buildTree_lengthsOk h
  | gentab =>
    have htreev : s.treev = true := by
      simp only [accepts, Bool.and_eq_true] at ha
      exact ha.2
    exact genTable_lengthsOk htreev h
  | recon => exact reconTree_lengthsOk h
  | ser => exact .go (h.emitAll _)
  | tabstart => exact .go (lengthsOk_of_empty rfl rfl)
  | tabb b => exact parseByte_lengthsOk b h
  | tabend => exact h.raise _ _ _
  | encstart => exact .go (h.congr rfl)
  | enc x => exact encodeSym_lengthsOk x h
  | encend => exact endEncoding_lengthsOk h
  | decstart => exact startDecoding_lengthsOk h
  | decb b => exact decodeBits_lengthsOk _ h
  | decbit b => exact decodeBit_lengthsOk b h
  | decend => exact endDecoding_lengthsOk h

theorem rstBlock_lengthsOk (s : State) : LengthsOk (rstBlock s) := by
  unfold rstBlock
  dsimp only
  split <;> exact lengthsOk_of_empty rfl rfl

/-- Settles O59: the commands that write the tree or the table bound what they write, and all else leaves both as they
are. -/
theorem stepKeepsCodeLengths : Obligations.StepKeepsCodeLengths := by
  unfold Obligations.StepKeepsCodeLengths
  intro s t
  refine step_keeps LengthsOk ?_ ?_ ?_ ?_ ?_ ?_ ?_
  · exact fun s es h => h.congr rfl
  · exact fun s a h => h.congr rfl
  · intro i s t h
    exact exec_keeps (fun s => lengthsOk_of_empty rfl rfl) (fun s c sub info h => h.raised c sub info) bodyOf_lengthsOk h
  · exact fun s w h _ => h.raised _ _ _
  · exact fun s x v h _ => h.congr (by simp [State.codesAndTree])
  · exact fun s h => h.congr (by simp [State.codesAndTree])
  · exact fun s _ => rstBlock_lengthsOk s

end Sys2Proof.Machine
end

section
/-! TESTS. A state with a valid tree that satisfies the premise of O59, and a command that stores the tree's paths as
codes. -/

namespace Sys2Proof.Tests

open Sys2Proof.Machine

theorem mergeOk_arena1 : MergeOk 2 [2#9] arena1 where
  leaves_le := by decide
  balance := by decide
  queue_lt := by decide
  child_lt i t h := by
    have hi : i < 3 := lt_of_childAt_ne_nil h
    interval_cases i <;> revert h <;> revert t <;> decide

theorem witness_StepKeepsCodeLengths_tree :
    ∃ t, LengthsOk (writing 0x2100#32 built) ∧ built.treev = true ∧ step (writing 0x2100#32 built) = .next t ∧
      t.table ≠ [] :=
  ⟨endOf (step (writing 0x2100#32 built)),
    ⟨codesShort_of_empty rfl, fun _ => mergeOk_arena1.pathsShort (by decide)⟩, rfl, of_isNext (by decide +kernel),
    by decide +kernel⟩

end Sys2Proof.Tests
end

section
/-! SUPPORT. What the pseudocode of each command may write, said once (R136): every element of the state that a command
does not list stays, `OUT` only grows (R49), and a `raise` adds the fault record (R266). -/

namespace Sys2Proof.Machine

/-- The elements the pseudocode of a command may write before it ends or raises, and the mode it leaves (R136, column
`after`). -/
def Writes (i : Instr) (s t : State) : Prop :=
  match i with
  | .nop | .tabend => t = s
  | .reset => t = resetBlock s
  | .clrf | .count _ => t = { s with freq := t.freq }
  | .build => t = { s with
      nodes := t.nodes, root := t.root, table := t.table, nent := t.nent, nsym := t.nsym,
      treev := t.treev, tabv := t.tabv }
  | .gentab => t = { s with table := t.table, nent := t.nent, tabv := t.tabv }
  | .recon => t = { s with treev := t.treev, nodes := t.nodes, root := t.root }
  | .ser => t = { s with outq := t.outq, held := t.held }
  | .tabstart => t = startTable s
  | .tabb _ => (t.mode = s.mode ∨ t.mode = .idle) ∧ t = { s with
      pst := t.pst, pcnt := t.pcnt, psym := t.psym, plen := t.plen, pidx := t.pidx, ptmp := t.ptmp, pbits := t.pbits,
      table := t.table, nent := t.nent, nsym := t.nsym, tabv := t.tabv, mode := t.mode }
  | .encstart => t = startEncoding s
  | .enc _ => t = { s with acc := t.acc, nbits := t.nbits, enccnt := t.enccnt, outq := t.outq, held := t.held }
  | .encend => t = { s with acc := t.acc, nbits := t.nbits, outq := t.outq, held := t.held, mode := .idle }
  | .decstart => t = { s with rem := t.rem, cur := t.cur, outq := t.outq, held := t.held, mode := .dec }
  | .decb _ | .decbit _ => t = { s with rem := t.rem, cur := t.cur, outq := t.outq, held := t.held }
  | .decend => t = { s with mode := .idle }

/-- What a command does to the state: it writes its own elements and only appends to `OUT` (R49). -/
def Effect (i : Instr) (s t : State) : Prop := Writes i s t ∧ s.out <+: t.out

/-- A code that a fault of the block records: not 0, and not the reserved `IOFailure` (R262, R264). -/
def ErrCode.isRecorded : ErrCode → Bool
  | .none | .ioFailure => false
  | _ => true

/-- The commands whose pseudocode reads nodes, where the model may stop (log 6, log 7). -/
def ReadsNodes : Instr → Prop
  | .gentab | .recon | .decstart | .decb _ | .decbit _ => True
  | _ => False

/-- How a pseudocode started in `s` ends: with an effect `W`, by a `raise` with nothing or some of `W` done, or, if `B`
allows it, not at all. -/
inductive Flow.EndsWithin (B : Prop) (W : State → Prop) (s : State) : Flow → Prop
  | go {t : State} (h : W t) : EndsWithin B W s (.go t)
  | raised {u : State} {c : ErrCode} {sub : BitVec 4} {info : Word} (h : u = s ∨ W u) (hc : c.isRecorded = true) :
    EndsWithin B W s (.raised (u.raised c sub info))
  | stuck (f : Fault) (h : B) : EndsWithin B W s (.stuck f)

/-- The pseudocode of command `i`, started in `s`, does what `i` may do. -/
abbrev Flow.EndsAs (i : Instr) (s : State) (r : Flow) : Prop := r.EndsWithin (ReadsNodes i) (Effect i s) s

/-- A `raise` before anything is written. -/
theorem endsWithin_raise {B : Prop} {W : State → Prop} {s : State} {c : ErrCode} (sub : BitVec 4) (info : Word)
    (hc : c.isRecorded = true) : (raise c sub info s).EndsWithin B W s := .raised (.inl rfl) hc

/-- A later part of a pseudocode, started in `u`, as seen from where the command began. -/
theorem Flow.EndsWithin.after {B : Prop} {V W : State → Prop} {s u : State} {r : Flow} (h : r.EndsWithin B V u)
    (hu : W u) (hVW : ∀ t, V t → W t) : r.EndsWithin B W s := by
  cases h with
  | go h => exact .go (hVW _ h)
  | stuck f hf => exact .stuck f hf
  | raised h hc =>
    rcases h with rfl | h
    · exact .raised (.inr hu) hc
    · exact .raised (.inr (hVW _ h)) hc

theorem Flow.EndsWithin.bind {B : Prop} {W : State → Prop} {s : State} {r : Flow} {k : State → Flow}
    (hr : r.EndsWithin B W s) (hk : ∀ u, W u → (k u).EndsWithin B W s) : (r.bind k).EndsWithin B W s := by
  cases hr with
  | go h => exact hk _ h
  | stuck f hf => exact .stuck f hf
  | raised h hc => exact .raised h hc

/-- An effect that leaves the output port alone. -/
theorem Effect.of_writes {i : Instr} {s t : State} (h : Writes i s t) (hout : t.out = s.out) : Effect i s t :=
  ⟨h, by rw [hout]⟩

/-! ### The commands one by one -/

theorem countSym_effect (x : Byte) (s : State) : (countSym x s).EndsAs (.count x) s := by
  unfold countSym
  split
  · exact endsWithin_raise _ _ rfl
  · exact .go (.of_writes rfl rfl)

theorem buildTree_effect (s : State) : (buildTree s).EndsAs .build s := by
  unfold buildTree
  split
  · exact endsWithin_raise _ _ rfl
  · exact .go (.of_writes rfl rfl)

theorem genTable_effect (s : State) : (genTable s).EndsAs .gentab s := by
  unfold genTable
  split
  · exact .stuck _ trivial
  · rw [storeCodes_frame]
    exact .go (.of_writes rfl rfl)

theorem entryDone_effect (b : Byte) {s u : State} (h : Effect (.tabb b) s u) : Effect (.tabb b) s (entryDone u) := by
  obtain ⟨⟨hmode, hu⟩, hout⟩ := h
  rw [hu] at hout
  unfold entryDone
  rw [hu]
  dsimp only
  split
  · exact ⟨⟨.inr rfl, rfl⟩, hout⟩
  · exact ⟨⟨hmode, rfl⟩, hout⟩

theorem parseByte_effect (b : Byte) (s : State) : (parseByte b s).EndsAs (.tabb b) s := by
  have stays : ∀ {t : State}, Writes (.tabb b) s t → t.out = s.out → Effect (.tabb b) s t := .of_writes
  unfold parseByte
  split
  case h_1 | h_3 | h_4 | h_5 => exact .go (stays ⟨.inl rfl, rfl⟩ rfl)
  case h_2 =>
    split
    · exact endsWithin_raise _ _ rfl
    · exact .go (stays ⟨.inl rfl, rfl⟩ rfl)
  case h_6 =>
    split
    · exact .go (stays ⟨.inr rfl, rfl⟩ rfl)
    · exact .go (stays ⟨.inl rfl, rfl⟩ rfl)
  case h_7 =>
    split
    · exact endsWithin_raise _ _ rfl
    · exact .go (stays ⟨.inl rfl, rfl⟩ rfl)
  case h_8 =>
    split
    · exact .go (entryDone_effect b (stays ⟨.inl rfl, rfl⟩ rfl))
    · exact .go (stays ⟨.inl rfl, rfl⟩ rfl)
  case h_9 =>
    dsimp only
    split
    · exact .go (entryDone_effect b (stays ⟨.inl rfl, rfl⟩ rfl))
    · exact .go (stays ⟨.inl rfl, rfl⟩ rfl)

theorem encodeSym_effect (x : Byte) (s : State) : (encodeSym x s).EndsAs (.enc x) s := by
  unfold encodeSym
  split
  · exact endsWithin_raise _ _ rfl
  · rename_i c _
    split
    · exact endsWithin_raise _ _ rfl
    · obtain ⟨bytes, hout, -⟩ := writeBits_spec c s
      refine .go ⟨?_, bytes, hout.symm⟩
      rw [writeBits_frame]
      rfl

/-- `ENCEND`'s flush touches the accumulator and the output queue only (R198). -/
theorem flushBits_frame (s : State) :
    flushBits s = { s with
      acc := (flushBits s).acc, nbits := (flushBits s).nbits,
      outq := (flushBits s).outq, held := (flushBits s).held } := by
  unfold flushBits
  split
  · rfl
  · apply State.ext <;> simp

theorem endEncoding_effect (s : State) : (endEncoding s).EndsAs .encend s := by
  unfold endEncoding
  split
  · refine .go ⟨?_, _, (flushBits_out s).symm⟩
    rw [flushBits_frame]
    rfl
  · exact endsWithin_raise _ _ rfl

theorem startDecoding_effect (s : State) : (startDecoding s).EndsAs .decstart s := by
  unfold startDecoding
  split
  · exact .go (.of_writes rfl rfl)
  · split
    · exact endsWithin_raise _ _ rfl
    · split
      · exact .stuck _ trivial
      · exact .go (.of_writes rfl rfl)
      · refine .go ⟨?_, _, (emitAll_out _ s).symm⟩
        rw [emitAll_frame]
        rfl

theorem endDecoding_effect (s : State) : (endDecoding s).EndsAs .decend s := by
  unfold endDecoding
  split
  · exact .go (.of_writes rfl rfl)
  · exact endsWithin_raise _ _ rfl

theorem decodeBit_effect (b : Bool) (s : State) : (decodeBit b s).EndsAs (.decbit b) s := by
  cases e : decodeBit b s with
  | stuck f => exact .stuck f trivial
  | raised t =>
    obtain ⟨-, rfl, -⟩ := decodeBit_raised e
    exact endsWithin_raise _ _ rfl
  | go t =>
    refine .go ⟨decodeBit_frame e, ?_⟩
    rcases decodeBit_go e with ⟨-, rfl⟩ | ⟨-, n, -, -, ⟨w, l, r, -, rfl⟩ | ⟨x, w, -, rfl⟩⟩
    · exact List.prefix_rfl
    · exact List.prefix_rfl
    · exact ⟨[x], (emit_out x s).symm⟩

theorem Effect.decb_trans {b : Byte} {t : Bool} {s u v : State} (h : Effect (.decbit t) s u)
    (h' : Effect (.decb b) u v) : Effect (.decb b) s v := by
  obtain ⟨hu, hout⟩ := h
  obtain ⟨hv, hout'⟩ := h'
  refine ⟨?_, hout.trans hout'⟩
  simp only [Writes] at hu hv ⊢
  rw [hu] at hv
  exact hv

theorem decodeBits_effect (b : Byte) (c : BitSeq) (s : State) : (decodeBits c s).EndsAs (.decb b) s := by
  induction c generalizing s with
  | nil => exact .go (.of_writes rfl rfl)
  | cons t c ih => exact (decodeBit_effect t s).bind (fun u hu => (ih u).after hu (fun v hv => hu.decb_trans hv))

theorem Effect.recon_trans {s u v : State} (h : Effect .recon s u) (h' : Effect .recon u v) : Effect .recon s v := by
  obtain ⟨hu, hout⟩ := h
  obtain ⟨hv, hout'⟩ := h'
  refine ⟨?_, hout.trans hout'⟩
  simp only [Writes] at hu hv ⊢
  rw [hu] at hv
  exact hv

theorem placeSym_effect (x : Byte) (s : State) : (placeSym x s).EndsAs .recon s := by
  unfold placeSym
  split
  · exact .go (.of_writes rfl rfl)
  · rename_i c _
    cases e : place x c .root s with
    | stuck f => exact .stuck f trivial
    | go t =>
      rw [(place_go e).1]
      exact .go (.of_writes rfl rfl)
    | raised t =>
      obtain ⟨sub, -, ht⟩ := place_raised e
      rw [ht]
      exact .raised (u := { s with nodes := t.nodes, root := t.root }) (.inr (.of_writes rfl rfl)) rfl

theorem placeSyms_effect (xs : List Byte) (s : State) : (placeSyms xs s).EndsAs .recon s := by
  induction xs generalizing s with
  | nil => exact .go (.of_writes rfl rfl)
  | cons x xs ih => exact (placeSym_effect x s).bind (fun u hu => (ih u).after hu (fun v hv => hu.recon_trans hv))

theorem reconTree_effect (s : State) : (reconTree s).EndsAs .recon s := by
  have hstart : Effect .recon s { s with treev := false, nodes := [], root := Config.nil } := .of_writes rfl rfl
  refine .bind ((placeSyms_effect allSyms _).after hstart (fun v hv => hstart.recon_trans hv)) ?_
  exact fun u hu => .go (hu.recon_trans (.of_writes rfl rfl))

/-! ### Every command -/

/-- Everything the pseudocode of a command can do to the state. -/
theorem bodyOf_effect (i : Instr) (s : State) : (bodyOf i s).EndsAs i s := by
  cases i with
  | nop | reset | clrf | tabstart | encstart => exact .go (.of_writes rfl rfl)
  | count x => exact countSym_effect x s
  | build => exact buildTree_effect s
  | gentab => exact genTable_effect s
  | recon => exact reconTree_effect s
  | ser => exact .go ⟨emitAll_frame _ s, _, (emitAll_out _ s).symm⟩
  | tabb b => exact parseByte_effect b s
  | tabend => exact endsWithin_raise _ _ rfl
  | enc x => exact encodeSym_effect x s
  | encend => exact endEncoding_effect s
  | decstart => exact startDecoding_effect s
  | decb b => exact decodeBits_effect b _ s
  | decbit b => exact decodeBit_effect b s
  | decend => exact endDecoding_effect s

/-- The model stops in no command that reads no nodes. -/
theorem readsNodes_of_stuck {i : Instr} {s : State} {f : Fault} (e : bodyOf i s = .stuck f) : ReadsNodes i := by
  have h := bodyOf_effect i s
  rw [e] at h
  cases h
  assumption

/-- What holds before a command, of every state its effect may leave, and after a `raise`, the pseudocode leaves. -/
theorem bodyOf_leaves {P : State → Prop} {i : Instr} {s : State} (hs : P s) (hEffect : ∀ t, Effect i s t → P t)
    (hRaised : ∀ u c sub info, c.isRecorded = true → P u → P (u.raised c sub info)) : (bodyOf i s).Leaves P := by
  have h := bodyOf_effect i s
  generalize bodyOf i s = r at h
  cases h with
  | go h => exact .go (hEffect _ h)
  | stuck f _ => exact .stuck f
  | raised h hc =>
    rcases h with rfl | h
    · exact .raised (hRaised _ _ _ _ hc hs)
    · exact .raised (hRaised _ _ _ _ hc (hEffect _ h))

/-- A command keeps what its effect and a `raise` keep (R130, R135). -/
theorem exec_keeps_of_effect {P : State → Prop} {i : Instr} {s t : State} (hs : P s)
    (hReset : P (resetBlock s))
    (hRaised : ∀ u c sub info, c.isRecorded = true → P u → P (u.raised c sub info))
    (hBody : s.mode ≠ .fault → accepts i s = true → (bodyOf i s).Leaves P)
    (h : exec i s = .next t) : P t := by
  rcases exec_cases h with ⟨-, rfl⟩ | ⟨-, -, rfl⟩ | ⟨-, -, -, rfl⟩ | ⟨-, hm, ha, hb | hb⟩
  · exact hReset
  · exact hs
  · exact hRaised _ _ _ _ rfl hs
  · exact leaves_go.mp (hb ▸ hBody hm ha)
  · exact leaves_raised.mp (hb ▸ hBody hm ha)

end Sys2Proof.Machine
end

section
/-! SUPPORT. The invariants that do not speak of `FREQ`, of the output port or of the outside world: a step keeps them
if every pseudocode and every `raise` does. -/

namespace Sys2Proof.Machine

/-- The state without `FREQ`, the output port and the record of the outside world. -/
def State.core (s : State) : State :=
  { s with freq := [], outq := [], outqDepth := none, held := [], taken := [], pending := [], answers := [] }

@[simp] theorem core_answer (a : Answer) (s : State) : (answer a s).core = s.core := rfl

@[simp] theorem core_setFreq (x : Byte) (v : Word) (s : State) : (setFreq x v s).core = s.core := rfl

@[simp] theorem core_sinkTake (s : State) : (sinkTake s).core = s.core := by
  apply State.ext <;> simp [State.core]

@[simp] theorem core_emitAll (bs : List Byte) (s : State) : (emitAll bs s).core = s.core := by
  apply State.ext <;> simp [State.core]

@[simp] theorem core_resetBlock (s : State) : (resetBlock s).core = State.reset.core := rfl

@[simp] theorem core_rstBlock (s : State) : (rstBlock s).core = State.reset.core := by
  unfold rstBlock
  dsimp only
  split <;> rfl

/-- The invariant principle for a `P` that speaks of the core alone. -/
theorem step_keeps_of_core {P : State → Prop} (hP : ∀ s, P s.core ↔ P s) (hReset : P State.reset)
    (hRaised : ∀ s c sub info, c.isRecorded = true → P s → P (s.raised c sub info))
    (hBody : ∀ i s, s.mode ≠ .fault → accepts i s = true → P s → (bodyOf i s).Leaves P)
    {s t : State} (hs : P s) (h : step s = .next t) : P t := by
  have hCore : ∀ s t, t.core = s.core → P s → P t := fun s t e hs => (hP t).mp (e ▸ (hP s).mpr hs)
  refine step_keeps P ?_ ?_ ?_ ?_ ?_ ?_ ?_ hs h
  · exact fun s es hs => hCore s _ rfl hs
  · exact fun s a hs => hCore s _ (core_answer a s) hs
  · exact fun i s t hs h =>
      exec_keeps_of_effect hs (hCore _ _ (core_resetBlock s) hReset) hRaised (fun hm ha => hBody i s hm ha hs) h
  · exact fun s w hs _ => hRaised s _ _ _ rfl hs
  · exact fun s x v hs _ => hCore s _ (core_setFreq x v s) hs
  · exact fun s hs => hCore s _ (core_sinkTake s) hs
  · exact fun s _ => hCore _ _ (core_rstBlock s) hReset

end Sys2Proof.Machine
end

section
/-! PROOFS. `OUT` only grows (R49, R76). -/

namespace Sys2Proof.Machine

/-- No command removes or reorders a byte of `OUT` (R49). -/
theorem exec_out {i : Instr} {s t : State} (h : exec i s = .next t) : s.out <+: t.out :=
  exec_keeps_of_effect (P := fun u => s.out <+: u.out) List.prefix_rfl List.prefix_rfl (fun _ _ _ _ _ hu => hu)
    (fun _ _ => bodyOf_leaves List.prefix_rfl (fun _ he => he.2) (fun _ _ _ _ _ hu => hu)) h

/-- Only `rst` does not extend `OUT` (R49). -/
theorem handle_out {e : Event} {s t : State} (h : handle e s = .next t) : e = .rst ∨ s.out <+: t.out := by
  rcases handle_cases h with ⟨a, -, rfl⟩ | ⟨w, i, r, -, -, hr, rfl⟩ | ⟨w, d, -, -, -, rfl⟩ | ⟨w, d, -, -, -, rfl⟩ |
    ⟨a, x, v, -, -, -, rfl⟩ | ⟨a, v, -, -, rfl⟩ | ⟨-, rfl⟩ | ⟨he, -⟩
  case inr.inl => exact .inr (by simpa using exec_out hr)
  case inr.inr.inr.inr.inr.inr.inr => exact .inl he
  all_goals exact .inr (by simp)

/-- Settles O44: each event but `rst` only appends to `OUT`. -/
theorem outIsAppendOnly : Obligations.OutIsAppendOnly := by
  unfold Obligations.OutIsAppendOnly
  intro s t h
  rcases step_cases h with ⟨-, rfl⟩ | ⟨e, rest, hn, he⟩
  · exact .inl ⟨[], by simp⟩
  · rcases handle_out he with rfl | ⟨bytes, hb⟩
    · exact .inr ⟨rest, hn⟩
    · exact .inl ⟨bytes, hb.symm⟩

end Sys2Proof.Machine
end

section
/-! PROOFS. The fault record (R24, R264). -/

namespace Sys2Proof.Machine

/-- The fault record (R24). -/
def State.record (s : State) : ErrCode × BitVec 4 × Word := (s.errcode, s.errsub, s.errinfo)

/-- No fault has been raised: `MODE` is not `FAULT` and the record is 0. -/
def Unfaulted (s : State) : Prop := s.mode ≠ .fault ∧ s.record = (.none, 0#4, 0#32)

theorem Unfaulted.faultRecordOk {s : State} (h : Unfaulted s) : FaultRecordOk s := by
  obtain ⟨hm, hrec⟩ := h
  simp only [State.record, Prod.mk.injEq] at hrec
  exact ⟨fun _ => hrec, fun e => absurd e hm⟩

theorem FaultRecordOk.unfaulted {s : State} (h : FaultRecordOk s) (hm : s.mode ≠ .fault) : Unfaulted s := by
  obtain ⟨h1, h2, h3⟩ := h.1 hm
  exact ⟨hm, by simp [State.record, h1, h2, h3]⟩

theorem isRecorded_iff (c : ErrCode) : c.isRecorded = true ↔ c ≠ .none ∧ c ≠ .ioFailure := by
  cases c <;> decide

theorem faultRecordOk_raised (s : State) {c : ErrCode} (sub : BitVec 4) (info : Word) (hc : c.isRecorded = true) :
    FaultRecordOk (s.raised c sub info) :=
  ⟨fun hm => absurd rfl hm, fun _ => (isRecorded_iff c).mp hc⟩

/-- No effect of a command writes the record or enters `FAULT` (R266). -/
theorem Effect.unfaulted {i : Instr} {s t : State} (h : Effect i s t) (hs : Unfaulted s) : Unfaulted t := by
  obtain ⟨hm, hrec⟩ := hs
  obtain ⟨hw, -⟩ := h
  cases i with
  | reset =>
    rw [hw]
    exact ⟨nofun, rfl⟩
  | tabstart | encstart | encend | decstart | decend =>
    rw [hw]
    exact ⟨nofun, hrec⟩
  | tabb b =>
    obtain ⟨hmode, hw⟩ := hw
    refine ⟨?_, ?_⟩
    · rcases hmode with e | e <;> rw [e]
      · exact hm
      · nofun
    · rw [hw]
      exact hrec
  | _ =>
    rw [hw]
    exact ⟨hm, hrec⟩

/-- Settles O53: a command that ends leaves the record at 0, and a `raise` records a code the block raises. -/
theorem stepKeepsTheFaultRecord : Obligations.StepKeepsTheFaultRecord := by
  unfold Obligations.StepKeepsTheFaultRecord
  intro s t
  refine step_keeps_of_core (fun _ => Iff.rfl) ?_ ?_ ?_
  · exact Unfaulted.faultRecordOk ⟨nofun, rfl⟩
  · exact fun s c sub info hc _ => faultRecordOk_raised s sub info hc
  · intro i s hm _ h
    exact bodyOf_leaves h (fun t he => (he.unfaulted (h.unfaulted hm)).faultRecordOk)
      (fun u c sub info hc _ => faultRecordOk_raised u sub info hc)

end Sys2Proof.Machine
end

section
/-! PROOFS. The bit writer (R42, R192). -/

namespace Sys2Proof.Machine

/-- `ACC[7:NBITS]` is 0 (R42). -/
def AccFits (s : State) : Prop := s.acc.toNat < 2 ^ s.nbits.toNat

theorem WriterOk.of_fits {s : State} (h : AccFits s) (hm : s.mode = .enc) : WriterOk s :=
  ⟨h, fun hne => absurd hm hne⟩

theorem WriterOk.of_clear {s : State} (hacc : s.acc = 0#8) (hnbits : s.nbits = 0#3) : WriterOk s :=
  ⟨by simp [hacc, hnbits], fun _ _ => ⟨hacc, hnbits⟩⟩

theorem WriterOk.raised {s : State} (h : WriterOk s) (c : ErrCode) (sub : BitVec 4) (info : Word) :
    WriterOk (s.raised c sub info) :=
  ⟨h.1, fun _ hm => absurd rfl hm⟩

theorem toNat_shiftIn (v : Byte) (t : Bool) (hv : v.toNat < 128) : (shiftIn v t).toNat = 2 * v.toNat + t.toNat := by
  have hor : 2 * v.toNat + t.toNat = 2 * v.toNat ||| t.toNat := Nat.two_pow_add_eq_or_of_lt (i := 1) t.toNat_lt _
  have hmod : v.toNat * 2 % 256 = 2 * v.toNat := by omega
  cases t <;> simp_all [shiftIn, Nat.shiftLeft_eq]

/-- A written bit joins the waiting ones at the bottom (R192). -/
theorem AccFits.writeBit {s : State} (h : AccFits s) (t : Bool) : AccFits (writeBit t s) := by
  by_cases hn : s.nbits = 7#3
  · rw [(writeBit_full hn).1]
    simp [AccFits]
  · obtain ⟨hw, hnext, -⟩ := writeBit_room (t := t) hn
    have hlt : s.nbits.toNat < 7 := by
      have := (s.nbits + 1#3).isLt
      omega
    have hpow : 2 ^ s.nbits.toNat ≤ 2 ^ 6 := Nat.pow_le_pow_right (by omega) (by omega)
    unfold AccFits at *
    rw [hw]
    dsimp only
    rw [hnext, toNat_shiftIn _ _ (by omega), Nat.pow_succ]
    have := t.toNat_lt
    omega

theorem AccFits.writeBits {s : State} (h : AccFits s) (c : BitSeq) : AccFits (writeBits c s) := by
  induction c generalizing s with
  | nil => exact h
  | cons t c ih => exact ih (h.writeBit t)

theorem encodeSym_writerOk (x : Byte) {s : State} (h : WriterOk s) (hm : s.mode = .enc) :
    (encodeSym x s).Leaves WriterOk := by
  unfold encodeSym
  split
  · exact .raised (h.raised _ _ _)
  · split
    · exact .raised (h.raised _ _ _)
    · exact .go (.of_fits (AccFits.writeBits h.1 _) (by simpa using hm))

/-- After the flush no bit waits (R198). -/
theorem flushBits_clear {s : State} (h : AccFits s) : (flushBits s).acc = 0#8 ∧ (flushBits s).nbits = 0#3 := by
  unfold flushBits
  split
  · rename_i hn
    refine ⟨BitVec.eq_of_toNat_eq ?_, hn⟩
    simpa [AccFits, hn] using h
  · simp

theorem endEncoding_writerOk {s : State} (h : WriterOk s) : (endEncoding s).Leaves WriterOk := by
  unfold endEncoding
  split
  · obtain ⟨hacc, hnbits⟩ := flushBits_clear h.1
    exact .go (.of_clear hacc hnbits)
  · exact .raised (h.raised _ _ _)

theorem bodyOf_writerOk (i : Instr) (s : State) (hf : s.mode ≠ .fault) (ha : accepts i s = true) (h : WriterOk s) :
    (bodyOf i s).Leaves WriterOk := by
  have unwritten : ∀ {j}, s.mode ≠ .enc → (∀ t, Effect j s t → t.acc = s.acc ∧ t.nbits = s.nbits) →
      (bodyOf j s).Leaves WriterOk := by
    intro j hm hj
    obtain ⟨hacc, hnbits⟩ := h.2 hm hf
    refine bodyOf_leaves h (fun t he => ?_) (fun u c sub info _ hu => hu.raised c sub info)
    exact .of_clear ((hj t he).1.trans hacc) ((hj t he).2.trans hnbits)
  cases i with
  | nop => exact .go h
  | reset | encstart => exact .go (.of_clear rfl rfl)
  | enc x => exact encodeSym_writerOk x h (by simpa [accepts] using ha)
  | encend => exact endEncoding_writerOk h
  | tabb b => exact unwritten (by intro e; simp [accepts, e] at ha) (fun t he => by rw [he.1.2]; exact ⟨rfl, rfl⟩)
  | _ => exact unwritten (by intro e; simp [accepts, e] at ha) (fun t he => by rw [he.1]; exact ⟨rfl, rfl⟩)

/-- Settles O55: `writeBit` shifts in at the bottom, `ENCSTART` and `ENCEND` clear, and every other command leaves the
writer as it is. -/
theorem stepKeepsTheBitWriter : Obligations.StepKeepsTheBitWriter := by
  unfold Obligations.StepKeepsTheBitWriter
  intro s t
  refine step_keeps_of_core (fun _ => Iff.rfl) ?_ ?_ bodyOf_writerOk
  · exact .of_clear rfl rfl
  · exact fun s c sub info _ h => h.raised c sub info

end Sys2Proof.Machine
end

section
/-! PROOFS. The header parser (R46, R236). -/

namespace Sys2Proof.Machine

/-- Outside `LOADTAB` nothing is asked of the parser. -/
theorem ParserOk.of_mode {s : State} (h : s.mode ≠ .loadtab) : ParserOk s := fun hm => absurd hm h

/-- The next entry is open: entries done and to come add up to a legal `NENT` (R236). -/
def EntriesOk (s : State) : Prop :=
  s.nent.toNat ≤ 256 ∧ 0 < s.pcnt.toNat ∧ s.pcnt.toNat + s.table.length = s.nent.toNat

theorem ParserOk.entries {s : State} (h : ParserOk s) (hm : s.mode = .loadtab)
    (hp : s.pst = .esym ∨ s.pst = .elen ∨ s.pst = .ecode) : EntriesOk s := by
  obtain ⟨hnent, -, hsum, -, -⟩ := h hm
  refine ⟨hnent.resolve_left ?_ |>.resolve_left ?_, hsum hp⟩ <;> rcases hp with hp | hp | hp <;> simp [hp]

theorem EntriesOk.parserOk_esym {s : State} (h : EntriesOk s) (hp : s.pst = .esym) : ParserOk s := by
  obtain ⟨hnent, hsum⟩ := h
  intro _
  simp [hp, hnent, hsum]

theorem EntriesOk.parserOk_elen {s : State} (h : EntriesOk s) (hp : s.pst = .elen) (hnew : codeOf s s.psym = none) :
    ParserOk s := by
  obtain ⟨hnent, hsum⟩ := h
  intro _
  simp [hp, hnent, hsum, hnew]

theorem EntriesOk.parserOk_ecode {s : State} (h : EntriesOk s) (hp : s.pst = .ecode) (hnew : codeOf s s.psym = none)
    (hidx : s.pidx.toNat < byteCount s.plen.toNat) (hbits : s.pbits.length = 8 * s.pidx.toNat) : ParserOk s := by
  obtain ⟨hnent, hsum⟩ := h
  intro _
  simp [hp, hnent, hsum, hnew, hidx, hbits]

/-- `entry_done()` moves one entry from those to come to those done (R236). -/
theorem EntriesOk.entryDone {s : State} (h : EntriesOk s) (hnew : codeOf s s.psym = none) : ParserOk (entryDone s) := by
  obtain ⟨hnent, hpos, hsum⟩ := h
  have hcnt : (s.pcnt - 1#9).toNat = s.pcnt.toNat - 1 := by bv_omega
  have hlen := Memory.length_insert_new s.table s.psym.toNat (s.pbits.take s.plen.toNat) hnew
  unfold Machine.entryDone
  dsimp only
  split
  · exact .of_mode nofun
  · rename_i hmore
    have hne : (s.pcnt - 1#9).toNat ≠ 0 := fun e => hmore (BitVec.eq_of_toNat_eq e)
    refine EntriesOk.parserOk_esym ⟨hnent, ?_, ?_⟩ rfl
    · exact Nat.pos_of_ne_zero hne
    · simp only [setCode_table, setCode_nent, hlen, hcnt]
      omega

theorem parseByte_parserOk (b : Byte) {s : State} (hm : s.mode = .loadtab) (h : ParserOk s) :
    (parseByte b s).Leaves ParserOk := by
  obtain ⟨hnent, htable, -, hnew, hcode⟩ := h hm
  have raises : ∀ c sub info, (raise c sub info s).Leaves ParserOk := fun _ _ _ => .raised (.of_mode nofun)
  unfold parseByte
  split <;> rename_i hp
  case h_1 => exact .go (fun _ => by simpa [hp] using htable)
  case h_2 =>
    split
    · exact raises _ _ _
    · rename_i hle
      have hfits : (fieldSoFar s b).toNat % 512 ≤ 256 := (Nat.mod_le _ _).trans (Nat.le_of_not_lt hle)
      exact .go (fun _ => by simpa [hp] using And.intro hfits htable)
  case h_3 | h_4 | h_5 => exact .go (fun _ => by simpa [pushField, hp] using And.intro hnent htable)
  case h_6 =>
    split
    · exact .go (.of_mode nofun)
    · rename_i hne
      have hpos : 0 < s.nent.toNat := Nat.pos_of_ne_zero (fun e => hne (BitVec.eq_of_toNat_eq e))
      simp only [hp, reduceCtorEq, false_or] at hnent htable
      exact .go (EntriesOk.parserOk_esym ⟨hnent, hpos, by simp [htable]⟩ rfl)
  case h_7 =>
    have hent := h.entries hm (.inl hp)
    split
    · exact raises _ _ _
    · rename_i hb
      exact .go (EntriesOk.parserOk_elen (s := { s with psym := b, pst := .elen }) hent rfl hb)
  case h_8 =>
    have hent := h.entries hm (.inr (.inl hp))
    have hnew := hnew (.inl hp)
    split
    · exact .go (EntriesOk.entryDone (s := { s with plen := b, pidx := 0#6, pbits := [] }) hent hnew)
    · rename_i hb
      have hlen : b.toNat ≠ 0 := fun e => hb (BitVec.eq_of_toNat_eq e)
      have hbytes : 0 < byteCount b.toNat := by
        unfold byteCount
        omega
      exact .go (EntriesOk.parserOk_ecode (s := { s with plen := b, pidx := 0#6, pbits := [], pst := .ecode })
        hent rfl hnew hbytes rfl)
  case h_9 =>
    have hent := h.entries hm (.inr (.inr hp))
    have hnew := hnew (.inr hp)
    obtain ⟨hidx, hbits⟩ := hcode hp
    have hnext : (s.pidx + 1#6).toNat = s.pidx.toNat + 1 := by
      have hplen : s.plen.toNat < 256 := s.plen.isLt
      unfold byteCount at hidx
      bv_omega
    dsimp only
    split
    · exact .go (EntriesOk.entryDone (s := { s with pbits := s.pbits ++ byteBits b, pidx := s.pidx + 1#6 }) hent hnew)
    · rename_i hne
      refine .go (EntriesOk.parserOk_ecode (s := { s with pbits := s.pbits ++ byteBits b, pidx := s.pidx + 1#6 })
        hent hp hnew ?_ ?_)
      · dsimp only at hne ⊢
        omega
      · dsimp only
        simp only [List.length_append, length_byteBits, hbits, hnext]
        omega

theorem bodyOf_parserOk (i : Instr) (s : State) (ha : accepts i s = true) (h : ParserOk s) :
    (bodyOf i s).Leaves ParserOk := by
  have raised : ∀ u c sub info, ErrCode.isRecorded c = true → ParserOk u → ParserOk (u.raised c sub info) :=
    fun _ _ _ _ _ _ => .of_mode nofun
  have idle : ∀ {j}, (∀ t, Effect j s t → t.mode ≠ .loadtab) → (bodyOf j s).Leaves ParserOk :=
    fun hj => bodyOf_leaves h (fun t he => .of_mode (hj t he)) raised
  cases i with
  | nop => exact .go h
  | reset => exact .go (.of_mode nofun)
  | tabstart => exact .go (fun _ => by simp [startTable])
  | tabb b => exact parseByte_parserOk b (by simpa [accepts] using ha) h
  | tabend => exact .raised (.of_mode nofun)
  | encstart | encend | decstart | decend => exact idle (fun t he => by rw [he.1]; nofun)
  | _ =>
    have hm : s.mode ≠ .loadtab := by intro e; simp [accepts, e] at ha
    exact idle (fun t he => by rw [he.1]; exact hm)

/-- Settles O57: each parser state hands its successor what the successor asks, `entry_done` in one place. -/
theorem stepKeepsTheParser : Obligations.StepKeepsTheParser := by
  unfold Obligations.StepKeepsTheParser
  intro s t
  refine step_keeps_of_core (fun _ => Iff.rfl) ?_ ?_ (fun i s _ => bodyOf_parserOk i s)
  · exact .of_mode nofun
  · exact fun s c sub info _ _ => .of_mode nofun

end Sys2Proof.Machine
end

section
/-! SUPPORT. The forest of `BUILD` (R162, R167): between two merges the queue's members are the roots of disjoint strict
trees that hold every node, and their weights add up to the total. -/

namespace Sys2Proof.Machine

/-- What every merge keeps, the loop keeps (R162). -/
theorem mergeAll_keeps {P : List Handle → List Node → Prop}
    (hOnce : ∀ {q nodes q' nodes'}, P q nodes → mergeOnce q nodes = some (q', nodes') → P q' nodes')
    (fuel : Nat) {q : List Handle} {nodes : List Node} (h : P q nodes) :
    P (mergeAll fuel q nodes).1 (mergeAll fuel q nodes).2 := by
  induction fuel generalizing q nodes with
  | zero => exact h
  | succ fuel ih =>
    unfold mergeAll
    split
    · exact h
    · rename_i e
      exact ih (hOnce h e)

/-- The two extracted handles and the others make up the queue (R162). -/
theorem mergeOnce_perm {q q' : List Handle} {nodes nodes' : List Node} (e : mergeOnce q nodes = some (q', nodes')) :
    ∃ a b rest, q.Perm (a :: b :: rest) ∧ q' = rest ++ [nextHandle nodes] ∧
      nodes' = nodes ++ [.internal (weightAt nodes a + weightAt nodes b) a b] := by
  obtain ⟨a, b, ha, hb, rfl, rfl⟩ := mergeOnce_some e
  exact ⟨a, b, _, (List.perm_cons_erase ha).trans ((List.perm_cons_erase hb).cons a), rfl, rfl⟩

theorem extractMin_ne_none {nodes : List Node} {q : List Handle} (h : q ≠ []) : extractMin nodes q ≠ none := by
  cases q with
  | nil => exact absurd rfl h
  | cons a q => exact nofun

/-- The loop goes on while the queue holds two (R162). -/
theorem length_le_one_of_mergeOnce_none {q : List Handle} {nodes : List Node} (e : mergeOnce q nodes = none) :
    q.length ≤ 1 := by
  unfold mergeOnce at e
  split at e
  · rename_i h
    by_contra hq
    exact extractMin_ne_none (by rintro rfl; simp at hq) h
  · rename_i a q₁ ha
    split at e
    · rename_i h
      obtain ⟨haq, rfl, -⟩ := extractMin_spec ha
      have hlen := List.length_erase_add_one haq
      have hnil : q.erase a = [] := by
        by_contra hq
        exact extractMin_ne_none hq h
      simp only [hnil, List.length_nil] at hlen
      omega
    · cases e

/-- The fuel suffices: the loop ends with at most one handle (R162). -/
theorem length_mergeAll_le_one (fuel : Nat) {q : List Handle} {nodes : List Node} (h : q.length ≤ fuel) :
    (mergeAll fuel q nodes).1.length ≤ 1 := by
  induction fuel generalizing q nodes with
  | zero => exact h.trans (by decide)
  | succ fuel ih =>
    unfold mergeAll
    split
    · rename_i e
      exact length_le_one_of_mergeOnce_none e
    · rename_i q' nodes' e
      obtain ⟨a, b, rest, hperm, rfl, -⟩ := mergeOnce_perm e
      have hlen := hperm.length_eq
      refine ih ?_
      simp only [List.length_append, List.length_cons, List.length_nil] at hlen ⊢
      omega

/-- In a closed arena, an allocation changes no path from an allocated node (R33). -/
theorem descend_append_of_closed {nodes more : List Node}
    (hclosed : ∀ i t, childAt nodes i t ≠ Config.nil → (childAt nodes i t).toNat < nodes.length)
    {h : Handle} (hlt : h.toNat < nodes.length) (p : BitSeq) :
    descend (nodes ++ more) h p = descend nodes h p := by
  induction p generalizing h with
  | nil =>
    have hlt' : h.toNat < (nodes ++ more).length := by
      rw [List.length_append]
      omega
    simp only [descend, hlt, hlt']
  | cons b p ih =>
    unfold descend
    rw [nodeAt_append hlt]
    split
    · rfl
    · split
      · rename_i w l r hn
        have hchild : childAt nodes h.toNat b = if b then r else l := by
          rw [childAt_of_nodeAt hn, child_internal]
        by_cases hnil : (if b then r else l) = Config.nil
        · rw [hnil, descend_of_nil, descend_of_nil]
        · have := hclosed h.toNat b
          rw [hchild] at this
          exact ih (this hnil)
      · rfl

/-- The nodes after an allocation: the old ones and the new one (R33). -/
theorem lt_or_eq_nextHandle {nodes : List Node} {n : Node} {h : Handle} (hlen : nodes.length < 512)
    (hlt : h.toNat < (nodes ++ [n]).length) : h.toNat < nodes.length ∨ h = nextHandle nodes := by
  have hnew := nextHandle_toNat hlen
  rw [List.length_append, List.length_singleton] at hlt
  by_cases hold : h.toNat < nodes.length
  · exact .inl hold
  · exact .inr (BitVec.eq_of_toNat_eq (by omega))

/-- The queue's members are the roots of disjoint strict trees that hold every node (R35). -/
structure Forest (k : Nat) (q : List Handle) (nodes : List Node) : Prop where
  merge : MergeOk k q nodes
  queue_ne : 0 < k → q ≠ []
  nodup : q.Nodup
  strict : ∀ h w l r, nodeAt nodes h = some (.internal w l r) → l ≠ Config.nil ∧ r ≠ Config.nil
  reached : ∀ h : Handle, h.toNat < nodes.length → ∃ g ∈ q, ∃ p, descend nodes g p = some h
  once : ∀ g ∈ q, ∀ g' ∈ q, ∀ p p' h,
    descend nodes g p = some h → descend nodes g' p' = some h → g = g' ∧ p = p'

/-- Where a path starts, and how it reads, once `a` and `b` are the children of `n`. -/
def liftPath (a b n g : Handle) (p : BitSeq) : Handle × BitSeq :=
  if g = a then (n, false :: p) else if g = b then (n, true :: p) else (g, p)

section Merge
variable {k : Nat} {q rest : List Handle} {nodes : List Node} {a b : Handle} {w : Word}

theorem Forest.length_lt (hk : k ≤ Config.nsyms) (h : Forest k q nodes) (hq : q.Perm (a :: b :: rest)) :
    nodes.length < 511 := by
  have hbal := h.merge.balance
  have hlen := hq.length_eq
  simp only [List.length_cons] at hlen
  simp only [Config.nsyms] at hk
  omega

theorem Forest.child_lt_length (h : Forest k q nodes) (i : Nat) (t : Bool) (hne : childAt nodes i t ≠ Config.nil) :
    (childAt nodes i t).toNat < nodes.length :=
  (h.merge.child_lt i t hne).2.trans (lt_of_childAt_ne_nil hne)

/-- Every path of the old forest is one of the new, from its lifted start. -/
theorem Forest.descend_lift (hk : k ≤ Config.nsyms) (h : Forest k q nodes) (hq : q.Perm (a :: b :: rest)) {g : Handle}
    (hg : g ∈ q) (p : BitSeq) :
    (liftPath a b (nextHandle nodes) g p).1 ∈ rest ++ [nextHandle nodes] ∧
      descend (nodes ++ [.internal w a b]) (liftPath a b (nextHandle nodes) g p).1
        (liftPath a b (nextHandle nodes) g p).2 = descend nodes g p := by
  have hlen := h.length_lt hk hq
  have hold := descend_append_of_closed (more := [.internal w a b]) h.child_lt_length (h.merge.queue_lt g hg) p
  have hnew := nodeAt_new (.internal w a b) (nodes := nodes) (by omega)
  have hne := nextHandle_ne_nil hlen
  unfold liftPath
  split
  · rename_i hga
    exact ⟨by simp, by rw [descend_internal hne hnew, ← hold, hga]; rfl⟩
  · rename_i hga
    split
    · rename_i hgb
      exact ⟨by simp, by rw [descend_internal hne hnew, ← hold, hgb]; rfl⟩
    · rename_i hgb
      have hmem := hq.mem_iff.mp hg
      simp only [List.mem_cons, hga, hgb, false_or] at hmem
      exact ⟨by simp [hmem], hold⟩

/-- The new forest has no other paths, but the empty one to the new node. -/
theorem Forest.descend_merged (hk : k ≤ Config.nsyms) (h : Forest k q nodes) (hq : q.Perm (a :: b :: rest))
    {g g' : Handle} {p : BitSeq} (hg : g ∈ rest ++ [nextHandle nodes])
    (e : descend (nodes ++ [.internal w a b]) g p = some g') :
    (g' = nextHandle nodes ∧ (g, p) = (nextHandle nodes, [])) ∨
      ∃ g₀ ∈ q, ∃ p₀, descend nodes g₀ p₀ = some g' ∧ (g, p) = liftPath a b (nextHandle nodes) g₀ p₀ := by
  have hlen := h.length_lt hk hq
  have hnew := nodeAt_new (.internal w a b) (nodes := nodes) (by omega)
  have hne := nextHandle_ne_nil hlen
  have hnd := hq.nodup_iff.mp h.nodup
  simp only [List.nodup_cons, List.mem_cons, not_or] at hnd
  obtain ⟨⟨hab, ha⟩, hb, -⟩ := hnd
  have hold : ∀ g ∈ q, ∀ p, descend (nodes ++ [.internal w a b]) g p = descend nodes g p :=
    fun g hg p => descend_append_of_closed h.child_lt_length (h.merge.queue_lt g hg) p
  have haq : a ∈ q := hq.mem_iff.mpr (by simp)
  have hbq : b ∈ q := hq.mem_iff.mpr (by simp)
  rcases List.mem_append.mp hg with hg | hg
  · have hgq : g ∈ q := hq.mem_iff.mpr (by simp [hg])
    refine .inr ⟨g, hgq, p, by rw [← hold g hgq]; exact e, ?_⟩
    have hga : g ≠ a := by rintro rfl; exact ha hg
    have hgb : g ≠ b := by rintro rfl; exact hb hg
    simp [liftPath, hga, hgb]
  · obtain rfl := List.mem_singleton.mp hg
    cases p with
    | nil =>
      refine .inl ⟨?_, rfl⟩
      rw [descend_nil hne (nodeAt_lt hnew)] at e
      exact (Option.some.inj e).symm
    | cons t p =>
      rw [descend_internal hne hnew] at e
      cases t with
      | false => exact .inr ⟨a, haq, p, by rw [← hold a haq]; exact e, by simp [liftPath]⟩
      | true => exact .inr ⟨b, hbq, p, by rw [← hold b hbq]; exact e, by simp [liftPath, Ne.symm hab]⟩

/-- Each node still has one path: two paths to it come from two old ones, which are the same. -/
theorem Forest.once_merged (hk : k ≤ Config.nsyms) (h : Forest k q nodes) (hq : q.Perm (a :: b :: rest))
    {g g' x : Handle} {p p' : BitSeq} (hg : g ∈ rest ++ [nextHandle nodes]) (hg' : g' ∈ rest ++ [nextHandle nodes])
    (e : descend (nodes ++ [.internal w a b]) g p = some x)
    (e' : descend (nodes ++ [.internal w a b]) g' p' = some x) : g = g' ∧ p = p' := by
  have hold : ∀ g₀ p₀, descend nodes g₀ p₀ = some x → x ≠ nextHandle nodes := by
    rintro g₀ p₀ hd rfl
    have hlt := (descend_allocated hd).2
    rw [nextHandle_toNat (by have := h.length_lt hk hq; omega)] at hlt
    exact Nat.lt_irrefl _ hlt
  rcases h.descend_merged hk hq hg e with ⟨hx, h₁⟩ | ⟨g₁, hg₁, p₁, hd₁, h₁⟩ <;>
    rcases h.descend_merged hk hq hg' e' with ⟨hx', h₂⟩ | ⟨g₂, hg₂, p₂, hd₂, h₂⟩
  · exact Prod.mk.inj (h₁.trans h₂.symm)
  · exact absurd hx (hold _ _ hd₂)
  · exact absurd hx' (hold _ _ hd₁)
  · obtain ⟨rfl, rfl⟩ := h.once g₁ hg₁ g₂ hg₂ p₁ p₂ x hd₁ hd₂
    exact Prod.mk.inj (h₁.trans h₂.symm)

end Merge

theorem Forest.mergeOnce {k : Nat} (hk : k ≤ Config.nsyms) {q q' : List Handle} {nodes nodes' : List Node}
    (h : Forest k q nodes) (e : Machine.mergeOnce q nodes = some (q', nodes')) : Forest k q' nodes' := by
  have hmerge := h.merge.mergeOnce hk e
  obtain ⟨a, b, rest, hq, rfl, rfl⟩ := mergeOnce_perm e
  have hlen := h.length_lt hk hq
  have hnew : (nextHandle nodes).toNat = nodes.length := nextHandle_toNat (by omega)
  have hlt : ∀ g ∈ q, g.toNat < nodes.length := h.merge.queue_lt
  have hnil : ∀ g ∈ q, g ≠ Config.nil := by
    rintro g hg rfl
    have : (511 : Nat) < nodes.length := hlt _ hg
    omega
  refine ⟨hmerge, fun _ => by simp, ?_, ?_, ?_, ?_⟩
  · have hnd := hq.nodup_iff.mp h.nodup
    refine (List.perm_append_singleton _ rest).nodup_iff.mpr (List.nodup_cons.mpr ⟨fun hmem => ?_, ?_⟩)
    · have hmem' : nextHandle nodes ∈ q := hq.mem_iff.mpr (by simp [hmem])
      have := hlt _ hmem'
      omega
    · exact (List.nodup_cons.mp (List.nodup_cons.mp hnd).2).2
  · intro g w l r hg
    rcases lt_or_eq_nextHandle (by omega) (nodeAt_lt hg) with hold | rfl
    · rw [nodeAt_append hold] at hg
      exact h.strict g w l r hg
    · rw [nodeAt_new _ (by omega)] at hg
      cases hg
      exact ⟨hnil a (hq.mem_iff.mpr (by simp)), hnil b (hq.mem_iff.mpr (by simp))⟩
  · intro g hg
    rcases lt_or_eq_nextHandle (by omega) hg with hold | rfl
    · obtain ⟨g₀, hg₀, p, hp⟩ := h.reached g hold
      obtain ⟨hmem, hd⟩ := h.descend_lift hk hq hg₀ p
      exact ⟨_, hmem, _, hd.trans hp⟩
    · exact ⟨nextHandle nodes, by simp, [], descend_nil (nextHandle_ne_nil hlen) hg⟩
  · exact fun g hg g' hg' p p' x e e' => h.once_merged hk hq hg hg' e e'

/-- Before the first merge every leaf is a tree of its own (R162). -/
theorem forest_leaves (s : State) : Forest (leafNodes s).length (leafHandles (leafNodes s)) (leafNodes s) := by
  have hmerge := mergeOk_leaves s
  have hk : (leafNodes s).length ≤ 256 := length_leafNodes_le s
  have leaf : ∀ {g h p}, descend (leafNodes s) g p = some h → p = [] ∧ g = h := by
    intro g h p e
    cases p with
    | nil =>
      unfold descend at e
      split at e
      · exact ⟨rfl, Option.some.inj e⟩
      · cases e
    | cons b p =>
      have e' := descend_cons e
      rw [childAt_leafNodes, descend_of_nil] at e'
      cases e'
  refine ⟨hmerge, fun hpos hnil => ?_, ?_, ?_, ?_, ?_⟩
  · have := congrArg List.length hnil
    simp [leafHandles] at this
    simp [this] at hpos
  · refine List.Nodup.map_on ?_ List.nodup_range
    intro i hi j hj e
    have hi := List.mem_range.mp hi
    have hj := List.mem_range.mp hj
    have := congrArg BitVec.toNat e
    simp only [BitVec.toNat_ofNat] at this
    omega
  · intro h w l r hn
    obtain ⟨x, -, hx⟩ := List.mem_filterMap.mp (List.mem_of_getElem? hn)
    split at hx <;> cases hx
  · intro h hlt
    refine ⟨h, List.mem_map.mpr ⟨h.toNat, List.mem_range.mpr hlt, by simp⟩, [], descend_nil ?_ hlt⟩
    rintro rfl
    have : (511 : Nat) < (leafNodes s).length := hlt
    omega
  · intro g _ g' _ p p' h e e'
    obtain ⟨rfl, rfl⟩ := leaf e
    obtain ⟨rfl, rfl⟩ := leaf e'
    exact ⟨rfl, rfl⟩

/-- The weights of the queue's members add up to `total` (R167). -/
def QueueWeighs (total : Nat) (q : List Handle) (nodes : List Node) : Prop :=
  (q.map (fun h => (weightAt nodes h).toNat)).sum = total

/-- A merge keeps the sum: the parent weighs what the two extracted nodes weigh together, without overflow (R162). -/
theorem QueueWeighs.mergeOnce {total : Nat} (hT : total ≤ Config.cmax) {q q' : List Handle} {nodes nodes' : List Node}
    (hlen : nodes.length < 512) (hlt : ∀ h ∈ q, h.toNat < nodes.length) (h : QueueWeighs total q nodes)
    (e : Machine.mergeOnce q nodes = some (q', nodes')) : QueueWeighs total q' nodes' := by
  obtain ⟨a, b, rest, hq, rfl, rfl⟩ := mergeOnce_perm e
  unfold QueueWeighs at *
  rw [(hq.map _).sum_eq, List.map_cons, List.map_cons, List.sum_cons, List.sum_cons] at h
  have hrest : ∀ g ∈ rest, g.toNat < nodes.length := fun g hg => hlt g (hq.mem_iff.mpr (by simp [hg]))
  have hold : rest.map (fun g => (weightAt (nodes ++ [.internal (weightAt nodes a + weightAt nodes b) a b]) g).toNat) =
      rest.map (fun g => (weightAt nodes g).toNat) :=
    List.map_congr_left (fun g hg => by rw [weightAt_append (hrest g hg)])
  have hnew : weightAt (nodes ++ [.internal (weightAt nodes a + weightAt nodes b) a b]) (nextHandle nodes) =
      weightAt nodes a + weightAt nodes b := by
    unfold weightAt
    rw [nodeAt_new _ hlen]
    rfl
  have hadd : (weightAt nodes a + weightAt nodes b).toNat = (weightAt nodes a).toNat + (weightAt nodes b).toNat := by
    rw [BitVec.toNat_add]
    simp only [Config.cmax] at hT
    omega
  rw [List.map_append, List.sum_append, hold, List.map_singleton, List.sum_singleton, hnew, hadd]
  omega

/-- The leaves weigh what their symbols count (R162). -/
theorem sum_weights_leafNodes (s : State) : ((leafNodes s).map (fun n => n.weight.toNat)).sum = freqTotal s := by
  unfold leafNodes freqTotal
  generalize allSyms = xs
  induction xs with
  | nil => rfl
  | cons x xs ih =>
    rw [List.filterMap_cons, List.map_cons, List.sum_cons, ← ih]
    by_cases hx : freqOf s x = 0#32
    · simp [hx]
    · simp [hx, Node.weight]

theorem queueWeighs_leaves (s : State) :
    QueueWeighs (freqTotal s) (leafHandles (leafNodes s)) (leafNodes s) := by
  have hk : (leafNodes s).length ≤ 256 := length_leafNodes_le s
  unfold QueueWeighs
  rw [← sum_weights_leafNodes, leafHandles, List.map_map]
  congr 1
  apply List.ext_getElem
  · simp
  · intro i h₁ h₂
    have hi : i < (leafNodes s).length := by simpa using h₂
    have hmod : i % 512 = i := Nat.mod_eq_of_lt (by omega)
    simp [weightAt, nodeAt, hmod, hi]

end Sys2Proof.Machine
end

section
/-! PROOFS. The tree of `BUILD` (R35, R167). -/

namespace Sys2Proof.Machine

theorem isInternal_iff (nodes : List Node) (h : Handle) :
    isInternal nodes h = true ↔ ∃ w l r, nodeAt nodes h = some (.internal w l r) := by
  unfold isInternal
  split <;> simp_all

/-- The queue and the arena after the last merge (R162). -/
def merged (s : State) : List Handle × List Node :=
  mergeAll (leafNodes s).length (leafHandles (leafNodes s)) (leafNodes s)

theorem forest_merged (s : State) : Forest (leafNodes s).length (merged s).1 (merged s).2 :=
  mergeAll_keeps (fun h e => h.mergeOnce (length_leafNodes_le s) e) _ (forest_leaves s)

theorem queueWeighs_merged {s : State} (hT : freqTotal s ≤ Config.cmax) :
    QueueWeighs (freqTotal s) (merged s).1 (merged s).2 := by
  have hk := length_leafNodes_le s
  refine (mergeAll_keeps (P := fun q nodes => Forest (leafNodes s).length q nodes ∧ QueueWeighs (freqTotal s) q nodes)
    ?_ _ ⟨forest_leaves s, queueWeighs_leaves s⟩).2
  intro q nodes q' nodes' ⟨hf, hw⟩ e
  obtain ⟨a, b, rest, hq, -, -⟩ := mergeOnce_perm e
  exact ⟨hf.mergeOnce hk e, hw.mergeOnce hT (by have := hf.length_lt hk hq; omega) hf.merge.queue_lt e⟩

/-- One handle is left, or none where there was no leaf (R162). -/
theorem merged_queue (s : State) : (merged s).1 = [] ∨ ∃ r, (merged s).1 = [r] := by
  have hlen : (merged s).1.length ≤ 1 := length_mergeAll_le_one _ (by simp [leafHandles])
  rcases hq : (merged s).1 with _ | ⟨r, _ | ⟨g, q⟩⟩
  · exact .inl rfl
  · exact .inr ⟨r, rfl⟩
  · simp [hq] at hlen

theorem length_merged (s : State) : (merged s).2.length ≤ Config.nodeCap := by
  have hf := forest_merged s
  have hbal := hf.merge.balance
  have hk : (leafNodes s).length ≤ 256 := length_leafNodes_le s
  have hne : 0 < (leafNodes s).length → 0 < (merged s).1.length := fun h => List.length_pos_iff.mpr (hf.queue_ne h)
  simp only [Config.nodeCap]
  omega

/-- The state `BUILD` leaves when the counts fit (R162). -/
theorem buildTree_merged {s : State} (h : ¬ Config.cmax < freqTotal s) :
    buildTree s = .go { s with
      nodes := (merged s).2, root := rootOf (merged s).1, table := [], nent := BitVec.ofNat 9 (leafNodes s).length,
      nsym := BitVec.ofNat 32 (freqTotal s), treev := true, tabv := false } := if_neg h

/-- Every inner node has two allocated children (R35 a, c). -/
theorem merged_strict (s : State) {m : Nat} (hm : m < (merged s).2.length)
    (hi : isInternal (merged s).2 (BitVec.ofNat 9 m) = true) (b : Bool) :
    childAt (merged s).2 m b ≠ Config.nil ∧ (childAt (merged s).2 m b).toNat < (merged s).2.length := by
  have hf := forest_merged s
  have hcap : (merged s).2.length ≤ 511 := length_merged s
  obtain ⟨w, l, r, hn⟩ := (isInternal_iff _ _).mp hi
  have hmod : (BitVec.ofNat 9 m).toNat = m := by
    rw [BitVec.toNat_ofNat]
    omega
  have hchild := childAt_of_nodeAt hn b
  rw [hmod, child_internal] at hchild
  obtain ⟨hl, hr⟩ := hf.strict _ _ _ _ hn
  have hne : childAt (merged s).2 m b ≠ Config.nil := by
    rw [hchild]
    cases b
    · exact hl
    · exact hr
  exact ⟨hne, hf.child_lt_length m b hne⟩

/-- Every node is reached from the root (R35 b). -/
theorem merged_reached (s : State) {h : Handle} (hlt : h.toNat < (merged s).2.length) :
    ∃ p, descend (merged s).2 (rootOf (merged s).1) p = some h := by
  obtain ⟨g, hg, p, hp⟩ := (forest_merged s).reached h hlt
  rcases merged_queue s with hq | ⟨r, hq⟩ <;> rw [hq] at hg ⊢
  · cases hg
  · obtain rfl := List.mem_singleton.mp hg
    exact ⟨p, hp⟩

/-- By one path only (R35 b). -/
theorem merged_once (s : State) {p q : BitSeq} {h : Handle}
    (hp : descend (merged s).2 (rootOf (merged s).1) p = some h)
    (hq : descend (merged s).2 (rootOf (merged s).1) q = some h) : p = q := by
  have honce := (forest_merged s).once
  rcases merged_queue s with hr | ⟨r, hr⟩ <;> rw [hr] at hp hq honce
  · simp [rootOf] at hp
  · exact (honce r (by simp) r (by simp) p q h hp hq).2

/-- The root weighs all counts together (R167). -/
theorem merged_weight {s : State} (hT : freqTotal s ≤ Config.cmax) (hne : rootOf (merged s).1 ≠ Config.nil) :
    weightAt (merged s).2 (rootOf (merged s).1) = BitVec.ofNat 32 (freqTotal s) := by
  have hw := queueWeighs_merged hT
  unfold QueueWeighs at hw
  rcases merged_queue s with hq | ⟨r, hq⟩ <;> rw [hq] at hne hw ⊢
  · exact absurd rfl hne
  · rw [← hw]
    simp [rootOf]

/-- Settles O15: after the last merge the forest of `BUILD` is one tree. -/
theorem buildTreeIsStrict : Obligations.BuildTreeIsStrict := by
  unfold Obligations.BuildTreeIsStrict
  intro s t hm h ht
  rw [exec_eq_command (by decide), command_accepts _ _ (by simp [hm]) (by simp [accepts, hm])] at h
  change (buildTree s).finish = _ at h
  rcases Nat.lt_or_ge Config.cmax (freqTotal s) with hT | hT
  · rw [buildTree_overflow hT] at h
    cases h
    exact absurd rfl ht
  · rw [buildTree_merged (Nat.not_lt.mpr hT)] at h
    cases h
    exact ⟨fun m hlt hi b => merged_strict s hlt hi b, fun h hlt => merged_reached s hlt,
      fun p q h hp hq => merged_once s hp hq, merged_weight hT⟩

end Sys2Proof.Machine
end

section
/-! SUPPORT. The pseudocodes that read the arena: from a sound tree none of them is stuck, and each leaves a sound tree
(R32, R35, R213). -/

namespace Sys2Proof.Machine

/-- The pseudocode comes to its end or to a `raise`, in a state that satisfies `P`. -/
def Flow.EndsIn (P : State → Prop) : Flow → Prop
  | .go s => P s
  | .raised s => P s
  | .stuck _ => False

theorem Flow.EndsIn.leaves {P : State → Prop} {r : Flow} (h : r.EndsIn P) : r.Leaves P := by
  cases r with
  | go s => exact .go h
  | raised s => exact .raised h
  | stuck f => exact h.elim

theorem Flow.EndsIn.not_stuck {P : State → Prop} {r : Flow} (h : r.EndsIn P) (f : Fault) : r ≠ .stuck f := by
  rintro rfl
  exact h

theorem Flow.EndsIn.mono {P Q : State → Prop} {r : Flow} (h : r.EndsIn P) (hPQ : ∀ s, P s → Q s) :
    r.EndsIn Q := by
  cases r with
  | go s => exact hPQ s h
  | raised s => exact hPQ s h
  | stuck f => exact h.elim

theorem Flow.EndsIn.bind {P : State → Prop} {r : Flow} {k : State → Flow} (hr : r.EndsIn P)
    (hk : ∀ s, P s → (k s).EndsIn P) : (r.bind k).EndsIn P := by
  cases r with
  | go s => exact hk s hr
  | raised s => exact hr
  | stuck f => exact hr.elim

/-! ### The arena -/

theorem exists_nodeAt {nodes : List Node} {h : Handle} (hlt : h.toNat < nodes.length) :
    ∃ n, nodeAt nodes h = some n :=
  ⟨_, List.getElem?_eq_getElem hlt⟩

/-- Children below their parents: what `BUILD` makes (R33). -/
theorem arenaOk_of_child_lt {nodes : List Node} (hlen : nodes.length ≤ Config.nodeCap)
    (h : ∀ i t, childAt nodes i t ≠ Config.nil → (childAt nodes i t).toNat < i) : ArenaOk nodes := by
  refine ⟨hlen, fun i hi t => ?_, .inl (fun i _ t => or_iff_not_imp_left.mpr (h i t))⟩
  exact or_iff_not_imp_left.mpr (fun hne => (h i t hne).trans hi)

/-- Children above their parents: what `RECON` makes (R33). -/
theorem arenaOk_of_lt_child {nodes : List Node} (hlen : nodes.length ≤ Config.nodeCap)
    (h : ∀ i t, childAt nodes i t ≠ Config.nil → i < (childAt nodes i t).toNat ∧
      (childAt nodes i t).toNat < nodes.length) : ArenaOk nodes :=
  ⟨hlen, fun i _ t => or_iff_not_imp_left.mpr (fun hne => (h i t hne).2),
    .inr (fun i _ t => or_iff_not_imp_left.mpr (fun hne => (h i t hne).1))⟩

theorem ArenaOk.child_lt_length {nodes : List Node} (h : ArenaOk nodes) {i : Nat} {t : Bool}
    (hne : childAt nodes i t ≠ Config.nil) : (childAt nodes i t).toNat < nodes.length :=
  (h.2.1 i (lt_of_childAt_ne_nil hne) t).resolve_left hne

/-- A number below `NN` for each node that falls from parent to child: no node lies below itself (R35 b). -/
theorem ArenaOk.exists_room {nodes : List Node} (h : ArenaOk nodes) :
    ∃ room : Nat → Nat, (∀ i t, childAt nodes i t ≠ Config.nil → room (childAt nodes i t).toNat < room i) ∧
      ∀ i < nodes.length, room i < nodes.length := by
  rcases h.2.2 with hdown | hup
  · exact ⟨id, fun i t hne => (hdown i (lt_of_childAt_ne_nil hne) t).resolve_left hne, fun i hi => hi⟩
  · refine ⟨fun i => nodes.length - 1 - i, fun i t hne => ?_, fun i hi => ?_⟩
    · have hi := lt_of_childAt_ne_nil hne
      have hlt := (hup i hi t).resolve_left hne
      have hle := h.child_lt_length hne
      dsimp only
      omega
    · dsimp only
      omega

/-! ### `GENTAB` -/

theorem bothCodes_completes {a b : Except Fault Codes} (ha : ∃ xs, a = .ok xs) (hb : ∃ ys, b = .ok ys) :
    ∃ cs, bothCodes a b = .ok cs := by
  obtain ⟨xs, rfl⟩ := ha
  obtain ⟨ys, rfl⟩ := hb
  exact ⟨xs ++ ys, rfl⟩

/-- More fuel than room below the node suffices (R181). -/
theorem walk_completes {nodes : List Node} (harena : ArenaOk nodes) {room : Nat → Nat}
    (hroom : ∀ i t, childAt nodes i t ≠ Config.nil → room (childAt nodes i t).toNat < room i)
    {fuel : Nat} {h : Handle} (path : BitSeq) (hlt : h.toNat < nodes.length) (hfuel : room h.toNat < fuel) :
    ∃ cs, walk nodes fuel h path = .ok cs := by
  induction fuel generalizing h path with
  | zero => omega
  | succ fuel ih =>
    obtain ⟨n, hn⟩ := exists_nodeAt hlt
    unfold walk
    rw [hn]
    cases n with
    | leaf x w => exact ⟨_, rfl⟩
    | internal w l r =>
      have below : ∀ (t : Bool) (c : Handle), c = (if t then r else l) → c ≠ Config.nil →
          ∃ cs, walk nodes fuel c (path ++ [t]) = .ok cs := by
        intro t c hc hne
        have hchild : childAt nodes h.toNat t = c := by rw [childAt_of_nodeAt hn, child_internal, hc]
        have hne' : childAt nodes h.toNat t ≠ Config.nil := by rwa [hchild]
        have hdrop := hroom h.toNat t hne'
        have hlt' := harena.child_lt_length hne'
        rw [hchild] at hdrop hlt'
        exact ih (path ++ [t]) hlt' (by omega)
      refine bothCodes_completes ?_ ?_
      · split
        · exact ⟨[], rfl⟩
        · rename_i hne
          exact below false l rfl hne
      · split
        · exact ⟨[], rfl⟩
        · rename_i hne
          exact below true r rfl hne

theorem genTable_not_stuck {s : State} (h : TreeOk s) (f : Fault) : genTable s ≠ .stuck f := by
  obtain ⟨harena, hroot, -⟩ := h
  have hcodes : ∃ cs, treeCodes s = .ok cs := by
    unfold treeCodes
    split
    · exact ⟨[], rfl⟩
    · rename_i hne
      obtain ⟨room, hfalls, hbound⟩ := harena.exists_room
      have hlt := hroot.resolve_left hne
      exact walk_completes harena hfalls [] hlt (hbound _ hlt)
  obtain ⟨cs, hcs⟩ := hcodes
  unfold genTable
  rw [hcs]
  nofun

/-! ### The decoder -/

/-- The tree and the decoder's pointer, whatever the mode (R35 a, R213). -/
def DecoderOk (s : State) : Prop :=
  ArenaOk s.nodes ∧ (s.root = Config.nil ∨ s.root.toNat < s.nodes.length) ∧
  (s.rem ≠ 0#32 → isInternal s.nodes s.root = true ∧ isInternal s.nodes s.cur = true)

theorem DecoderOk.treeOk {s : State} (h : DecoderOk s) : TreeOk s := ⟨h.1, h.2.1, fun _ => h.2.2⟩

theorem TreeOk.decoderOk {s : State} (h : TreeOk s) (hm : s.mode = .dec) : DecoderOk s := ⟨h.1, h.2.1, h.2.2 hm⟩

theorem treeOk_reset : TreeOk State.reset :=
  ⟨arenaOk_of_child_lt (Nat.zero_le _) (fun _ _ hne => absurd rfl hne), .inl rfl, nofun⟩

/-- Outside `DEC` only the arena and `ROOT` matter. -/
theorem TreeOk.of_nodes {s t : State} (h : TreeOk s) (hnodes : t.nodes = s.nodes) (hroot : t.root = s.root)
    (hm : t.mode ≠ .dec) : TreeOk t := by
  refine ⟨hnodes ▸ h.1, ?_, fun e => absurd e hm⟩
  rw [hnodes, hroot]
  exact h.2.1

theorem TreeOk.raised {s : State} (h : TreeOk s) (c : ErrCode) (sub : BitVec 4) (info : Word) :
    TreeOk (s.raised c sub info) := h.of_nodes rfl rfl nofun

/-- The pointer stands on an inner node, so a bit moves it to an allocated child or finds none (R216). -/
theorem decodeBit_decoderOk (b : Bool) {s : State} (h : DecoderOk s) : (decodeBit b s).EndsIn DecoderOk := by
  obtain ⟨harena, hroot, hcur⟩ := h
  unfold decodeBit
  split
  · exact ⟨harena, hroot, hcur⟩
  · rename_i hrem
    obtain ⟨hr, hc⟩ := hcur hrem
    obtain ⟨w, l, r, hn⟩ := (isInternal_iff _ _).mp hc
    have hchild := childAt_of_nodeAt hn b
    rw [hn]
    dsimp only
    split
    · exact ⟨harena, hroot, hcur⟩
    · rename_i hne
      rw [← hchild] at hne ⊢
      obtain ⟨m, hm⟩ := exists_nodeAt (harena.child_lt_length hne)
      rw [hm]
      cases m with
      | internal w' l' r' => exact ⟨harena, hroot, fun _ => ⟨hr, (isInternal_iff _ _).mpr ⟨_, _, _, hm⟩⟩⟩
      | leaf x w' =>
        refine ⟨?_, ?_, fun _ => ?_⟩
        · simpa [arriveAt] using harena
        · simpa [arriveAt] using hroot
        · simpa [arriveAt] using hr

theorem decodeBits_decoderOk (c : BitSeq) {s : State} (h : DecoderOk s) : (decodeBits c s).EndsIn DecoderOk := by
  induction c generalizing s with
  | nil => exact h
  | cons b c ih => exact (decodeBit_decoderOk b h).bind (fun _ ht => ih ht)

theorem startDecoding_treeOk {s : State} (h : TreeOk s) : (startDecoding s).EndsIn TreeOk := by
  obtain ⟨harena, hroot, -⟩ := id h
  unfold startDecoding
  split
  · exact ⟨harena, hroot, fun _ hrem => absurd rfl hrem⟩
  · split
    · exact h.raised _ _ _
    · rename_i hne
      obtain ⟨n, hn⟩ := exists_nodeAt (hroot.resolve_left hne)
      rw [hn]
      cases n with
      | internal w l r =>
        have hi := (isInternal_iff _ _).mpr ⟨w, l, r, hn⟩
        exact ⟨harena, hroot, fun _ _ => ⟨hi, hi⟩⟩
      | leaf x w => exact ⟨by simpa using harena, by simpa using hroot, fun _ hrem => absurd rfl hrem⟩

/-! ### `RECON` -/

/-- The tree while `RECON` builds it: every child stands above its parent (R245). -/
structure Rising (s : State) : Prop where
  mode : s.mode ≠ .dec
  length_le : s.nodes.length ≤ Config.nodeCap
  root : s.root = Config.nil ∨ s.root.toNat < s.nodes.length
  child : ∀ i t, childAt s.nodes i t ≠ Config.nil →
    i < (childAt s.nodes i t).toNat ∧ (childAt s.nodes i t).toNat < s.nodes.length

theorem Rising.treeOk {s : State} (h : Rising s) : TreeOk s :=
  ⟨arenaOk_of_lt_child h.length_le h.child, h.root, fun hm => absurd hm h.mode⟩

theorem Rising.raise {s : State} (h : Rising s) (c : ErrCode) (sub : BitVec 4) (info : Word) :
    (raise c sub info s).EndsIn Rising := ⟨nofun, h.length_le, h.root, h.child⟩

/-- The slot is `ROOT` or a child field of an allocated node (R245). -/
def SlotAllocated (s : State) : Slot → Prop
  | .root => True
  | .child p _ => p.toNat < s.nodes.length

/-- What stands in a slot is allocated (R245). -/
theorem Rising.slotVal {s : State} (h : Rising s) {slot : Slot} (hne : slotVal slot s ≠ Config.nil) :
    (slotVal slot s).toNat < s.nodes.length := by
  cases slot with
  | root => exact h.root.resolve_left hne
  | child p t => exact (h.child p.toNat t hne).2

/-- The children after an allocation into a child field (R245). -/
theorem childAt_allocInto_child (p : Handle) (b : Bool) (n : Node) (s : State) (i : Nat) (t : Bool) :
    (i = p.toNat ∧ childAt (allocInto (.child p b) n s).nodes i t = nextHandle s.nodes) ∨
      childAt (allocInto (.child p b) n s).nodes i t = childAt (s.nodes ++ [n]) i t :=
  childAt_modify _ _ _ _ _ _

/-- A new node stands above every slot it can be written to (R33, R245). -/
theorem Rising.allocInto {s : State} (h : Rising s) {slot : Slot} (hslot : SlotAllocated s slot)
    (hfull : ¬ arenaFull s.nodes = true) {n : Node} (hn : ∀ t, n.child t = Config.nil) :
    Rising (allocInto slot n s) ∧ (nextHandle s.nodes).toNat < (allocInto slot n s).nodes.length := by
  have hlt : s.nodes.length < 511 := Nat.lt_of_not_le (of_decide_eq_false (Bool.eq_false_of_not_eq_true hfull))
  have hnew : (nextHandle s.nodes).toNat = s.nodes.length := nextHandle_toNat (by omega)
  have hlen := length_allocInto slot n s
  have hold : ∀ i t, childAt (s.nodes ++ [n]) i t ≠ Config.nil →
      i < (childAt (s.nodes ++ [n]) i t).toNat ∧ (childAt (s.nodes ++ [n]) i t).toNat < s.nodes.length + 1 := by
    intro i t
    rw [childAt_append]
    split
    · exact fun hne => absurd (hn t) hne
    · exact fun hne => ⟨(h.child i t hne).1, Nat.lt_succ_of_lt (h.child i t hne).2⟩
  refine ⟨⟨?_, ?_, ?_, ?_⟩, by omega⟩
  · rw [allocInto_frame]
    exact h.mode
  · rw [hlen]
    exact hlt
  · rw [hlen]
    cases slot with
    | root => exact .inr (hnew.trans_lt (Nat.lt_succ_self _))
    | child p b => exact h.root.imp_right Nat.lt_succ_of_lt
  · rw [hlen]
    cases slot with
    | root => exact hold
    | child p b =>
      intro i t
      rcases childAt_allocInto_child p b n s i t with ⟨rfl, e⟩ | e
      · rw [e, hnew]
        exact fun _ => ⟨hslot, Nat.lt_succ_self _⟩
      · rw [e]
        exact hold i t

theorem place_rising (x : Byte) (c : BitSeq) {slot : Slot} {s : State} (h : Rising s) (hslot : SlotAllocated s slot) :
    (place x c slot s).EndsIn Rising := by
  induction c generalizing slot s with
  | nil =>
    unfold place
    split
    · exact h.raise _ _ _
    · split
      · exact h.raise _ _ _
      · rename_i hfull
        exact (h.allocInto hslot hfull (by simp)).1
  | cons b c ih =>
    unfold place
    split
    · split
      · exact h.raise _ _ _
      · rename_i hfull
        obtain ⟨h', hlt⟩ := h.allocInto hslot hfull (n := .internal 0#32 Config.nil Config.nil) (by simp)
        exact ih h' hlt
    · rename_i hne
      have hlt := h.slotVal hne
      obtain ⟨n, hn⟩ := exists_nodeAt hlt
      rw [hn]
      cases n with
      | leaf y w => exact h.raise _ _ _
      | internal w l r => exact ih h hlt

theorem placeSyms_rising (xs : List Byte) {s : State} (h : Rising s) : (placeSyms xs s).EndsIn Rising := by
  induction xs generalizing s with
  | nil => exact h
  | cons x xs ih =>
    refine Flow.EndsIn.bind ?_ (fun _ ht => ih ht)
    unfold placeSym
    split
    · exact h
    · exact place_rising x _ h trivial

/-- `RECON` makes its tree from nothing (R245). -/
theorem reconTree_rising {s : State} (hm : s.mode ≠ .dec) : (reconTree s).EndsIn Rising := by
  have hstart : Rising { s with treev := false, nodes := [], root := Config.nil } :=
    ⟨hm, Nat.zero_le _, .inl rfl, fun i t hne => absurd rfl hne⟩
  exact (placeSyms_rising allSyms hstart).bind (fun t ht => ⟨ht.mode, ht.length_le, ht.root, ht.child⟩)

/-! ### `BUILD` -/

theorem buildTree_treeOk {s : State} (hm : s.mode ≠ .dec) (h : TreeOk s) : (buildTree s).Leaves TreeOk := by
  rcases Nat.lt_or_ge Config.cmax (freqTotal s) with hT | hT
  · rw [buildTree_overflow hT]
    exact .raised (h.raised _ _ _)
  · rw [buildTree_merged (Nat.not_lt.mpr hT)]
    have hmerge := (forest_merged s).merge
    have harena : ArenaOk (merged s).2 :=
      arenaOk_of_child_lt (length_merged s) (fun i t hne => (hmerge.child_lt i t hne).2)
    have hroot : rootOf (merged s).1 = Config.nil ∨ (rootOf (merged s).1).toNat < (merged s).2.length := by
      rcases merged_queue s with hq | ⟨r, hq⟩
      · exact .inl (by rw [hq]; rfl)
      · exact .inr (hmerge.queue_lt _ (by simp [hq, rootOf]))
    exact .go ⟨harena, hroot, fun e => absurd e hm⟩

end Sys2Proof.Machine
end

section
/-! PROOFS. The tree stays sound and the model never stops (R32, R35, R213). -/

namespace Sys2Proof.Machine

theorem bodyOf_treeOk (i : Instr) (s : State) (ha : accepts i s = true) (h : TreeOk s) :
    (bodyOf i s).Leaves TreeOk := by
  have unwritten : ∀ {j}, (∀ t, Effect j s t → t.nodes = s.nodes ∧ t.root = s.root ∧ t.mode ≠ .dec) →
      (bodyOf j s).Leaves TreeOk := by
    intro j hj
    refine bodyOf_leaves h (fun t he => ?_) (fun u c sub info _ hu => hu.raised c sub info)
    obtain ⟨hnodes, hroot, hm⟩ := hj t he
    exact h.of_nodes hnodes hroot hm
  cases i with
  | nop => exact .go h
  | reset => exact .go treeOk_reset
  | build => exact buildTree_treeOk (by intro e; simp [accepts, e] at ha) h
  | recon => exact ((reconTree_rising (s := s) (by intro e; simp [accepts, e] at ha)).mono fun _ ht => ht.treeOk).leaves
  | decstart => exact (startDecoding_treeOk h).leaves
  | decb b =>
    have hdec : DecoderOk s := h.decoderOk (by simpa [accepts] using ha)
    exact ((decodeBits_decoderOk _ hdec).mono fun _ ht => ht.treeOk).leaves
  | decbit b =>
    have hdec : DecoderOk s := h.decoderOk (by simpa [accepts] using ha)
    exact ((decodeBit_decoderOk b hdec).mono fun _ ht => ht.treeOk).leaves
  | tabstart | encstart | encend | decend => exact unwritten (fun t he => by rw [he.1]; exact ⟨rfl, rfl, nofun⟩)
  | tabb b =>
    have hm : s.mode ≠ .dec := by intro e; simp [accepts, e] at ha
    refine unwritten (fun t he => ?_)
    obtain ⟨⟨hmode, hw⟩, -⟩ := he
    refine ⟨by rw [hw], by rw [hw], ?_⟩
    rcases hmode with e | e <;> rw [e]
    · exact hm
    · nofun
  | _ =>
    have hm : s.mode ≠ .dec := by intro e; simp [accepts, e] at ha
    exact unwritten (fun t he => by rw [he.1]; exact ⟨rfl, rfl, hm⟩)

/-- Settles O58: `BUILD` puts children below their parents, `RECON` above them, and the decoder moves from inner node to
inner node. -/
theorem stepKeepsTreeAndDecoder : Obligations.StepKeepsTreeAndDecoder := by
  unfold Obligations.StepKeepsTreeAndDecoder
  intro s t
  exact step_keeps_of_core (fun _ => Iff.rfl) treeOk_reset (fun s c sub info _ h => h.raised c sub info)
    (fun i s _ => bodyOf_treeOk i s)

theorem bodyOf_not_stuck {i : Instr} {s : State} (ha : accepts i s = true) (h : TreeOk s) (f : Fault) :
    bodyOf i s ≠ .stuck f := by
  intro e
  have hreads := readsNodes_of_stuck e
  cases i with
  | gentab => exact genTable_not_stuck h f e
  | recon => exact (reconTree_rising (s := s) (by intro e; simp [accepts, e] at ha)).not_stuck f e
  | decstart => exact (startDecoding_treeOk h).not_stuck f e
  | decb b => exact (decodeBits_decoderOk _ (h.decoderOk (by simpa [accepts] using ha))).not_stuck f e
  | decbit b => exact (decodeBit_decoderOk b (h.decoderOk (by simpa [accepts] using ha))).not_stuck f e
  | _ => exact hreads

/-- From a sound tree every command has a next state (R32). -/
theorem exec_completes (i : Instr) {s : State} (h : TreeOk s) : ∃ t, exec i s = .next t := by
  cases e : exec i s with
  | next t => exact ⟨t, rfl⟩
  | refused r => exact absurd e (exec_not_refused i s r)
  | fault f =>
    obtain ⟨-, -, ha, hb⟩ := exec_fault e
    exact absurd hb (bodyOf_not_stuck ha h f)

/-- From a sound tree every command word has a next state, legal or not (R130, R133). -/
theorem issue_completes (w : Word) {s : State} (h : TreeOk s) : ∃ t, issue w s = .next t := by
  unfold issue
  split
  · exact exec_completes _ h
  · split
    · exact ⟨s, rfl⟩
    · exact ⟨_, rfl⟩

/-- From a sound tree every outside event has a next state (R8). -/
theorem handle_completes (e : Event) {s : State} (h : TreeOk s) : ∃ t, handle e s = .next t := by
  cases e with
  | regRead a | sinkReady | rst => exact ⟨_, rfl⟩
  | regWrite a v =>
    unfold handle regWrite
    dsimp only
    split
    · obtain ⟨t, ht⟩ := issue_completes v h
      exact ⟨complete t, by rw [ht]; rfl⟩
    · split <;> exact ⟨_, rfl⟩
    · exact ⟨_, rfl⟩

/-- Settles O60: the fuel of `GENTAB`'s walk suffices, and every handle the other pseudocodes follow is allocated. -/
theorem noStepStops : Obligations.NoStepStops := by
  unfold Obligations.NoStepStops
  intro s h
  unfold step advance
  split
  · exact ⟨s, rfl⟩
  · exact handle_completes _ h

end Sys2Proof.Machine
end

section
/-! TESTS. A state in the middle of a header that satisfies the premise of O57, and the byte that opens its next entry. -/

namespace Sys2Proof.Tests

open Sys2Proof.Machine

theorem witness_StepKeepsTheParser_loadtab :
    ∃ t, ParserOk (writing 0x3262#32 parsing) ∧ parsing.mode = .loadtab ∧ step (writing 0x3262#32 parsing) = .next t ∧
      t.pst = .elen :=
  ⟨endOf (step (writing 0x3262#32 parsing)), EntriesOk.parserOk_esym (by unfold EntriesOk; decide) rfl, rfl,
    of_isNext (by decide +kernel), by decide +kernel⟩

end Sys2Proof.Tests
end

section
/-! SUPPORT. The unbounded queue of R76: every pseudocode does to the state with an unbounded queue what it does to the
state itself, and leaves the same `OUT`. -/

namespace Sys2Proof.Machine

/-- The state with the unbounded queue R76 allows a model: all of `OUT` stands in the queue and nothing waits. -/
def State.unbounded (s : State) : State := { s with outqDepth := none, outq := s.out, held := [], taken := [] }

@[simp] theorem unbounded_mode (s : State) : s.unbounded.mode = s.mode := rfl
@[simp] theorem unbounded_nodes (s : State) : s.unbounded.nodes = s.nodes := rfl
@[simp] theorem unbounded_root (s : State) : s.unbounded.root = s.root := rfl
@[simp] theorem unbounded_nsym (s : State) : s.unbounded.nsym = s.nsym := rfl
@[simp] theorem unbounded_nbits (s : State) : s.unbounded.nbits = s.nbits := rfl
@[simp] theorem unbounded_cur (s : State) : s.unbounded.cur = s.cur := rfl
@[simp] theorem unbounded_rem (s : State) : s.unbounded.rem = s.rem := rfl
@[simp] theorem unbounded_pst (s : State) : s.unbounded.pst = s.pst := rfl
@[simp] theorem codeOf_unbounded (s : State) (x : Byte) : codeOf s.unbounded x = codeOf s x := rfl

@[simp] theorem accepts_unbounded (i : Instr) (s : State) : accepts i s.unbounded = accepts i s := by
  cases i <;> rfl

/-- States differ only in the queue exactly when they have the same unbounded form (R76). -/
theorem sameButQueue_iff (a b : State) : SameButQueue a b ↔ a.unbounded = b.unbounded := by
  constructor
  · rintro ⟨hb, hout⟩
    rw [hb] at hout ⊢
    simpa [State.unbounded] using hout
  · intro h
    simp only [State.unbounded, State.mk.injEq] at h
    refine ⟨?_, by tauto⟩
    apply State.ext <;> simp only <;> tauto

/-- A pseudocode's end, with the state it leaves passed through `f`. -/
def Flow.map (f : State → State) : Flow → Flow
  | .go s => .go (f s)
  | .raised s => .raised (f s)
  | .stuck e => .stuck e

/-- A pseudocode does not look at the queue: started with the unbounded queue, it ends as it does with the queue there
is, but for the queue. -/
def IgnoresQueue (body : State → Flow) : Prop := ∀ s, body s.unbounded = (body s).map State.unbounded

theorem IgnoresQueue.bind {body k : State → Flow} (hb : IgnoresQueue body) (hk : IgnoresQueue k) :
    IgnoresQueue (fun s => (body s).bind k) := by
  intro s
  dsimp only
  rw [hb s]
  cases body s with
  | go u => exact hk u
  | raised u => rfl
  | stuck f => rfl

/-! ### The updates a pseudocode makes -/

theorem emitAll_of_unbounded (bs : List Byte) (s : State) : emitAll bs s.unbounded = (emitAll bs s).unbounded := by
  have h := emitAll_out bs s
  rw [emitAll_frame bs s] at h ⊢
  simp [State.unbounded, emitAll, roomFor, ← h]

theorem emit_of_unbounded (b : Byte) (s : State) : emit b s.unbounded = (emit b s).unbounded :=
  emitAll_of_unbounded [b] s

theorem writeBit_of_unbounded (t : Bool) (s : State) : writeBit t s.unbounded = (writeBit t s).unbounded := by
  by_cases h : s.nbits = 7#3
  · rw [(writeBit_full h).1, (writeBit_full (s := s.unbounded) h).1]
    exact emit_of_unbounded _ { s with acc := 0#8, nbits := 0#3 }
  · rw [(writeBit_room h).1, (writeBit_room (s := s.unbounded) h).1]
    rfl

theorem writeBits_of_unbounded (c : BitSeq) (s : State) : writeBits c s.unbounded = (writeBits c s).unbounded := by
  induction c generalizing s with
  | nil => rfl
  | cons t c ih =>
    calc writeBits c (writeBit t s.unbounded)
      _ = writeBits c (writeBit t s).unbounded := by rw [writeBit_of_unbounded]
      _ = (writeBits c (writeBit t s)).unbounded := ih _

theorem flushBits_of_unbounded (s : State) : flushBits s.unbounded = (flushBits s).unbounded := by
  unfold flushBits
  rw [unbounded_nbits]
  split
  · rfl
  · exact emit_of_unbounded _ { s with acc := 0#8, nbits := 0#3 }

theorem storeCodes_of_unbounded (cs : Codes) (s : State) : storeCodes cs s.unbounded = (storeCodes cs s).unbounded := by
  induction cs generalizing s with
  | nil => rfl
  | cons c cs ih => exact ih (setCode c.1 c.2 s)

theorem entryDone_of_unbounded (s : State) : entryDone s.unbounded = (entryDone s).unbounded := by
  unfold entryDone
  dsimp only
  rw [apply_ite State.unbounded]
  rfl

theorem arriveAt_of_unbounded (h : Handle) (n : Node) (s : State) :
    arriveAt h n s.unbounded = (arriveAt h n s).unbounded := by
  cases n with
  | internal w l r => rfl
  | leaf x w =>
    simp only [arriveAt, emit_of_unbounded]
    rfl

theorem slotVal_unbounded (slot : Slot) (s : State) : slotVal slot s.unbounded = slotVal slot s := by
  cases slot <;> rfl

theorem allocInto_of_unbounded (slot : Slot) (n : Node) (s : State) :
    allocInto slot n s.unbounded = (allocInto slot n s).unbounded := by
  cases slot <;> rfl

/-! ### The commands one by one -/

theorem countSym_ignoresQueue (x : Byte) : IgnoresQueue (countSym x) := by
  intro s
  unfold countSym
  rw [apply_ite (Flow.map State.unbounded)]
  rfl

theorem buildTree_ignoresQueue : IgnoresQueue buildTree := by
  intro s
  unfold buildTree
  rw [apply_ite (Flow.map State.unbounded)]
  rfl

theorem genTable_ignoresQueue : IgnoresQueue genTable := by
  intro s
  have hc : treeCodes s.unbounded = treeCodes s := rfl
  unfold genTable
  rw [hc]
  split
  · rfl
  · rename_i cs _
    exact congrArg (fun u => Flow.go { u with nent := BitVec.ofNat 9 cs.length, tabv := true })
      (storeCodes_of_unbounded cs { s with table := [] })

theorem parseByte_ignoresQueue (b : Byte) : IgnoresQueue (parseByte b) := by
  intro s
  unfold parseByte
  rw [unbounded_pst]
  split
  case h_1 | h_3 | h_4 | h_5 => rfl
  case h_2 | h_6 =>
    rw [apply_ite (Flow.map State.unbounded)]
    rfl
  case h_7 =>
    rw [codeOf_unbounded]
    split <;> rfl
  case h_8 =>
    rw [apply_ite (Flow.map State.unbounded)]
    exact if_congr Iff.rfl
      (congrArg Flow.go (entryDone_of_unbounded { s with plen := b, pidx := 0#6, pbits := [] })) rfl
  case h_9 =>
    dsimp only
    rw [apply_ite (Flow.map State.unbounded)]
    exact if_congr Iff.rfl
      (congrArg Flow.go (entryDone_of_unbounded { s with pbits := s.pbits ++ byteBits b, pidx := s.pidx + 1#6 })) rfl

theorem encodeSym_ignoresQueue (x : Byte) : IgnoresQueue (encodeSym x) := by
  intro s
  unfold encodeSym
  rw [codeOf_unbounded]
  split
  · rfl
  · rw [writeBits_of_unbounded, apply_ite (Flow.map State.unbounded)]
    rfl

theorem endEncoding_ignoresQueue : IgnoresQueue endEncoding := by
  intro s
  unfold endEncoding
  rw [flushBits_of_unbounded, apply_ite (Flow.map State.unbounded)]
  rfl

theorem startDecoding_ignoresQueue : IgnoresQueue startDecoding := by
  intro s
  unfold startDecoding
  simp only [unbounded_nsym, unbounded_root, unbounded_nodes, emitAll_of_unbounded]
  split
  · rfl
  · split
    · rfl
    · split <;> rfl

theorem decodeBit_ignoresQueue (t : Bool) : IgnoresQueue (decodeBit t) := by
  intro s
  unfold decodeBit
  simp only [unbounded_rem, unbounded_nodes, unbounded_cur, arriveAt_of_unbounded]
  split
  · rfl
  · split
    · rfl
    · split
      · rfl
      · split <;> rfl

theorem decodeBits_ignoresQueue (c : BitSeq) : IgnoresQueue (decodeBits c) := by
  induction c with
  | nil => exact fun _ => rfl
  | cons t c ih => exact (decodeBit_ignoresQueue t).bind ih

theorem endDecoding_ignoresQueue : IgnoresQueue endDecoding := by
  intro s
  unfold endDecoding
  rw [apply_ite (Flow.map State.unbounded)]
  rfl

theorem place_ignoresQueue (x : Byte) (c : BitSeq) (slot : Slot) : IgnoresQueue (place x c slot) := by
  intro s
  induction c generalizing slot s with
  | nil =>
    simp only [place, slotVal_unbounded, unbounded_nodes, allocInto_of_unbounded]
    split
    · rfl
    · split <;> rfl
  | cons t c ih =>
    simp only [place, slotVal_unbounded, unbounded_nodes, allocInto_of_unbounded, ih]
    split
    · split <;> rfl
    · split <;> rfl

theorem placeSym_ignoresQueue (x : Byte) : IgnoresQueue (placeSym x) := by
  intro s
  unfold placeSym
  rw [codeOf_unbounded]
  split
  · rfl
  · exact place_ignoresQueue x _ _ s

theorem placeSyms_ignoresQueue (xs : List Byte) : IgnoresQueue (placeSyms xs) := by
  induction xs with
  | nil => exact fun _ => rfl
  | cons x xs ih => exact (placeSym_ignoresQueue x).bind ih

theorem reconTree_ignoresQueue : IgnoresQueue reconTree := by
  have hstart : IgnoresQueue (fun s => placeSyms allSyms { s with treev := false, nodes := [], root := Config.nil }) :=
    fun s => placeSyms_ignoresQueue allSyms { s with treev := false, nodes := [], root := Config.nil }
  exact hstart.bind (fun _ => rfl)

/-! ### Every command -/

theorem bodyOf_ignoresQueue (i : Instr) : IgnoresQueue (bodyOf i) := by
  cases i with
  | nop | reset | clrf | tabstart | tabend | encstart => exact fun _ => rfl
  | count x => exact countSym_ignoresQueue x
  | build => exact buildTree_ignoresQueue
  | gentab => exact genTable_ignoresQueue
  | recon => exact reconTree_ignoresQueue
  | ser => exact fun s => congrArg Flow.go (emitAll_of_unbounded (headerBytes s) s)
  | tabb b => exact parseByte_ignoresQueue b
  | enc x => exact encodeSym_ignoresQueue x
  | encend => exact endEncoding_ignoresQueue
  | decstart => exact startDecoding_ignoresQueue
  | decb b => exact decodeBits_ignoresQueue _
  | decbit t => exact decodeBit_ignoresQueue t
  | decend => exact endDecoding_ignoresQueue

theorem finish_map (r : Flow) (f : State → State) : (r.map f).finish = onNext f r.finish := by
  cases r <;> rfl

/-- A command does the same with the unbounded queue (R76). -/
theorem exec_unbounded (i : Instr) (s : State) : exec i s.unbounded = onNext State.unbounded (exec i s) := by
  by_cases hi : i = .reset
  · subst hi
    rfl
  · rw [exec_eq_command hi, exec_eq_command hi]
    unfold command
    simp only [unbounded_mode, accepts_unbounded, bodyOf_ignoresQueue i s, finish_map]
    split
    · rfl
    · split <;> rfl

end Sys2Proof.Machine
end

section
/-! PROOFS. A command does not depend on the output queue (R76). -/

namespace Sys2Proof.Machine

theorem onNext_eq_next {f : State → State} {r : Host.Outcome State Fault Refusal} {t : State}
    (h : onNext f r = .next t) : ∃ u, r = .next u ∧ f u = t := by
  cases r with
  | next u => exact ⟨u, rfl, Host.Outcome.next.inj h⟩
  | fault f => cases h
  | refused r => cases h

/-- Settles O43: both states have the same unbounded form, from which the command does the same as from each. -/
theorem outDoesNotDependOnTheQueue : Obligations.OutDoesNotDependOnTheQueue := by
  unfold Obligations.OutDoesNotDependOnTheQueue
  intro i a b a' hab ha
  have hb : onNext State.unbounded (exec i b) = .next a'.unbounded := by
    rw [← exec_unbounded, ← (sameButQueue_iff a b).mp hab, exec_unbounded, ha]
    rfl
  obtain ⟨b', hb', hsame⟩ := onNext_eq_next hb
  exact ⟨b', hb', (sameButQueue_iff a' b').mpr hsame.symm⟩

end Sys2Proof.Machine
end

section
/-! PROOFS. The sink, the waiting core and the bound of the queue (R74, R75, R80, R298). -/

namespace Sys2Proof.Machine

/-! ### The sink -/

theorem sinkTake_empty {s : State} (h : s.outq = []) : sinkTake s = s := by
  simp [sinkTake, h]

/-- A transfer with no byte waiting (R74). -/
theorem sinkTake_not_waiting {s : State} {b : Byte} {bs : List Byte} (hq : s.outq = b :: bs) (hh : s.held = []) :
    sinkTake s = { s with outq := bs, taken := s.taken ++ [b] } := by
  simp [sinkTake, refill, hq, hh]

/-- A transfer with a byte waiting (R75): it takes the place, and with the last one the `CMD` write completes. -/
theorem sinkTake_waiting {s : State} {b c : Byte} {bs cs : List Byte} (hq : s.outq = b :: bs) (hh : s.held = c :: cs) :
    sinkTake s = { s with
      outq := bs ++ [c], held := cs, taken := s.taken ++ [b],
      answers := if cs = [] then s.answers ++ [.ok] else s.answers } := by
  cases cs <;> simp [sinkTake, refill, complete, answer, State.waits, hq, hh]

/-- A clock edge with the sink ready, whether or not the core waits (R74). -/
theorem step_sinkReady {s : State} {es : List Event} (h : s.pending = .sinkReady :: es) :
    step s = .next (sinkTake { s with pending := es }) :=
  step_of_nextEvent (nextEvent_of_outside rfl h)

/-- Settles O41: the step is one `sinkTake`, by what stands in `OUTQ` and what waits. -/
theorem sinkTakesTheHead : Obligations.SinkTakesTheHead := by
  unfold Obligations.SinkTakesTheHead
  intro s es h
  rw [step_sinkReady h]
  refine ⟨fun hq => ?_, fun b bs hq hh => ?_, fun b bs c cs hq hh => ?_⟩
  · exact congrArg Host.Outcome.next (sinkTake_empty hq)
  · exact congrArg Host.Outcome.next (sinkTake_not_waiting hq hh)
  · exact congrArg Host.Outcome.next (sinkTake_waiting hq hh)

/-! ### The waiting core -/

theorem takeUnstalled_hosts {hosts : List Event} (h : ∀ e ∈ hosts, e.isHost = true) : takeUnstalled hosts = none := by
  induction hosts with
  | nil => rfl
  | cons e es ih =>
    obtain ⟨he, hes⟩ := List.forall_mem_cons.mp h
    simp [takeUnstalled, he, ih hes]

theorem takeUnstalled_append {hosts rest : List Event} {e : Event} (h : ∀ e ∈ hosts, e.isHost = true)
    (he : e.isHost = false) : takeUnstalled (hosts ++ e :: rest) = some (e, hosts ++ rest) := by
  induction hosts with
  | nil => simp [takeUnstalled, he]
  | cons d ds ih =>
    obtain ⟨hd, hds⟩ := List.forall_mem_cons.mp h
    simp [takeUnstalled, hd, ih hds]

theorem nextEvent_of_waiting {s : State} (h : s.held ≠ []) : nextEvent s = takeUnstalled s.pending := by
  simp [nextEvent, State.waits, h]

/-- Settles O42: a waiting core passes over the host's accesses to the first event of the sink or of `rst`. -/
theorem waitingCoreAcceptsNoHostAccess : Obligations.WaitingCoreAcceptsNoHostAccess := by
  unfold Obligations.WaitingCoreAcceptsNoHostAccess
  intro s hosts rest hheld hhosts
  refine ⟨fun hp => ?_, fun e he hp => ?_⟩
  · have hnone : nextEvent s = none := by rw [nextEvent_of_waiting hheld, hp, takeUnstalled_hosts hhosts]
    simp [step, advance, hnone]
  · have hnext : nextEvent s = some (e, hosts ++ rest) := by
      rw [nextEvent_of_waiting hheld, hp, takeUnstalled_append hhosts he]
    rw [step_of_nextEvent hnext,
      step_of_nextEvent (nextEvent_of_outside (s := { s with pending := e :: (hosts ++ rest) }) he rfl)]

/-! ### The bound -/

/-- The part of the state `QueueOk` speaks of: `OUTQ_DEPTH`, `OUTQ` and the waiting bytes. -/
def State.queue (s : State) : Option Nat × List Byte × List Byte := (s.outqDepth, s.outq, s.held)

theorem QueueOk.congr {s t : State} (h : QueueOk s) (e : t.queue = s.queue) : QueueOk t := by
  simp only [State.queue, Prod.mk.injEq] at e
  obtain ⟨hd, hq, hh⟩ := e
  unfold QueueOk
  rw [hd, hq, hh]
  exact h

theorem QueueOk.emitAll {s : State} (h : QueueOk s) (bs : List Byte) : QueueOk (emitAll bs s) := by
  unfold QueueOk at h ⊢
  rw [emitAll_outqDepth]
  cases hd : s.outqDepth with
  | none =>
    rw [hd] at h
    exact emitAll_unbounded hd h
  | some d =>
    rw [hd] at h
    exact emitAll_queue hd h.1 h.2

theorem queueOk_of_empty {s : State} (hq : s.outq = []) (hh : s.held = []) : QueueOk s := by
  unfold QueueOk
  split
  · exact hh
  · simp [hq, hh]

/-- A transfer takes one byte, and a waiting one fills the place (R75). -/
theorem QueueOk.sinkTake {s : State} (h : QueueOk s) : QueueOk (sinkTake s) := by
  cases hq : s.outq with
  | nil => rwa [sinkTake_empty hq]
  | cons b bs =>
    obtain ⟨hq', hh', -⟩ := sinkTake_queue hq
    unfold QueueOk at h ⊢
    rw [sinkTake_outqDepth, hq', hh']
    cases hd : s.outqDepth with
    | none =>
      rw [hd] at h
      have hh : s.held = [] := h
      simp [hh]
    | some d =>
      rw [hd, hq] at h
      obtain ⟨hle, hfull⟩ := h
      cases hh : s.held with
      | nil =>
        simp only [List.length_cons] at hle
        simp
        omega
      | cons c cs =>
        have := hfull (by simp [hh])
        simp at this ⊢
        omega

theorem QueueOk.raised {s : State} (h : QueueOk s) (c : ErrCode) (sub : BitVec 4) (info : Word) :
    QueueOk (s.raised c sub info) := h.congr rfl

theorem QueueOk.writeBit {s : State} (h : QueueOk s) (t : Bool) : QueueOk (writeBit t s) := by
  by_cases hn : s.nbits = 7#3
  · rw [(writeBit_full hn).1]
    exact QueueOk.emitAll (s := { s with acc := 0#8, nbits := 0#3 }) (h.congr rfl) _
  · rw [(writeBit_room hn).1]
    exact h.congr rfl

theorem QueueOk.writeBits {s : State} (h : QueueOk s) (c : BitSeq) : QueueOk (writeBits c s) := by
  induction c generalizing s with
  | nil => exact h
  | cons t c ih => exact ih (h.writeBit t)

theorem QueueOk.flushBits {s : State} (h : QueueOk s) : QueueOk (flushBits s) := by
  unfold Machine.flushBits
  split
  · exact h
  · exact QueueOk.emitAll (s := { s with acc := 0#8, nbits := 0#3 }) (h.congr rfl) _

theorem encodeSym_queueOk (x : Byte) {s : State} (h : QueueOk s) : (encodeSym x s).Leaves QueueOk := by
  unfold encodeSym
  split
  · exact .raised (h.raised _ _ _)
  · split
    · exact .raised (h.raised _ _ _)
    · exact .go ((h.writeBits _).congr rfl)

theorem endEncoding_queueOk {s : State} (h : QueueOk s) : (endEncoding s).Leaves QueueOk := by
  unfold endEncoding
  split
  · exact .go (h.flushBits.congr rfl)
  · exact .raised (h.raised _ _ _)

theorem startDecoding_queueOk {s : State} (h : QueueOk s) : (startDecoding s).Leaves QueueOk := by
  unfold startDecoding
  split
  · exact .go (h.congr rfl)
  · split
    · exact .raised (h.raised _ _ _)
    · split
      · exact .stuck _
      · exact .go (h.congr rfl)
      · exact .go ((h.emitAll _).congr rfl)

theorem decodeBit_queueOk (b : Bool) {s : State} (h : QueueOk s) : (decodeBit b s).Leaves QueueOk := by
  cases e : decodeBit b s with
  | stuck f => exact .stuck f
  | raised t =>
    obtain ⟨-, rfl, -⟩ := decodeBit_raised e
    exact .raised (h.raised _ _ _)
  | go t =>
    refine .go ?_
    rcases decodeBit_go e with ⟨-, rfl⟩ | ⟨-, n, -, -, ⟨w, l, r, -, rfl⟩ | ⟨x, w, -, rfl⟩⟩
    · exact h
    · exact h.congr rfl
    · exact (h.emitAll [x]).congr rfl

theorem decodeBits_queueOk (c : BitSeq) {s : State} (h : QueueOk s) : (decodeBits c s).Leaves QueueOk := by
  induction c generalizing s with
  | nil => exact .go h
  | cons t c ih => exact leaves_bind (decodeBit_queueOk t h) (fun u hu => ih hu) (fun u hu => hu)

theorem bodyOf_queueOk (i : Instr) (s : State) (h : QueueOk s) : (bodyOf i s).Leaves QueueOk := by
  have unwritten : ∀ {j}, (∀ t, Effect j s t → t.queue = s.queue) → (bodyOf j s).Leaves QueueOk := fun hj =>
    bodyOf_leaves h (fun t he => h.congr (hj t he)) (fun u c sub info _ hu => hu.raised c sub info)
  cases i with
  | ser => exact .go (h.emitAll _)
  | enc x => exact encodeSym_queueOk x h
  | encend => exact endEncoding_queueOk h
  | decstart => exact startDecoding_queueOk h
  | decb b => exact decodeBits_queueOk _ h
  | decbit b => exact decodeBit_queueOk b h
  | nop => exact .go h
  | tabend => exact .raised (h.raised _ _ _)
  | tabb b => exact unwritten (fun t he => by rw [he.1.2]; rfl)
  | _ => exact unwritten (fun t he => by rw [he.1]; rfl)

theorem rstBlock_queueOk (s : State) : QueueOk (rstBlock s) := by
  unfold rstBlock
  dsimp only
  split <;> exact queueOk_of_empty rfl rfl

/-- Settles O56: `emit` fills the queue up to its depth, a transfer makes one place and fills it, and both resets and
all else keep the bound. -/
theorem stepKeepsTheQueueBound : Obligations.StepKeepsTheQueueBound := by
  unfold Obligations.StepKeepsTheQueueBound
  intro s t
  refine step_keeps QueueOk ?_ ?_ ?_ ?_ ?_ ?_ ?_
  · exact fun s es h => h.congr rfl
  · exact fun s a h => h.congr rfl
  · exact fun i s t h => exec_keeps_of_effect h (h.congr rfl) (fun u c sub info _ hu => hu.raised c sub info)
      (fun _ _ => bodyOf_queueOk i s h)
  · exact fun s w h _ => h.raised _ _ _
  · exact fun s x v h _ => h.congr rfl
  · exact fun s h => h.sinkTake
  · exact fun s _ => rstBlock_queueOk s

end Sys2Proof.Machine
end

section
/-! SUPPORT. The word of a decoded command is its encoding (R100, R112). -/

namespace Sys2Proof

theorem decodeN_ok {i j : Instr} {f : Byte} (h : decodeN i f = .ok j) : i = j ∧ f = 0#8 := by
  unfold decodeN at h
  split at h
  · rename_i hf
    exact ⟨Except.ok.inj h, hf⟩
  · cases h

theorem decodeT_ok {i : Instr} {f : Byte} (h : decodeT f = .ok i) : i.op = 0x52#8 ∧ i.operand = f := by
  unfold decodeT at h
  split at h
  · rename_i hf
    obtain rfl := Except.ok.inj h
    refine ⟨rfl, ?_⟩
    revert f
    decide
  · cases h

/-- A command has the fields it was decoded from (R104). -/
theorem decodeOp_ok {op f : Byte} {i : Instr} (h : decodeOp op f = .ok i) : i.op = op ∧ i.operand = f := by
  unfold decodeOp at h
  split at h <;> rename_i hop
  case h_4 | h_10 | h_13 | h_16 =>
    obtain rfl := Except.ok.inj h
    exact ⟨(BitVec.eq_of_toNat_eq hop).symm, rfl⟩
  case h_17 =>
    obtain ⟨ho, hf⟩ := decodeT_ok h
    exact ⟨ho.trans (BitVec.eq_of_toNat_eq hop).symm, hf⟩
  case h_19 => cases h
  all_goals
    obtain ⟨rfl, rfl⟩ := decodeN_ok h
    exact ⟨(BitVec.eq_of_toNat_eq hop).symm, rfl⟩

theorem encode_of_decode {w : Word} {i : Instr} (h : decode w = .ok i) : encode i = w := by
  unfold decode at h
  split at h
  · rename_i hupper
    obtain ⟨hop, hoperand⟩ := decodeOp_ok h
    rw [word_eq_fields w, hupper, ← hop, ← hoperand]
    rfl
  · cases h

end Sys2Proof
end

section
/-! PROOFS. The table is fixed while encoding and the tree while decoding (R82). -/

namespace Sys2Proof.Machine

/-- What R82 holds fixed: the table while encoding, the tree while decoding. -/
def FixedTables (s t : State) : Prop :=
  (s.mode = .enc → t.table = s.table ∧ t.nent = s.nent ∧ t.nsym = s.nsym) ∧
  (s.mode = .dec → t.nodes = s.nodes ∧ t.root = s.root)

theorem FixedTables.refl (s : State) : FixedTables s s := ⟨fun _ => ⟨rfl, rfl, rfl⟩, fun _ => ⟨rfl, rfl⟩⟩

theorem FixedTables.complete {s t : State} (h : FixedTables s t) : FixedTables s (complete t) := by
  simpa [FixedTables] using h

/-- The commands that write a table or a tree are refused in `ENC` and in `DEC` (R136). -/
theorem Effect.fixedTables {i : Instr} {s t : State} (h : Effect i s t) (hi : i ≠ .reset)
    (ha : accepts i s = true) : FixedTables s t := by
  obtain ⟨hw, -⟩ := h
  cases i with
  | reset => exact absurd rfl hi
  | build | gentab | recon | tabstart | tabb b =>
    exact ⟨fun hm => by simp [accepts, hm] at ha, fun hm => by simp [accepts, hm] at ha⟩
  | _ =>
    rw [hw]
    exact FixedTables.refl s

theorem exec_fixedTables {i : Instr} {s t : State} (hi : i ≠ .reset) (h : exec i s = .next t) : FixedTables s t := by
  rcases exec_cases h with ⟨hr, -⟩ | ⟨-, -, rfl⟩ | ⟨-, -, -, rfl⟩ | ⟨-, -, ha, hb⟩
  · exact absurd hr hi
  · exact .refl t
  · exact FixedTables.refl s
  · have hleaves : (bodyOf i s).Leaves (FixedTables s) :=
      bodyOf_leaves (.refl s) (fun t he => he.fixedTables hi ha) (fun _ _ _ _ _ hu => hu)
    rcases hb with hb | hb <;> rw [hb] at hleaves
    · exact leaves_go.mp hleaves
    · exact leaves_raised.mp hleaves

/-- Only a reset changes what R82 holds fixed. -/
theorem handle_fixedTables {e : Event} {s t : State} (h : handle e s = .next t) (hrst : e ≠ .rst)
    (hreset : e ≠ .regWrite 0#15 0x00000100#32) : FixedTables s t := by
  rcases handle_cases h with ⟨a, -, rfl⟩ | ⟨w, i, r, rfl, hd, hr, rfl⟩ | ⟨w, d, -, -, -, rfl⟩ |
    ⟨w, d, -, -, -, rfl⟩ | ⟨a, x, v, -, -, -, rfl⟩ | ⟨a, v, -, -, rfl⟩ | ⟨-, rfl⟩ | ⟨he, -⟩
  · exact FixedTables.refl s
  · refine (exec_fixedTables ?_ hr).complete
    rintro rfl
    exact hreset (by rw [← encode_of_decode hd]; rfl)
  · exact (FixedTables.refl s).complete
  · exact FixedTables.complete (FixedTables.refl s)
  · exact FixedTables.refl s
  · exact FixedTables.refl s
  · simp [FixedTables]
  · exact absurd he hrst

/-- Settles O45: in `ENC` and in `DEC` every accepted command but `RESET` leaves what R82 names as it is. -/
theorem streamsRunOnFixedTables : Obligations.StreamsRunOnFixedTables := by
  unfold Obligations.StreamsRunOnFixedTables
  intro s t h hno
  rcases step_cases h with ⟨-, rfl⟩ | ⟨e, rest, hn, he⟩
  · exact FixedTables.refl t
  · obtain ⟨hrst, hreset⟩ := hno rest
    have hfixed : FixedTables { s with pending := rest } t :=
      handle_fixedTables he (fun e' => hrst (by rw [hn, e'])) (fun e' => hreset (by rw [hn, e']))
    exact hfixed

end Sys2Proof.Machine
end

section
/-! SUPPORT. Fields side by side in a register (R63, R65, R67), the bits of a code word (R66), and the addresses with no
location (R62). -/

namespace Sys2Proof.Machine

/-! ### Fields -/

theorem zeroExtend_eq_ofNat {n : Nat} (x : BitVec n) : x.zeroExtend 32 = BitVec.ofNat 32 x.toNat :=
  (BitVec.ofNat_toNat 32 x).symm

/-- A field above one of `k` bits. -/
theorem ofNat_or_shiftLeft {a b k : Nat} (h : a < 2 ^ k) :
    BitVec.ofNat 32 a ||| BitVec.ofNat 32 b <<< k = BitVec.ofNat 32 (a + 2 ^ k * b) := by
  have hor : a + 2 ^ k * b = a ||| b * 2 ^ k := by
    rw [Nat.add_comm, Nat.two_pow_add_eq_or_of_lt h, Nat.or_comm, Nat.mul_comm]
  apply BitVec.eq_of_toNat_eq
  simp only [BitVec.toNat_or, BitVec.toNat_shiftLeft, BitVec.toNat_ofNat, Nat.shiftLeft_eq, hor, Nat.or_mod_two_pow,
    Nat.mod_mul_mod]

theorem toNat_mode_code (m : Mode) : m.code.toNat = modeNumber m := by cases m <;> rfl

theorem toNat_errCode_code (c : ErrCode) : c.code.toNat = errNumber c := by cases c <;> rfl

theorem toNat_parserState_code (p : ParserState) : p.code.toNat = parserNumber p := by cases p <;> rfl

theorem bitWord_eq_ofNat (b : Bool) : bitWord b = BitVec.ofNat 32 b.toNat := by cases b <;> rfl

/-- `STATUS` as a number (R63). -/
theorem readLoc_status (s : State) :
    readLoc .status s = BitVec.ofNat 32 (modeNumber s.mode + 16 * s.treev.toNat + 32 * s.tabv.toNat) := by
  have hm := s.mode.code.isLt
  have ht := s.treev.toNat_lt
  rw [toNat_mode_code] at hm
  simp only [readLoc, statusWord, zeroExtend_eq_ofNat, toNat_mode_code, bitWord_eq_ofNat]
  rw [ofNat_or_shiftLeft (by omega), ofNat_or_shiftLeft (by omega)]
  rfl

/-- `ERRCODE` as a number (R63). -/
theorem readLoc_errcode (s : State) :
    readLoc .errcode s = BitVec.ofNat 32 (errNumber s.errcode + 256 * s.errsub.toNat) := by
  have hc := s.errcode.code.isLt
  rw [toNat_errCode_code] at hc
  simp only [readLoc, zeroExtend_eq_ofNat, toNat_errCode_code]
  exact ofNat_or_shiftLeft (by omega)

/-- `BITACC` as a number (R63). -/
theorem readLoc_bitacc (s : State) : readLoc .bitacc s = BitVec.ofNat 32 (s.acc.toNat + 256 * s.nbits.toNat) := by
  have ha := s.acc.isLt
  simp only [readLoc, zeroExtend_eq_ofNat]
  exact ofNat_or_shiftLeft (by omega)

/-- `PARSE` as a number (R63). -/
theorem readLoc_parse (s : State) :
    readLoc .parse s = BitVec.ofNat 32
      (parserNumber s.pst + 16 * s.pcnt.toNat + 65536 * s.psym.toNat + 16777216 * s.plen.toNat) := by
  have hp := s.pst.code.isLt
  have hc := s.pcnt.isLt
  have hs := s.psym.isLt
  rw [toNat_parserState_code] at hp
  simp only [readLoc, zeroExtend_eq_ofNat, toNat_parserState_code]
  rw [ofNat_or_shiftLeft (by omega), ofNat_or_shiftLeft (by omega), ofNat_or_shiftLeft (by omega)]
  rfl

/-- `NN` as a number (R33, R63). -/
theorem readLoc_nn {s : State} (h : s.nodes.length ≤ 511) : readLoc .nn s = BitVec.ofNat 32 s.nodes.length := by
  have hn : s.nn.toNat = s.nodes.length := by
    simp only [State.nn, BitVec.toNat_ofNat]
    omega
  simp only [readLoc, zeroExtend_eq_ofNat, hn]

/-- `CLEN[x]` of a code as a number (R65). -/
theorem readLoc_clen {s : State} {x : Byte} {c : BitSeq} (h : codeOf s x = some c) (hc : c.length ≤ 255) :
    readLoc (.clen x) s = BitVec.ofNat 32 (256 + c.length) := by
  have hlen : (clenOf c).toNat = c.length := by
    simp only [clenOf, BitVec.toNat_ofNat]
    omega
  simp only [readLoc, h, zeroExtend_eq_ofNat, hlen]
  rw [BitVec.or_comm, Nat.add_comm]
  exact ofNat_or_shiftLeft (b := 1) (k := 8) (by omega)

/-! ### The bits of a code word -/

/-- The new bit of a code word stands at bit 0, every other bit moves up by one (R66). -/
theorem getLsbD_shiftWord (v : Word) (t : Bool) (j : Nat) (hj : j < 32) :
    ((v <<< 1) ||| (if t then 1#32 else 0#32)).getLsbD j = if j = 0 then t else v.getLsbD (j - 1) := by
  cases t <;> rcases j with _ | j <;> simp <;> omega

/-- Shifting the first `n` bits into a word leaves bit `n - 1 - i` equal to the `i`-th of them. -/
theorem getLsbD_shiftWordFold (f : Nat → Bool) (n : Nat) (hn : n ≤ 32) (j : Nat) (hj : j < n) :
    ((List.range n).foldl (fun (v : Word) i => (v <<< 1) ||| (if f i then 1#32 else 0#32)) 0#32).getLsbD j =
      f (n - 1 - j) := by
  induction n generalizing j with
  | zero => omega
  | succ n ih =>
    rw [List.range_succ, List.foldl_append, List.foldl_cons, List.foldl_nil, getLsbD_shiftWord _ _ _ (by omega)]
    split
    · rename_i h
      simp [h]
    · rw [ih (by omega) (j - 1) (by omega)]
      congr 1
      omega

/-- R66: bit `31 - j` of word `w` is bit `32w + j` of the code. -/
theorem getLsbD_codeWord (c : BitSeq) (w : Nat) {j : Nat} (hj : j < 32) :
    (codeWord c w).getLsbD (31 - j) = c.getD (32 * w + j) false := by
  unfold codeWord
  rw [getLsbD_shiftWordFold (fun j => c.getD (32 * w + j) false) 32 le_rfl (31 - j) (by omega)]
  congr 1
  omega

/-! ### Nodes -/

theorem readLoc_node_of_some {s : State} {h : Nat} {n : Node} (e : s.nodes[h]? = some n) (f : Nat) :
    readLoc (.node h f) s = nodeWord n f := by
  simp [readLoc, e]

/-- A leaf's first word is its symbol: the bit of `kind` is 0 (R67). -/
theorem nodeWord_leaf_kind (x : Byte) (w : Word) : nodeWord (.leaf x w) 0 = BitVec.ofNat 32 x.toNat := by
  simp [nodeWord, Node.kind, Node.sym]

/-- The first word of an `Internal`: `kind` in bit 31, and no symbol (R67). -/
theorem nodeWord_internal_kind (w : Word) (l r : Handle) : nodeWord (.internal w l r) 0 = 0x80000000#32 := by
  simp [nodeWord, Node.kind, Node.sym]

theorem readLoc_node_unallocated {s : State} {h : Nat} (e : s.nodes.length ≤ h) (f : Nat) :
    readLoc (.node h f) s = 0#32 := by
  simp [readLoc, List.getElem?_eq_none e]

/-! ### The address map -/

/-- The addresses with no location are the misaligned and the reserved ones (R61, R62). -/
theorem locate_eq_none_iff (addr : Addr) : locate addr = none ↔ NoLocation addr := by
  unfold locate NoLocation
  dsimp only
  split
  · exact iff_of_true rfl (by omega)
  · split
    · split
      case h_14 =>
        simp only [imp_false, true_iff] at *
        omega
      all_goals exact iff_of_false (Option.some_ne_none _) (by omega)
    · split
      · exact iff_of_false (Option.some_ne_none _) (by omega)
      · split
        · exact iff_of_false (Option.some_ne_none _) (by omega)
        · split
          · exact iff_of_true rfl (by omega)
          · split
            · exact iff_of_false (Option.some_ne_none _) (by omega)
            · split
              · exact iff_of_false (Option.some_ne_none _) (by omega)
              · exact iff_of_true rfl (by omega)

/-- A read, when the core does not wait, answers the word of the location (R61). -/
theorem readsAs_of_locate {s : State} {addr : Addr} {l : Loc} {v : Word} (hl : locate addr = some l)
    (hv : readLoc l s = v) : ReadsAs s addr v := by
  intro hh es
  rw [step_regRead hh]
  simp only [regRead, hl, hv]

end Sys2Proof.Machine
end

section
/-! PROOFS. The register space (R60 to R67). -/

namespace Sys2Proof.Machine

/-- Settles O36: each register is one location, and its fields stand side by side. -/
theorem controlRegistersRead : Obligations.ControlRegistersRead := by
  unfold Obligations.ControlRegistersRead
  intro s
  exact ⟨readsAs_of_locate rfl rfl, readsAs_of_locate rfl (readLoc_status s), readsAs_of_locate rfl (readLoc_errcode s),
    readsAs_of_locate rfl rfl, readsAs_of_locate rfl (zeroExtend_eq_ofNat s.nent), readsAs_of_locate rfl rfl,
    readsAs_of_locate rfl (zeroExtend_eq_ofNat s.root), fun h => readsAs_of_locate rfl (readLoc_nn h),
    readsAs_of_locate rfl rfl, readsAs_of_locate rfl rfl, readsAs_of_locate rfl (zeroExtend_eq_ofNat s.cur),
    readsAs_of_locate rfl (readLoc_bitacc s), readsAs_of_locate rfl (readLoc_parse s)⟩

/-- A write of the `FREQ` window when the core does not wait (R64). -/
theorem step_regWrite_freq {s : State} {x : Byte} {v : Word} {es : List Event} (hh : s.held = []) :
    step { s with pending := .regWrite (BitVec.ofNat 15 (0x0400 + 4 * x.toNat)) v :: es } =
      if s.mode = .idle then .next (answer .ok (setFreq x v { s with pending := es }))
      else .next (answer .busError { s with pending := es }) := by
  have hnext : nextEvent { s with pending := .regWrite (BitVec.ofNat 15 (0x0400 + 4 * x.toNat)) v :: es } =
      some (_, es) := nextEvent_of_not_waiting hh rfl
  rw [step_of_nextEvent hnext]
  simp only [handle, regWrite, locate_freq_addr]

/-- Settles O37: the window's word is the symbol's count, and only a write in `IDLE` changes it. -/
theorem freqWindowReadsAndWrites : Obligations.FreqWindowReadsAndWrites := by
  unfold Obligations.FreqWindowReadsAndWrites
  rintro s x v addr rfl
  refine ⟨readsAs_of_locate (locate_freq_addr x) rfl, fun hm hh es => ?_, fun hm hh es => ?_⟩
  · rw [step_regWrite_freq hh, if_neg hm]
    rfl
  · refine ⟨answer .ok (setFreq x v { s with pending := es }), ?_, rfl, ?_, fun y hy => ?_⟩
    · rw [step_regWrite_freq hh, if_pos hm]
    · exact freqOf_setFreq_same x v { s with pending := es }
    · exact freqOf_setFreq_other v { s with pending := es } hy

/-- Settles O38: `CLEN` is 256 above the length, and the code's bits fill each word of `CBITS` from bit 31 down. -/
theorem codeWindowsRead : Obligations.CodeWindowsRead := by
  unfold Obligations.CodeWindowsRead
  intro s x
  refine ⟨fun h => ?_, fun c h hc => ?_, fun w hw => ?_⟩
  · exact readsAs_of_locate (locate_clen_addr x) (by simp only [readLoc, h])
  · exact readsAs_of_locate (locate_clen_addr x) (readLoc_clen h hc)
  · refine ⟨_, readsAs_of_locate (locate_cbits_addr x w hw) rfl, fun h => ?_, fun c h j hj => ?_⟩
    · simp only [readLoc, h]
    · simp only [readLoc, h]
      exact getLsbD_codeWord c w hj

/-- Settles O39: each word of the window is that word of the node, if there is one. -/
theorem nodeWindowReads : Obligations.NodeWindowReads := by
  unfold Obligations.NodeWindowReads
  intro s h hh
  have word : ∀ {n}, s.nodes[h]? = some n → ∀ f < 4,
      ReadsAs s (BitVec.ofNat 15 (0x4000 + 16 * h + 4 * f)) (nodeWord n f) :=
    fun e f hf => readsAs_of_locate (locate_node_addr h f hh hf) (readLoc_node_of_some e f)
  refine ⟨fun x w e => ⟨?_, ?_, ?_, ?_⟩, fun w l r e => ⟨?_, ?_, ?_, ?_⟩, fun e f hf => ?_⟩
  · rw [← nodeWord_leaf_kind x w]
    exact word e 0 (by omega)
  · exact word e 1 (by omega)
  · exact word e 2 (by omega)
  · exact word e 3 (by omega)
  · rw [← nodeWord_internal_kind w l r]
    exact word e 0 (by omega)
  · exact word e 1 (by omega)
  · rw [← zeroExtend_eq_ofNat]
    exact word e 2 (by omega)
  · rw [← zeroExtend_eq_ofNat]
    exact word e 3 (by omega)
  · exact readsAs_of_locate (locate_node_addr h f hh hf) (readLoc_node_unallocated e f)

/-- Settles O40: an access is refused where there is no location, and so is a write outside `CMD` and the `FREQ`
window. -/
theorem badAccessesAreRefused : Obligations.BadAccessesAreRefused := by
  unfold Obligations.BadAccessesAreRefused
  intro s addr v
  refine ⟨fun h => ?_, fun h => ?_, fun hcmd hfreq => ?_⟩
  · have hnone : locate addr = none := (locate_eq_none_iff addr).mpr h
    constructor
    · intro hh es
      rw [step_regRead hh]
      simp only [regRead, hnone]
    · exact fun hh es => step_regWrite_refused hh (by simp [hnone]) (by simp [hnone])
  · obtain ⟨l, hl⟩ := Option.ne_none_iff_exists'.mp (fun e => h ((locate_eq_none_iff addr).mp e))
    exact ⟨readLoc l s, readsAs_of_locate hl rfl⟩
  · refine fun hh es => step_regWrite_refused hh (fun e => hcmd ((locate_cmd addr).mp e)) (fun x e => hfreq ?_)
    have hx := x.isLt
    have ha := locate_freq e
    omega

end Sys2Proof.Machine
end

section
/-! TESTS. A queue of depth 2 that satisfies the premise of O56: `SER` fills it and waits, and the sink makes a place. -/

namespace Sys2Proof.Tests

open Sys2Proof.Machine

/-- A table, and an empty queue of depth 2. -/
def shallow : State := { tabled with outqDepth := some 2 }

theorem witness_StepKeepsTheQueueBound_bounded :
    ∃ t, QueueOk (writing 0x3000#32 shallow) ∧ step (writing 0x3000#32 shallow) = .next t ∧ t.outq.length = 2 ∧
      t.held ≠ [] :=
  ⟨endOf (step (writing 0x3000#32 shallow)), queueOk_of_empty (by decide) (by decide), of_isNext (by decide +kernel),
    by decide +kernel, by decide +kernel⟩

/-- A full queue with a byte waiting, before a transfer. -/
theorem witness_StepKeepsTheQueueBound_full :
    ∃ s t, QueueOk s ∧ s.outqDepth = some 2 ∧ s.held ≠ [] ∧ s.pending = [.sinkReady] ∧ step s = .next t ∧
      t.outq = [2#8, 3#8] :=
  ⟨{ shallow with outq := [1#8, 2#8], held := [3#8], pending := [.sinkReady] }, _, ⟨le_rfl, fun _ => rfl⟩, rfl,
    List.cons_ne_nil _ _, rfl, rfl, rfl⟩

end Sys2Proof.Tests
end

section
/-! PROOFS. Decoding is the inverse of encoding (R100, R104, R112). -/

namespace Sys2Proof

/-- The decoder reads back what the encoder writes (R112). -/
@[simp] theorem decode_encode (i : Instr) : decode (encode i) = .ok i := by
  have hfields : decode (encode i) = decodeOp i.op i.operand := by simp [decode]
  rw [hfields]
  cases i with
  | decbit t => cases t <;> rfl
  | _ => rfl

/-- Settles O1: `encode_of_decode` and `decode_encode`. -/
theorem decodeEncodeAgree : Obligations.DecodeEncodeAgree := by
  unfold Obligations.DecodeEncodeAgree
  intro w i
  constructor
  · exact fun h => (encode_of_decode h).symm
  · rintro rfl
    exact decode_encode i

/-- Settles O3: seven of the words are encodings, and the decoder refuses the other two. -/
theorem writtenOutWordsDecode : Obligations.WrittenOutWordsDecode := by
  unfold Obligations.WrittenOutWordsDecode
  exact ⟨decode_encode .nop, decode_encode (.count 0x61#8), decode_encode .build, decode_encode .gentab,
    decode_encode (.tabb 0x80#8), decode_encode (.enc 0x62#8), decode_encode (.decbit true), by decide, by decide⟩

end Sys2Proof
end

section
/-! PROOFS. The opcode map (R104). -/

namespace Sys2Proof.Machine

/-- The opcode field of a row's pattern. -/
def OpcodeRow.op (r : OpcodeRow) : Byte := r.pattern.extractLsb' 8 8

/-- The operand bits a row's mask demands to be 0. -/
def OpcodeRow.fixedBits (r : OpcodeRow) : Byte := r.mask.extractLsb' 0 8

/-- Two words are one when their three fields (R100) are. -/
theorem word_eq_iff_fields (v w : Word) :
    v = w ↔ v.extractLsb' 16 16 = w.extractLsb' 16 16 ∧ v.extractLsb' 8 8 = w.extractLsb' 8 8 ∧
      v.extractLsb' 0 8 = w.extractLsb' 0 8 := by
  constructor
  · rintro rfl
    exact ⟨rfl, rfl, rfl⟩
  · rintro ⟨hupper, hop, hoperand⟩
    rw [word_eq_fields v, hupper, hop, hoperand, ← word_eq_fields w]

/-- Every mask covers the upper half and the opcode, and every pattern is 0 outside the opcode. -/
theorem opcodeRows_fields : ∀ r ∈ opcodeRows,
    r.mask.extractLsb' 16 16 = BitVec.allOnes 16 ∧ r.mask.extractLsb' 8 8 = BitVec.allOnes 8 ∧
    r.pattern.extractLsb' 16 16 = 0#16 ∧ r.pattern.extractLsb' 0 8 = 0#8 := by decide

/-- A word selects a row by its fields: the upper half is 0, the opcode is the row's, and the operand bits under the
mask are 0. -/
theorem selects_iff_fields {r : OpcodeRow} (hr : r ∈ opcodeRows) (w : Word) :
    w &&& r.mask = r.pattern ↔
      w.extractLsb' 16 16 = 0#16 ∧ w.extractLsb' 8 8 = r.op ∧ w.extractLsb' 0 8 &&& r.fixedBits = 0#8 := by
  obtain ⟨hmu, hmo, hpu, hpl⟩ := opcodeRows_fields r hr
  rw [word_eq_iff_fields]
  simp only [BitVec.extractLsb'_and, hmu, hmo, hpu, hpl, BitVec.and_allOnes, OpcodeRow.op, OpcodeRow.fixedBits]

/-- The command of a row has the row's opcode and the operand it was built from, if the mask admits that operand: row by
row, in the order of `opcodeRows`. -/
theorem build_fields {r : OpcodeRow} (hr : r ∈ opcodeRows) {f : Byte} (hf : f &&& r.fixedBits = 0#8) :
    (r.build f).op = r.op ∧ (r.build f).operand = f := by
  have hbit : ∀ g : Byte, g &&& 0xFE#8 = 0#8 → (Instr.decbit (g.getLsbD 0)).operand = g := by decide
  have hnone : f &&& 0xFF#8 = 0#8 → 0#8 = f := fun h => h.symm.trans BitVec.and_allOnes
  fin_cases hr
  exacts [⟨rfl, hnone hf⟩, ⟨rfl, hnone hf⟩, ⟨rfl, hnone hf⟩, ⟨rfl, rfl⟩, ⟨rfl, hnone hf⟩, ⟨rfl, hnone hf⟩,
    ⟨rfl, hnone hf⟩, ⟨rfl, hnone hf⟩, ⟨rfl, hnone hf⟩, ⟨rfl, rfl⟩, ⟨rfl, hnone hf⟩, ⟨rfl, hnone hf⟩, ⟨rfl, rfl⟩,
    ⟨rfl, hnone hf⟩, ⟨rfl, hnone hf⟩, ⟨rfl, rfl⟩, ⟨rfl, hbit f hf⟩, ⟨rfl, hnone hf⟩]

/-- The row of each command: its mask admits the command's operand, which gives the command back. -/
theorem exists_row (i : Instr) : ∃ r ∈ opcodeRows, r.op = i.op ∧ i.operand &&& r.fixedBits = 0#8 ∧ r.build i.operand = i := by
  cases i with
  | count x => exact ⟨opcodeRows[3], List.getElem_mem _, rfl, BitVec.and_zero, rfl⟩
  | tabb x => exact ⟨opcodeRows[9], List.getElem_mem _, rfl, BitVec.and_zero, rfl⟩
  | enc x => exact ⟨opcodeRows[12], List.getElem_mem _, rfl, BitVec.and_zero, rfl⟩
  | decb x => exact ⟨opcodeRows[15], List.getElem_mem _, rfl, BitVec.and_zero, rfl⟩
  | decbit t => cases t <;> decide
  | _ => decide

/-- The pattern of a selected row is the word without its operand field. -/
theorem pattern_of_selects {r : OpcodeRow} (hr : r ∈ opcodeRows) {w : Word} (h : w &&& r.mask = r.pattern) :
    r.pattern = w &&& 0xFFFFFF00#32 := by
  have hmask : ∀ q ∈ opcodeRows, q.mask &&& 0xFFFFFF00#32 = 0xFFFFFF00#32 ∧ q.pattern &&& 0xFFFFFF00#32 = q.pattern := by
    decide
  obtain ⟨hm, hp⟩ := hmask r hr
  rw [← hp, ← h, BitVec.and_assoc, hm]

/-- Settles O2: a word that selects a row is the encoding of the row's command, and every command has a row that its
encoding selects. The word itself fixes the pattern. -/
theorem opcodeMapRowsAreWhatDecodes : Obligations.OpcodeMapRowsAreWhatDecodes := by
  unfold Obligations.OpcodeMapRowsAreWhatDecodes
  constructor
  · intro w i
    rw [decodeEncodeAgree w i]
    constructor
    · rintro rfl
      obtain ⟨r, hr, hop, hfixed, hbuild⟩ := exists_row i
      exact ⟨r, hr, by simp [selects_iff_fields hr, hop, hfixed], by simp [hbuild]⟩
    · rintro ⟨r, hr, hsel, rfl⟩
      obtain ⟨hupper, hop, hfixed⟩ := (selects_iff_fields hr w).mp hsel
      obtain ⟨hbop, hboperand⟩ := build_fields hr hfixed
      rw [word_eq_iff_fields]
      simp [hupper, hop, hbop, hboperand]
  · intro w r hr q hq hw hv
    rw [pattern_of_selects hr hw, pattern_of_selects hq hv]

end Sys2Proof.Machine
end

section
/-! PROOFS. Illegal words (R106, R133). -/

namespace Sys2Proof

/-- The gaps of the opcode map, as R106 lists them. -/
theorem opFormat_eq_none_iff (op : Byte) : opFormat op = none ↔
    (0x02 ≤ op.toNat ∧ op.toNat ≤ 0x0F) ∨ (0x12 ≤ op.toNat ∧ op.toNat ≤ 0x1F) ∨
    (0x23 ≤ op.toNat ∧ op.toNat ≤ 0x2F) ∨ (0x34 ≤ op.toNat ∧ op.toNat ≤ 0x3F) ∨
    (0x43 ≤ op.toNat ∧ op.toNat ≤ 0x4F) ∨ 0x54 ≤ op.toNat := by
  revert op
  decide

/-- The opcodes of R101's format `N`. -/
theorem opFormat_eq_n_iff (op : Byte) : opFormat op = some .n ↔ op.toNat ∈ Machine.formatNOps := by
  revert op
  decide

/-- `DECBIT` is the one command of format `T` (R101). -/
theorem opFormat_eq_t_iff (op : Byte) : opFormat op = some .t ↔ op = 0x52#8 := by
  revert op
  decide

theorem formatT_admits_iff (f : Byte) : Format.t.admits f = true ↔ f.extractLsb' 1 7 = 0#7 := by
  revert f
  decide

/-- The decoder reads a command from every operand field the opcode's format admits (R101, R104). -/
theorem decodeOp_ok_of_admits {op f : Byte} {m : Format} (hm : opFormat op = some m) (hf : m.admits f = true) :
    ∃ i, decodeOp op f = .ok i := by
  unfold opFormat at hm
  split at hm <;> rename_i hop <;> cases hm
  case h_4 | h_10 | h_13 | h_16 => simp [decodeOp, hop]
  case h_17 => simp [decodeOp, hop, decodeT, (formatT_admits_iff f).mp hf]
  all_goals
    obtain rfl : f = 0#8 := by simpa [Format.admits] using hf
    simp [decodeOp, hop, decodeN]

/-- R106's test and the decoder agree. -/
theorem legalWord_iff_decodes (w : Word) : legalWord w = true ↔ ∃ i, decode w = .ok i := by
  constructor
  · intro h
    unfold legalWord at h
    obtain ⟨hupper, hfields⟩ := (Bool.and_eq_true _ _).mp h
    split at hfields
    · cases hfields
    · rename_i m hm
      rw [decode, if_pos (eq_of_beq hupper)]
      exact decodeOp_ok_of_admits hm hfields
  · rintro ⟨i, hi⟩
    rw [← encode_of_decode hi]
    exact legalWord_encode i

end Sys2Proof

namespace Sys2Proof.Machine

/-- R106's four kinds are the words that are not legal. -/
theorem illegal_iff (w : Word) : Illegal w ↔ ¬ legalWord w = true := by
  have hbits : w.extractLsb' 1 7 = (w.extractLsb' 0 8).extractLsb' 1 7 :=
    (BitVec.extractLsb'_extractLsb'_of_le (by decide)).symm
  simp only [Illegal, legalWord, hbits, ← opFormat_eq_none_iff, ← opFormat_eq_n_iff, ← opFormat_eq_t_iff]
  cases hformat : opFormat (w.extractLsb' 8 8) with
  | none => simp
  | some m =>
    cases m with
    | n => simp [Format.admits, imp_iff_not_or]
    | b => simp [Format.admits]
    | t => simp [formatT_admits_iff, imp_iff_not_or]

/-- An illegal word written to `CMD` (R133), when the core does not wait. -/
theorem step_illegal {s : State} {w : Word} {es : List Event} (hh : s.held = [])
    (hp : s.pending = .regWrite 0#15 w :: es) (hm : s.mode ≠ .fault) (hw : ∀ i, decode w ≠ .ok i) :
    step s = .next (complete ({ s with pending := es }.raised .illegalCommand 0#4 w)) := by
  have hissue : issue w { s with pending := es } = .next ({ s with pending := es }.raised .illegalCommand 0#4 w) := by
    unfold issue
    split
    · rename_i i hi
      exact absurd hi (hw i)
    · rw [if_neg hm]
      rfl
  rw [step_of_nextEvent (nextEvent_of_not_waiting hh hp)]
  simp only [handle, regWrite, (locate_cmd 0#15).mpr rfl, hissue, onNext]

/-- Settles O5: the four kinds are the words the decoder rejects, and for those `issue` raises and changes nothing
else. -/
theorem illegalWordRaises : Obligations.IllegalWordRaises := by
  unfold Obligations.IllegalWordRaises
  have hillegal : ∀ w, Illegal w ↔ ∀ i, decode w ≠ .ok i := fun w => by
    rw [illegal_iff, legalWord_iff_decodes, not_exists]
  refine ⟨hillegal, fun s w es hh hp hm hw => ⟨_, step_illegal hh hp hm ((hillegal w).mp hw), ?_⟩⟩
  apply State.ext <;> simp

end Sys2Proof.Machine
end

section
/-! SUPPORT. A write to `CMD` that the bus accepts (R130), and the frame of its answer. -/

namespace Sys2Proof.Machine

/-- The answer to a `CMD` write: `ok` once no byte of the command waits (R130; log 9). -/
theorem complete_eq_ite (s : State) :
    complete s = if s.held = [] then { s with answers := s.answers ++ [.ok] } else s := by
  unfold complete State.waits
  cases hh : s.held with
  | nil => simp [answer, hh]
  | cons b bs => simp

/-- Completing a `CMD` write touches the record of answers only. -/
theorem complete_frame (s : State) : complete s = { s with answers := (complete s).answers } := by
  unfold complete
  split <;> rfl

/-- A write to `CMD` when the core does not wait issues the word (R130). -/
theorem step_regWrite_cmd {s : State} {w : Word} {es : List Event} (hh : s.held = [])
    (hp : s.pending = .regWrite 0#15 w :: es) : step s = onNext complete (issue w { s with pending := es }) := by
  rw [step_of_nextEvent (nextEvent_of_not_waiting hh hp)]
  simp only [handle, regWrite, (locate_cmd 0#15).mpr rfl]

theorem issue_of_decode {w : Word} {i : Instr} (h : decode w = .ok i) (s : State) : issue w s = exec i s := by
  unfold issue
  rw [h]

theorem encode_reset : encode .reset = 0x00000100#32 := rfl

/-- In `FAULT` mode every command but `RESET` has no effect (R131). -/
theorem exec_of_fault {i : Instr} (hi : i ≠ .reset) {s : State} (hm : s.mode = .fault) : exec i s = .next s := by
  rw [exec_eq_command hi, command_fault i _ hm]

/-- In `FAULT` mode every word but that of `RESET` has no effect, legal or not (R131). -/
theorem issue_of_fault {w : Word} (hw : w ≠ encode .reset) {s : State} (hm : s.mode = .fault) : issue w s = .next s := by
  cases hd : decode w with
  | ok i =>
    have hi : i ≠ .reset := by
      rintro rfl
      exact hw (encode_of_decode hd).symm
    rw [issue_of_decode hd, exec_of_fault hi hm]
  | error d =>
    unfold issue
    rw [hd]
    exact if_pos hm

/-- `RESET`'s state is the one R139 lists. -/
theorem resetBlock_eq_afterReset (s : State) : resetBlock s = afterReset s := rfl

end Sys2Proof.Machine
end

section
/-! PROOFS. Dispatch (R130, R131, R135) and the two commands of every mode (R138, R139). -/

namespace Sys2Proof.Machine

/-- The `require` line of the model is the table's column (R136). -/
theorem accepts_iff (i : Instr) (s : State) : accepts i s = true ↔ RequireHolds i s := by
  cases i <;> simp [accepts, RequireHolds]

/-- Settles O4: the bus accepts the write, and `issue` runs the decoded command. -/
theorem stepRunsTheDecodedCommand : Obligations.StepRunsTheDecodedCommand := by
  unfold Obligations.StepRunsTheDecodedCommand
  intro s w i es hh hp hd
  rw [step_regWrite_cmd hh hp, issue_of_decode hd]
  cases exec i { s with pending := es } with
  | next t => exact congrArg Host.Outcome.next (complete_eq_ite t)
  | fault f => rfl
  | refused r => rfl

/-- Settles O6: a word other than `RESET`'s leaves all but the answer, legal or not; `RESET` runs `resetBlock`. -/
theorem faultModeIgnoresAllButReset : Obligations.FaultModeIgnoresAllButReset := by
  unfold Obligations.FaultModeIgnoresAllButReset
  intro s w es hh hp hm
  have hstep := step_regWrite_cmd hh hp
  rw [← encode_reset]
  by_cases hw : w = encode .reset
  · rw [issue_of_decode (hw ▸ decode_encode .reset), exec_reset] at hstep
    exact ⟨_, hstep, fun hne => absurd hw hne, fun _ => complete_frame _⟩
  · rw [issue_of_fault (s := { s with pending := es }) hw hm] at hstep
    exact ⟨_, hstep, fun _ => complete_frame _, fun e => absurd e hw⟩

/-- Settles O7: only `RESET` runs outside the frame, and it has no `require` line. -/
theorem failedRequireRaisesSequenceError : Obligations.FailedRequireRaisesSequenceError := by
  unfold Obligations.FailedRequireRaisesSequenceError
  intro i s hm hr
  have hi : i ≠ .reset := by
    rintro rfl
    exact hr trivial
  have ha : accepts i s = false := Bool.eq_false_iff.mpr (mt (accepts_iff i s).mp hr)
  rw [exec_eq_command hi, command_rejects i _ hm ha]
  rfl

/-- Settles O9: `NOP` does nothing, whether `FAULT` mode stops it or its empty pseudocode runs. -/
theorem nopAndResetActInEveryMode : Obligations.NopAndResetActInEveryMode := by
  unfold Obligations.NopAndResetActInEveryMode
  refine ⟨rfl, encode_reset, fun s => ⟨?_, congrArg Host.Outcome.next (resetBlock_eq_afterReset s)⟩⟩
  by_cases hm : s.mode = .fault
  · exact exec_of_fault (i := .nop) nofun hm
  · exact command_accepts .nop _ hm rfl

end Sys2Proof.Machine
end

section
/-! SUPPORT. The mode table (R136): the flags each pseudocode leaves, at its end and at a `raise`. -/

namespace Sys2Proof.Machine

/-! ### `RECON`'s symbol loop -/

theorem placeSym_go {x : Byte} {s t : State} (h : placeSym x s = .go t) :
    t = { s with nodes := t.nodes, root := t.root } := by
  unfold placeSym at h
  split at h
  · cases h
    rfl
  · exact (place_go h).1

theorem placeSym_raised {x : Byte} {s t : State} (h : placeSym x s = .raised t) :
    codeOf s x ≠ none ∧ ∃ sub, (sub = 3#4 ∨ sub = 4#4 ∨ sub = 5#4) ∧
      t = { s.raised .structuralCorruption sub (x.zeroExtend 32) with nodes := t.nodes, root := t.root } := by
  unfold placeSym at h
  split at h
  · cases h
  · rename_i c hc
    exact ⟨by simp [hc], place_raised h⟩

/-- A fault in the loop is that of one symbol of the table, and leaves all but the arena and the record (R245, R263). -/
theorem placeSyms_raised {xs : List Byte} {s t : State} (h : placeSyms xs s = .raised t) :
    ∃ x, codeOf s x ≠ none ∧ ∃ sub, (sub = 3#4 ∨ sub = 4#4 ∨ sub = 5#4) ∧
      t = { s.raised .structuralCorruption sub (x.zeroExtend 32) with nodes := t.nodes, root := t.root } := by
  induction xs generalizing s with
  | nil => cases h
  | cons x xs ih =>
    rcases bind_eq_raised h with hx | ⟨u, hu, ht⟩
    · exact ⟨x, placeSym_raised hx⟩
    · have hrest := ih ht
      rw [placeSym_go hu] at hrest
      exact hrest

/-! ### The flags after each pseudocode -/

/-- How a pseudocode started in `s` leaves the flags: at its end the row of the mode table (R136); at a `raise` `FAULT`
and the flags as before, but for `RECON`, which has cleared `TREEV` by then (R245). -/
inductive Flow.FollowsModeTable (i : Instr) (s : State) : Flow → Prop
  | go {t : State} (h : FlagsAfter i s t) : FollowsModeTable i s (.go t)
  | raised {t : State} (h : t.flags = (.fault, if i = .recon then false else s.treev, s.tabv)) :
    FollowsModeTable i s (.raised t)
  | stuck (f : Fault) : FollowsModeTable i s (.stuck f)

/-- A command whose effect leaves `TREEV` and `TABV` alone and ends in mode `m`, where the table says just that. -/
theorem followsModeTable_of_writes {i : Instr} {s : State} (hi : i ≠ .recon) (m : Mode)
    (hrow : ∀ t : State, t.flags = (m, s.treev, s.tabv) → FlagsAfter i s t)
    (hwrites : ∀ t, Writes i s t → t.flags = (m, s.treev, s.tabv) := by intro t hw; rw [hw]; rfl) :
    (bodyOf i s).FollowsModeTable i s := by
  have h := bodyOf_effect i s
  generalize bodyOf i s = r at h
  cases h with
  | go h => exact .go (hrow _ (hwrites _ h.1))
  | stuck f _ => exact .stuck f
  | @raised u c sub info h _ =>
    have hu : u.treev = s.treev ∧ u.tabv = s.tabv := by
      rcases h with rfl | h
      · exact ⟨rfl, rfl⟩
      · exact Prod.mk.inj (Prod.mk.inj (hwrites u h.1)).2
    exact .raised (by simp [State.flags, hi, hu])

theorem buildTree_followsModeTable {s : State} (hm : s.mode = .idle) :
    (buildTree s).FollowsModeTable .build s := by
  by_cases hT : Config.cmax < freqTotal s
  · rw [buildTree_overflow hT]
    exact .raised rfl
  · rw [buildTree_merged hT]
    exact .go (congrArg (·, true, false) hm)

theorem genTable_followsModeTable {s : State} (hm : s.mode = .idle) (htreev : s.treev = true) :
    (genTable s).FollowsModeTable .gentab s := by
  unfold genTable
  split
  · exact .stuck _
  · rw [storeCodes_frame]
    exact .go (by simp [FlagsAfter, State.flags, hm, htreev])

theorem reconTree_followsModeTable {s : State} (hm : s.mode = .idle) (htabv : s.tabv = true) :
    (reconTree s).FollowsModeTable .recon s := by
  unfold reconTree
  cases e : placeSyms allSyms { s with treev := false, nodes := [], root := Config.nil } with
  | stuck f => exact .stuck f
  | go t =>
    rw [(placeSyms_go e).1]
    exact .go (by simp [FlagsAfter, State.flags, hm, htabv])
  | raised t =>
    obtain ⟨x, -, sub, -, ht⟩ := placeSyms_raised e
    rw [ht]
    exact .raised rfl

/-- The last entry ends the header (R236): `TABV` = 1 in `IDLE`. -/
theorem entryDone_flags (s : State) :
    (entryDone s).flags = s.flags ∨ (entryDone s).flags = (.idle, s.treev, true) := by
  unfold entryDone
  dsimp only
  split
  · exact .inr rfl
  · exact .inl rfl

theorem parseByte_followsModeTable (b : Byte) {s : State} (hs : s.flags = (.loadtab, false, false)) :
    (parseByte b s).FollowsModeTable (.tabb b) s := by
  have htreev : s.treev = false := congrArg (·.2.1) hs
  have stays : ∀ {t : State}, t.flags = s.flags → FlagsAfter (.tabb b) s t := fun h => .inl (h.trans hs)
  have ends : ∀ {t : State}, t.flags = (.idle, s.treev, true) → FlagsAfter (.tabb b) s t := fun h =>
    .inr (h.trans (by rw [htreev]))
  have done : ∀ u : State, u.flags = s.flags → FlagsAfter (.tabb b) s (entryDone u) := fun u hu => by
    have hu2 : u.treev = s.treev := congrArg (·.2.1) hu
    exact (entryDone_flags u).elim (fun h => stays (h.trans hu)) (fun h => ends (h.trans (by rw [hu2])))
  unfold parseByte
  split
  case h_1 | h_3 | h_4 | h_5 => exact .go (stays rfl)
  case h_2 =>
    split
    · exact .raised rfl
    · exact .go (stays rfl)
  case h_6 =>
    split
    · exact .go (ends rfl)
    · exact .go (stays rfl)
  case h_7 =>
    split
    · exact .raised rfl
    · exact .go (stays rfl)
  case h_8 =>
    split
    · exact .go (done _ rfl)
    · exact .go (stays rfl)
  case h_9 =>
    dsimp only
    split
    · exact .go (done _ rfl)
    · exact .go (stays rfl)

/-- Every command that is accepted where the flags suit the mode follows the table (R136). -/
theorem bodyOf_followsModeTable {i : Instr} {s : State} (hok : ModeOk s) (hr : RequireHolds i s) :
    (bodyOf i s).FollowsModeTable i s := by
  obtain ⟨henc, hdec, hload⟩ := hok
  cases i with
  | nop | reset | tabstart => exact .go rfl
  | tabend => exact .raised rfl
  | build => exact buildTree_followsModeTable hr
  | gentab => exact genTable_followsModeTable hr.1 hr.2
  | recon => exact reconTree_followsModeTable hr.1 hr.2
  | tabb b =>
    obtain ⟨htreev, htabv⟩ := hload hr
    exact parseByte_followsModeTable b (by rw [State.flags, hr, htreev, htabv])
  | clrf | count x => exact followsModeTable_of_writes nofun s.mode (fun t h => h.trans (by rw [hr]))
  | ser => exact followsModeTable_of_writes nofun s.mode (fun t h => h.trans (by rw [hr.1, hr.2]))
  | encstart => exact followsModeTable_of_writes nofun .enc (fun t h => h.trans (by rw [hr.2]))
  | enc x => exact followsModeTable_of_writes nofun s.mode (fun t h => h.trans (by rw [henc hr, hr]))
  | encend => exact followsModeTable_of_writes nofun .idle (fun t h => h.trans (by rw [henc hr]))
  | decstart => exact followsModeTable_of_writes nofun .dec (fun t h => h.trans (by rw [hr.2]))
  | decb b | decbit b => exact followsModeTable_of_writes nofun s.mode (fun t h => h.trans (by rw [hdec hr, hr]))
  | decend => exact followsModeTable_of_writes nofun .idle (fun t h => h.trans (by rw [hdec hr]))

/-! ### What a row of the table gives -/

/-- No row of the table ends in `FAULT`, but that of `NOP`, which stays where it is. -/
theorem FlagsAfter.mode_ne_fault {i : Instr} {s t : State} (h : FlagsAfter i s t) (hm : s.mode ≠ .fault) :
    t.mode ≠ .fault := by
  cases i with
  | nop =>
    have hmode : t.mode = s.mode := congrArg Prod.fst h
    rwa [hmode]
  | tabend => exact h.elim
  | tabb b => rcases h with h | h <;> simp [(Prod.mk.inj h).1]
  | _ => simp [(Prod.mk.inj h).1]

/-- `FAULT` implies no flag. -/
theorem modeOk_of_fault {s : State} (h : s.mode = .fault) : ModeOk s := by simp [ModeOk, h]

theorem modeOk_of_flags {s : State} {m : Mode} {a b : Bool} (h : s.flags = (m, a, b))
    (hm : (m = .enc → b = true) ∧ (m = .dec → a = true) ∧ (m = .loadtab → a = false ∧ b = false)) : ModeOk s := by
  cases h
  exact hm

/-- Every row of the table leaves the flags its mode implies. -/
theorem FlagsAfter.modeOk {i : Instr} {s t : State} (h : FlagsAfter i s t) (hs : ModeOk s) : ModeOk t := by
  cases i with
  | nop => exact modeOk_of_flags h hs
  | tabend => exact h.elim
  | tabb b => rcases h with h | h <;> exact modeOk_of_flags h (by simp)
  | _ => exact modeOk_of_flags h (by simp)

end Sys2Proof.Machine
end

section
/-! PROOFS. The mode machine and the flags each mode implies (R136, R82). -/

namespace Sys2Proof.Machine

/-- Settles O8: an accepted pseudocode follows the table; a refused command only raises. -/
theorem modeMachine : Obligations.ModeMachine := by
  unfold Obligations.ModeMachine
  intro i s t hok hm h
  rcases exec_cases h with ⟨rfl, rfl⟩ | ⟨-, hfault, -⟩ | ⟨-, -, ha, rfl⟩ | ⟨-, -, ha, hbody⟩
  · exact ⟨fun _ _ => rfl, nofun⟩
  · exact absurd hfault hm
  · have hr : ¬ RequireHolds i s := fun hr => by simp [(accepts_iff i s).mpr hr] at ha
    exact ⟨fun hr' => absurd hr' hr, fun _ => ⟨rfl, fun _ => rfl, fun _ hr' => absurd hr' hr⟩⟩
  · have hr := (accepts_iff i s).mp ha
    have hrow := bodyOf_followsModeTable hok hr
    rcases hbody with e | e <;> rw [e] at hrow
    · cases hrow with
      | go hafter => exact ⟨fun _ _ => hafter, fun hf => absurd hf (hafter.mode_ne_fault hm)⟩
    · cases hrow with
      | raised hflags =>
        obtain ⟨hmode, hrest⟩ := Prod.mk.inj hflags
        obtain ⟨htreev, htabv⟩ := Prod.mk.inj hrest
        refine ⟨fun _ hne => absurd hmode hne, fun _ => ⟨htabv, fun hi => ?_, fun hi _ => ?_⟩⟩
        · rw [htreev, if_neg (hi.resolve_right (not_not_intro hr))]
        · rw [htreev, if_pos hi]

theorem bodyOf_modeOk (i : Instr) (s : State) (ha : accepts i s = true) (h : ModeOk s) :
    (bodyOf i s).Leaves ModeOk := by
  have hrow := bodyOf_followsModeTable h ((accepts_iff i s).mp ha)
  generalize bodyOf i s = r at hrow
  cases hrow with
  | go hafter => exact .go (hafter.modeOk h)
  | raised hflags => exact .raised (modeOk_of_fault (Prod.mk.inj hflags).1)
  | stuck f => exact .stuck f

/-- Settles O54: every row of the mode table leaves the flags its mode implies, and in `FAULT` none is. -/
theorem stepKeepsModeFlags : Obligations.StepKeepsModeFlags := by
  unfold Obligations.StepKeepsModeFlags
  intro s t
  refine step_keeps_of_core (fun _ => Iff.rfl) ?_ ?_ (fun i s _ => bodyOf_modeOk i s)
  · exact ⟨nofun, nofun, nofun⟩
  · exact fun s c sub info _ _ => modeOk_of_fault rfl

end Sys2Proof.Machine
end

section
/-! SUPPORT. Command words, accepted commands and runs of several commands, and what `COUNT` does to the counts (R152). -/

namespace Sys2Proof.Machine

/-- The word of a command: its opcode shifted to bits 15 to 8, and its operand (R100). -/
theorem encode_eq_or (i : Instr) : encode i = i.op.zeroExtend 32 <<< 8 ||| i.operand.zeroExtend 32 := by
  refine (word_eq_iff_fields _ _).mpr ⟨?upper, ?opcode, ?operand⟩ <;> ext j hj
  case upper =>
    have hop : 8 ≤ 16 + j - 8 := by omega
    have hoperand : 8 ≤ 16 + j := by omega
    simp [BitVec.getLsbD_of_ge _ _ hop, BitVec.getLsbD_of_ge _ _ hoperand]
  case opcode =>
    have hlt : j < 32 ∧ 8 + j < 32 := by omega
    simp [hlt, hj]
  case operand =>
    have hlt : j < 32 := by omega
    simp [hlt, hj]

/-- A command whose requirement holds is its pseudocode (R130). -/
theorem exec_accepted {i : Instr} (hi : i ≠ .reset) {s : State} (hm : s.mode ≠ .fault) (hr : RequireHolds i s) :
    exec i s = (bodyOf i s).finish := by
  rw [exec_eq_command hi, command_accepts i _ hm ((accepts_iff i s).mpr hr)]

/-! ### Runs -/

theorem execAll_cons_of_next {i : Instr} {s u : State} (h : exec i s = .next u) (is : List Instr) :
    execAll (i :: is) s = execAll is u := by
  rw [execAll, h]

/-- In `FAULT` mode a run without `RESET` has no effect (R131). -/
theorem execAll_of_fault {is : List Instr} (his : ∀ i ∈ is, i ≠ .reset) {s : State} (hm : s.mode = .fault) :
    execAll is s = .next s := by
  induction is with
  | nil => rfl
  | cons i is ih =>
    obtain ⟨hi, his⟩ := List.forall_mem_cons.mp his
    rw [execAll_cons_of_next (exec_of_fault hi hm), ih his]

/-! ### The counts -/

@[simp] theorem freqOf_clearFreq (s : State) (x : Byte) : freqOf (clearFreq s) x = 0#32 := rfl

/-- One occurrence of `x` counted: the state a `COUNT x` that does not fault leaves (R152). -/
def addCount (x : Byte) (s : State) : State := setFreq x (freqOf s x + 1#32) s

@[simp] theorem addCount_mode (x : Byte) (s : State) : (addCount x s).mode = s.mode := rfl

/-- Counting writes `FREQ` only. -/
theorem addCount_frame (x : Byte) (s : State) : addCount x s = { s with freq := (addCount x s).freq } := rfl

/-- Below 2^32 - 1 the increment does not wrap. -/
theorem toNat_freqOf_addCount {x : Byte} {s : State} (h : freqOf s x ≠ 0xFFFFFFFF#32) (y : Byte) :
    (freqOf (addCount x s) y).toNat = (freqOf s y).toNat + if x == y then 1 else 0 := by
  unfold addCount
  by_cases e : x = y
  · subst e
    simp only [freqOf_setFreq_same, beq_self_eq_true, if_true]
    bv_omega
  · simp [freqOf_setFreq_other _ _ (Ne.symm e), e]

theorem exec_count_below {x : Byte} {s : State} (hm : s.mode = .idle) (h : freqOf s x ≠ 0xFFFFFFFF#32) :
    exec (.count x) s = .next (addCount x s) := by
  rw [exec_accepted (i := .count x) nofun (by simp [hm]) hm, bodyOf, countSym, if_neg h]
  rfl

theorem exec_count_full {x : Byte} {s : State} (hm : s.mode = .idle) (h : freqOf s x = 0xFFFFFFFF#32) :
    exec (.count x) s = .next (faulted .overflow 1#4 (x.zeroExtend 32) s) := by
  rw [exec_accepted (i := .count x) nofun (by simp [hm]) hm, bodyOf, countSym, if_pos h]
  rfl

/-- `COUNT` over a sequence completes, and writes `FREQ` only, when no count would pass 2^32 - 1. -/
theorem execAll_count_completes {xs : List Byte} {s : State} (hm : s.mode = .idle)
    (hfit : ∀ y, (freqOf s y).toNat + xs.count y < 2 ^ 32) :
    ∃ t, execAll (xs.map .count) s = .next t ∧ t = { s with freq := t.freq } := by
  induction xs generalizing s with
  | nil => exact ⟨s, rfl, rfl⟩
  | cons x xs ih =>
    have hx : freqOf s x ≠ 0xFFFFFFFF#32 := by
      intro e
      have hfull := hfit x
      rw [e, List.count_cons_self, BitVec.toNat_ofNat] at hfull
      omega
    have hfit' : ∀ y, (freqOf (addCount x s) y).toNat + xs.count y < 2 ^ 32 := by
      intro y
      have hy := hfit y
      rw [List.count_cons] at hy
      rw [toNat_freqOf_addCount hx]
      omega
    obtain ⟨t, hrun, hframe⟩ := ih ((addCount_mode x s).trans hm) hfit'
    exact ⟨t, (execAll_cons_of_next (exec_count_below hm hx) _).trans hrun, hframe⟩

/-- `COUNT` over a sequence without a fault adds to each count the symbol's number of occurrences. -/
theorem execAll_count_adds {xs : List Byte} {s t : State} (hm : s.mode = .idle)
    (hrun : execAll (xs.map .count) s = .next t) (ht : t.mode ≠ .fault) (y : Byte) :
    (freqOf t y).toNat = (freqOf s y).toNat + xs.count y := by
  induction xs generalizing s with
  | nil =>
    cases hrun
    rfl
  | cons x xs ih =>
    rw [List.map_cons] at hrun
    by_cases hx : freqOf s x = 0xFFFFFFFF#32
    · rw [execAll_cons_of_next (exec_count_full hm hx), execAll_of_fault (by simp) rfl] at hrun
      cases hrun
      exact absurd rfl ht
    · rw [execAll_cons_of_next (exec_count_below hm hx)] at hrun
      rw [ih ((addCount_mode x s).trans hm) hrun, toNat_freqOf_addCount hx, List.count_cons]
      omega

end Sys2Proof.Machine
end

section
/-! PROOFS. The frequency counter (R151 to R153). -/

namespace Sys2Proof.Machine

/-- Settles O10: accepted, `CLRF` is `clearFreq`; else its requirement fails (`failedRequireRaisesSequenceError`). -/
theorem clrfClearsTheCounts : Obligations.ClrfClearsTheCounts := by
  unfold Obligations.ClrfClearsTheCounts
  refine ⟨rfl, fun s => ⟨fun hm => ⟨clearFreq s, ?_, rfl, freqOf_clearFreq s⟩, fun hm hf => ?_⟩⟩
  · exact exec_accepted (i := .clrf) nofun (by simp [hm]) hm
  · exact failedRequireRaisesSequenceError .clrf s hf hm

/-- Settles O11: below 2^32 - 1 the command is `addCount`, at 2^32 - 1 it raises, and in another mode its requirement
fails. -/
theorem countIncrements : Obligations.CountIncrements := by
  unfold Obligations.CountIncrements
  refine fun x s => ⟨?_, fun hm hx => ?_, exec_count_full, fun hm hf => ?_⟩
  · exact encode_eq_or (.count x)
  · exact ⟨addCount x s, exec_count_below hm hx, addCount_frame x s, freqOf_setFreq_same .., fun y hy =>
      freqOf_setFreq_other _ _ hy⟩
  · exact failedRequireRaisesSequenceError (.count x) s hf hm

/-- Settles O12: from counts of 0 each count ends as the number of occurrences, which the length of the sequence
bounds. -/
theorem countsAddUp : Obligations.CountsAddUp := by
  unfold Obligations.CountsAddUp
  refine fun xs s hm hzero => ⟨fun hlen => execAll_count_completes hm fun y => ?_, fun t hrun ht x => ?_⟩
  · rw [hzero, BitVec.toNat_zero, Nat.zero_add]
    exact List.count_le_length.trans_lt hlen
  · have hcount : (freqOf t x).toNat = xs.count x := by
      rw [execAll_count_adds hm hrun ht, hzero, BitVec.toNat_zero, Nat.zero_add]
    exact ⟨hcount, by rw [hcount, List.count_pos_iff]⟩

end Sys2Proof.Machine
end

section
/-! SUPPORT. Paths step by step, the codes of `GENTAB` (R181), and why codes that are paths to leaves are
`PrefixFree`. -/

namespace Sys2Proof.Machine

/-! ### Paths -/

/-- A path of at least one step goes on from the child (R31). -/
theorem descend_cons_eq {nodes : List Node} {h : Handle} (hne : h ≠ Config.nil) (t : Bool) (p : BitSeq) :
    descend nodes h (t :: p) = descend nodes (childAt nodes h.toNat t) p := by
  cases e : nodeAt nodes h with
  | none =>
    have hchild : childAt nodes h.toNat t = Config.nil := by
      unfold nodeAt at e
      simp [childAt, e]
    rw [hchild, descend_of_nil, descend, if_neg hne, e]
  | some n =>
    rw [childAt_of_nodeAt e]
    cases n with
    | leaf x w => rw [descend_leaf e, child_leaf, descend_of_nil]
    | internal w l r => rw [descend_internal hne e, child_internal]

/-- The empty path stays where it is. -/
theorem eq_of_descend_nil {nodes : List Node} {h g : Handle} (e : descend nodes h [] = some g) : h = g := by
  unfold descend at e
  split at e
  · exact Option.some.inj e
  · cases e

/-- The last step of a path goes from a node to its allocated child. -/
theorem descend_concat_iff {nodes : List Node} {h g : Handle} {p : BitSeq} {t : Bool} :
    descend nodes h (p ++ [t]) = some g ↔
      ∃ f, descend nodes h p = some f ∧ childAt nodes f.toNat t = g ∧ g ≠ Config.nil ∧ g.toNat < nodes.length := by
  rw [descend_append, Option.bind_eq_some_iff]
  refine exists_congr fun f => and_congr_right fun hf => ?_
  rw [descend_cons_eq (descend_allocated hf).1]
  constructor
  · exact fun e => ⟨eq_of_descend_nil e, descend_allocated e⟩
  · rintro ⟨rfl, hne, hlt⟩
    exact descend_nil hne hlt

/-! ### Codes that are paths -/

/-- No path leads on from a leaf, so two paths to leaves of which one begins the other are the same path. -/
theorem eq_of_follow_leaf_of_prefix {nodes : List Node} {root : Handle} {x y : Byte} {w v : Word} {c d : BitSeq}
    (hc : follow nodes root c = some (.leaf x w)) (hd : follow nodes root d = some (.leaf y v)) (h : c <+: d) :
    x = y := by
  obtain ⟨p, rfl⟩ := h
  obtain ⟨g, hg, hleaf⟩ := Option.bind_eq_some_iff.mp hc
  unfold follow at hd
  rw [descend_append, hg, Option.bind_some] at hd
  cases p with
  | nil =>
    obtain ⟨hne, hlt⟩ := descend_allocated hg
    rw [descend_nil hne hlt, Option.bind_some, hleaf] at hd
    cases hd
    rfl
  | cons b p =>
    rw [descend_leaf hleaf, Option.bind_none] at hd
    cases hd

/-- Where each code is the path from one root to a leaf of its symbol, no code begins another (R170 c). -/
theorem prefixFree_of_paths {s : State} {nodes : List Node} {root : Handle}
    (h : ∀ x c, codeOf s x = some c → ∃ w, follow nodes root c = some (.leaf x w)) : PrefixFree s := by
  refine List.pairwise_filterMap.mpr (nodup_allSyms.imp fun {x y} hxy c hc d hd => ?_)
  obtain ⟨w, hw⟩ := h x c hc
  obtain ⟨v, hv⟩ := h y d hd
  exact ⟨fun hcd => hxy (eq_of_follow_leaf_of_prefix hw hv hcd),
    fun hdc => hxy (eq_of_follow_leaf_of_prefix hv hw hdc).symm⟩

/-! ### The codes of `GENTAB` -/

/-- A code in the table after the walk's codes were stored is one of them, or stood there before (R181). -/
theorem codeOf_storeCodes {cs : Codes} {s : State} {x : Byte} {c : BitSeq}
    (h : codeOf (storeCodes cs s) x = some c) : (x, c) ∈ cs ∨ codeOf s x = some c := by
  induction cs generalizing s with
  | nil => exact .inr h
  | cons d cs ih =>
    rcases ih h with hmem | hset
    · exact .inl (List.mem_cons_of_mem _ hmem)
    · by_cases hx : x = d.1
      · subst hx
        rw [codeOf_setCode_same] at hset
        cases hset
        exact .inl List.mem_cons_self
      · rw [codeOf_setCode_other _ _ hx] at hset
        exact .inr hset

/-- What the walk from `ROOT` has found: exactly the leaves of the tree, each with its path (R181). -/
theorem mem_treeCodes {s : State} {cs : Codes} (e : treeCodes s = .ok cs) (x : Byte) (c : BitSeq) :
    (x, c) ∈ cs ↔ ∃ w, follow s.nodes s.root c = some (.leaf x w) := by
  unfold treeCodes at e
  split at e
  · rename_i hroot
    cases e
    simp [hroot]
  · rename_i hroot
    simp [mem_walk hroot e x c]

/-- `GENTAB` writes paths to leaves only (R181). -/
theorem exec_gentab_codes {s u : State} (hm : s.mode = .idle) (htreev : s.treev = true)
    (h : exec .gentab s = .next u) {x : Byte} {c : BitSeq} (hc : codeOf u x = some c) :
    ∃ w, follow s.nodes s.root c = some (.leaf x w) := by
  rw [exec_accepted (i := .gentab) nofun (by simp [hm]) ⟨hm, htreev⟩, bodyOf, genTable] at h
  split at h
  · cases h
  · rename_i cs hcs
    cases h
    rcases codeOf_storeCodes hc with hmem | hnone
    · exact (mem_treeCodes hcs x c).mp hmem
    · cases hnone

end Sys2Proof.Machine
end

section
/-! SUPPORT. What `BUILD` leaves (R162): the leaves first, and above them one node per merge, which joins the two
smallest keys of the queue of its time (R161, R164, R167). -/

namespace Sys2Proof.Machine

/-! ### The queue and the keys of an arena that grows -/

theorem inQueue_append {nodes : List Node} (n : Node) {m : Nat} (hm : m ≤ nodes.length) (h : Handle) :
    InQueue (nodes ++ [n]) m h ↔ InQueue nodes m h := by
  have hchild : ∀ g < m, ∀ t, childAt (nodes ++ [n]) g t = childAt nodes g t := fun g hg t => by
    rw [childAt_append, if_neg (by omega)]
  exact and_congr_right fun _ => forall₂_congr fun g hg => forall_congr' fun t => by rw [hchild g hg t]

theorem keyBefore_append {nodes more : List Node} {a b : Handle} (ha : a.toNat < nodes.length)
    (hb : b.toNat < nodes.length) : KeyBefore (nodes ++ more) a b ↔ KeyBefore nodes a b := by
  unfold KeyBefore
  rw [weightAt_append ha, weightAt_append hb]

/-- A member of the queue that was there before is a member then too: no node is ever put back (R162). -/
theorem InQueue.earlier {nodes : List Node} {m n : Nat} {h : Handle} (hq : InQueue nodes n h) (hmn : m ≤ n)
    (hlt : h.toNat < m) : InQueue nodes m h :=
  ⟨hlt, fun g hg => hq.2 g (hg.trans_le hmn)⟩

/-- The queue's members are the nodes that are nobody's child (R162). -/
theorem Forest.mem_queue_iff {k : Nat} {q : List Handle} {nodes : List Node} (hf : Forest k q nodes)
    (hlen : nodes.length ≤ Config.nodeCap) (h : Handle) : h ∈ q ↔ InQueue nodes nodes.length h := by
  constructor
  · intro hq
    have hlt := hf.merge.queue_lt h hq
    have hne : h ≠ Config.nil := by
      rintro rfl
      exact absurd hlt (Nat.not_lt.mpr hlen)
    refine ⟨hlt, fun g hg t hchild => ?_⟩
    have hg' : (BitVec.ofNat 9 g).toNat = g := by
      simp only [Config.nodeCap] at hlen
      rw [BitVec.toNat_ofNat]
      omega
    obtain ⟨r, hr, p, hp⟩ := hf.reached (BitVec.ofNat 9 g) (by rwa [hg'])
    have hpath : descend nodes r (p ++ [t]) = some h :=
      descend_concat_iff.mpr ⟨_, hp, by rw [hg', hchild], hne, hlt⟩
    have := (hf.once r hr h hq _ [] h hpath (descend_nil hne hlt)).2
    simp at this
  · rintro ⟨hlt, hfree⟩
    obtain ⟨r, hr, p, hp⟩ := hf.reached h hlt
    rcases List.eq_nil_or_concat' p with rfl | ⟨p, t, rfl⟩
    · exact eq_of_descend_nil hp ▸ hr
    · obtain ⟨f, hf, hchild, -⟩ := descend_concat_iff.mp hp
      exact absurd hchild (hfree f.toNat (descend_allocated hf).2 t)

/-! ### One merge -/

/-- Node `m` joins the two smallest keys of the queue it was made from, the smaller on the left, and weighs what they
weigh together (R162, R164, R167). -/
def JoinsLightest (nodes : List Node) (m : Nat) : Prop :=
  ∃ a b : Handle,
    nodes[m]? = some (.internal (weightAt nodes a + weightAt nodes b) a b) ∧
    (weightAt nodes a).toNat + (weightAt nodes b).toNat < 2 ^ 32 ∧
    InQueue nodes m a ∧ InQueue nodes m b ∧ KeyBefore nodes a b ∧
    ∀ h, InQueue nodes m h → h ≠ a → h ≠ b → KeyBefore nodes b h

/-- Later allocations leave a merge what it is (R33). -/
theorem JoinsLightest.append {nodes : List Node} {m : Nat} (h : JoinsLightest nodes m) (n : Node) :
    JoinsLightest (nodes ++ [n]) m := by
  obtain ⟨a, b, hnode, hsum, ha, hb, hab, hrest⟩ := h
  have hm : m < nodes.length := (List.getElem?_eq_some_iff.mp hnode).1
  have hold : ∀ {h}, InQueue nodes m h → h.toNat < nodes.length := fun hq => hq.1.trans hm
  have hqueue := inQueue_append n hm.le
  refine ⟨a, b, ?_, ?_, (hqueue a).mpr ha, (hqueue b).mpr hb, (keyBefore_append (hold ha) (hold hb)).mpr hab, ?_⟩
  · rw [List.getElem?_append_left hm, weightAt_append (hold ha), weightAt_append (hold hb), hnode]
  · rwa [weightAt_append (hold ha), weightAt_append (hold hb)]
  · intro h hh hha hhb
    have hh' := (hqueue h).mp hh
    exact (keyBefore_append (hold hb) (hold hh')).mpr (hrest h hh' hha hhb)

/-- The two handles a merge extracts have the smallest keys of the queue, in this order (R162). -/
theorem mergeOnce_lightest {q q' : List Handle} {nodes nodes' : List Node} (hnd : q.Nodup)
    (e : mergeOnce q nodes = some (q', nodes')) :
    ∃ a b, a ∈ q ∧ b ∈ q.erase a ∧ nodes' = nodes ++ [.internal (weightAt nodes a + weightAt nodes b) a b] ∧
      KeyBefore nodes a b ∧ ∀ h ∈ q, h ≠ a → h ≠ b → KeyBefore nodes b h := by
  unfold mergeOnce at e
  split at e
  · cases e
  · rename_i a q₁ ha
    split at e
    · cases e
    · rename_i b q₂ hb
      cases e
      obtain ⟨haq, rfl, hamin⟩ := extractMin_spec ha
      obtain ⟨hbq, -, hbmin⟩ := extractMin_spec hb
      have hb' := hnd.mem_erase_iff.mp hbq
      refine ⟨a, b, haq, hbq, rfl, (hamin b hb'.2).resolve_left hb'.1, fun h hh hha hhb => ?_⟩
      exact (hbmin h (hnd.mem_erase_iff.mpr ⟨hha, hh⟩)).resolve_left hhb

/-- Two members of the queue weigh no more than the whole queue (R167). -/
theorem QueueWeighs.add_le {total : Nat} {q : List Handle} {nodes : List Node} (h : QueueWeighs total q nodes)
    {a b : Handle} (ha : a ∈ q) (hb : b ∈ q.erase a) :
    (weightAt nodes a).toNat + (weightAt nodes b).toNat ≤ total := by
  have hperm := (List.perm_cons_erase ha).trans ((List.perm_cons_erase hb).cons a)
  unfold QueueWeighs at h
  rw [← h, (hperm.map _).sum_eq]
  simp only [List.map_cons, List.sum_cons]
  omega

/-! ### The merge loop -/

/-- Between two merges of `BUILD` (R162): the forest, its weight, the leaves in their places and the merges so far. -/
structure Greedy (s : State) (q : List Handle) (nodes : List Node) : Prop where
  forest : Forest (leafNodes s).length q nodes
  weighs : QueueWeighs (freqTotal s) q nodes
  leaves : leafNodes s <+: nodes
  joins : ∀ m, (leafNodes s).length ≤ m → m < nodes.length → JoinsLightest nodes m

theorem greedy_leaves (s : State) : Greedy s (leafHandles (leafNodes s)) (leafNodes s) where
  forest := forest_leaves s
  weighs := queueWeighs_leaves s
  leaves := List.prefix_rfl
  joins _ hle hlt := absurd hlt (Nat.not_lt.mpr hle)

/-- The merge of two handles with the smallest keys of the queue is one of the two lightest (R162, R167). -/
theorem Greedy.joinsLightest_new {s : State} (hT : freqTotal s ≤ Config.cmax) {q : List Handle} {nodes : List Node}
    (h : Greedy s q nodes) (hlen : nodes.length ≤ Config.nodeCap) {a b : Handle} (ha : a ∈ q) (hb : b ∈ q.erase a)
    (hab : KeyBefore nodes a b) (hrest : ∀ h ∈ q, h ≠ a → h ≠ b → KeyBefore nodes b h) :
    JoinsLightest (nodes ++ [.internal (weightAt nodes a + weightAt nodes b) a b]) nodes.length := by
  have hb' := List.mem_of_mem_erase hb
  have hold := h.forest.merge.queue_lt
  have hqueue : ∀ g, InQueue (nodes ++ [.internal (weightAt nodes a + weightAt nodes b) a b]) nodes.length g ↔ g ∈ q :=
    fun g => (inQueue_append _ le_rfl g).trans (h.forest.mem_queue_iff hlen g).symm
  refine ⟨a, b, ?node, ?sum, (hqueue a).mpr ha, (hqueue b).mpr hb',
    (keyBefore_append (hold a ha) (hold b hb')).mpr hab, fun g hg hga hgb => ?rest⟩
  case node => rw [weightAt_append (hold a ha), weightAt_append (hold b hb'), List.getElem?_concat_length]
  case sum =>
    have hsum := h.weighs.add_le ha hb
    rw [weightAt_append (hold a ha), weightAt_append (hold b hb')]
    simp only [Config.cmax] at hT
    omega
  case rest =>
    have hgq := (hqueue g).mp hg
    exact (keyBefore_append (hold b hb') (hold g hgq)).mpr (hrest g hgq hga hgb)

theorem Greedy.mergeOnce {s : State} (hT : freqTotal s ≤ Config.cmax) {q q' : List Handle} {nodes nodes' : List Node}
    (h : Greedy s q nodes) (e : Machine.mergeOnce q nodes = some (q', nodes')) : Greedy s q' nodes' := by
  have hk := length_leafNodes_le s
  obtain ⟨_, _, _, hperm, -, -⟩ := mergeOnce_perm e
  have hlen : nodes.length < 511 := h.forest.length_lt hk hperm
  have hforest := h.forest.mergeOnce hk e
  have hweighs := h.weighs.mergeOnce hT (by omega) h.forest.merge.queue_lt e
  obtain ⟨a, b, ha, hb, rfl, hab, hrest⟩ := mergeOnce_lightest h.forest.nodup e
  refine ⟨hforest, hweighs, h.leaves.trans (List.prefix_append ..), fun m hle hlt => ?_⟩
  rw [List.length_append, List.length_singleton] at hlt
  rcases Nat.lt_or_eq_of_le (Nat.le_of_lt_succ hlt) with hold | rfl
  · exact (h.joins m hle hold).append _
  · exact h.joinsLightest_new hT hlen.le ha hb hab hrest

theorem greedy_merged {s : State} (hT : freqTotal s ≤ Config.cmax) : Greedy s (merged s).1 (merged s).2 :=
  mergeAll_keeps (fun h e => h.mergeOnce hT e) _ (greedy_leaves s)

/-! ### The numbers of the nodes (R163) -/

/-- One leaf per symbol of the alphabet, ascending (R162). -/
theorem leafNodes_eq_map (s : State) : leafNodes s = (alphabet s).map (fun x => .leaf x (freqOf s x)) := by
  unfold leafNodes alphabet
  generalize allSyms = xs
  induction xs with
  | nil => rfl
  | cons x xs ih => by_cases hx : freqOf s x = 0#32 <;> simp [hx, ih]

theorem length_leafNodes (s : State) : (leafNodes s).length = (alphabet s).length := by
  rw [leafNodes_eq_map, List.length_map]

/-- `k - 1` merges above `k` leaves (R163). -/
theorem length_merged_eq (s : State) : (merged s).2.length = 2 * (leafNodes s).length - 1 := by
  have hf := forest_merged s
  have hbal := hf.merge.balance
  rcases merged_queue s with hq | ⟨r, hq⟩
  · have hk : ¬ 0 < (leafNodes s).length := fun hpos => hf.queue_ne hpos hq
    omega
  · rw [hq, List.length_singleton] at hbal
    omega

/-- The node made last is nobody's child, so it is the root (R163). -/
theorem rootOf_merged (s : State) :
    rootOf (merged s).1 =
      if (leafNodes s).length = 0 then Config.nil else BitVec.ofNat 9 (2 * (leafNodes s).length - 2) := by
  have hf := forest_merged s
  have hlen := length_merged_eq s
  have hbal := hf.merge.balance
  have hk : (leafNodes s).length ≤ 256 := length_leafNodes_le s
  split
  · have hnil : (merged s).1 = [] := List.length_eq_zero_iff.mp (by omega)
    rw [hnil]
    rfl
  · have hlast : InQueue (merged s).2 (merged s).2.length (BitVec.ofNat 9 (2 * (leafNodes s).length - 2)) := by
      have hnum : (BitVec.ofNat 9 (2 * (leafNodes s).length - 2)).toNat = 2 * (leafNodes s).length - 2 := by
        rw [BitVec.toNat_ofNat]
        omega
      refine ⟨by omega, fun g hg t hchild => ?_⟩
      have hne : childAt (merged s).2 g t ≠ Config.nil := by
        rw [hchild]
        intro e
        rw [e] at hnum
        have : (Config.nil).toNat = 511 := rfl
        omega
      have hlt := (hf.merge.child_lt g t hne).2
      rw [hchild] at hlt
      omega
    have hmem := (hf.mem_queue_iff (length_merged s) _).mpr hlast
    rcases merged_queue s with hq | ⟨r, hq⟩ <;> rw [hq] at hmem ⊢
    · cases hmem
    · exact (List.mem_singleton.mp hmem).symm

/-! ### The command -/

/-- The state `BUILD` leaves when the counts fit (R162). -/
def afterBuild (s : State) : State :=
  { s with
    nodes := (merged s).2, root := rootOf (merged s).1, table := [], nent := BitVec.ofNat 9 (leafNodes s).length,
    nsym := BitVec.ofNat 32 (freqTotal s), treev := true, tabv := false }

theorem exec_build_fits {s : State} (hm : s.mode = .idle) (hT : freqTotal s ≤ Config.cmax) :
    exec .build s = .next (afterBuild s) := by
  rw [exec_accepted (i := .build) nofun (by simp [hm]) hm, bodyOf,
    buildTree_merged (Nat.not_lt.mpr hT), finish_go, afterBuild]

theorem exec_build_overflow {s : State} (hm : s.mode = .idle) (hT : Config.cmax < freqTotal s) :
    exec .build s = .next (faulted .overflow 2#4 (BitVec.ofNat 32 (freqTotal s)) s) := by
  rw [exec_accepted (i := .build) nofun (by simp [hm]) hm, bodyOf, buildTree_overflow hT]
  rfl

end Sys2Proof.Machine
end

section
/-! SUPPORT. Lighter nodes lie no higher in the tree of `BUILD` (R170 b): the keys leave the queue in rising order, so
of two nodes the one with the smaller key has the earlier parent, whose key is the smaller one in turn. -/

namespace Sys2Proof.Machine

theorem keyBefore_asymm {nodes : List Node} {a b : Handle} (h : KeyBefore nodes a b) : ¬ KeyBefore nodes b a :=
  fun h' => keyBefore_irrefl nodes a (keyBefore_trans h h')

theorem KeyBefore.weight_le {nodes : List Node} {a b : Handle} (h : KeyBefore nodes a b) :
    (weightAt nodes a).toNat ≤ (weightAt nodes b).toNat := by
  rcases h with h | ⟨h, -⟩
  · exact h.le
  · rw [h]

theorem keyBefore_of_weight_le {nodes : List Node} {a b : Handle}
    (hw : (weightAt nodes a).toNat ≤ (weightAt nodes b).toNat) (hlt : a.toNat < b.toNat) : KeyBefore nodes a b :=
  (Nat.lt_or_eq_of_le hw).imp_right fun e => ⟨BitVec.eq_of_toNat_eq e, hlt⟩

section Joins
variable {nodes : List Node} {f g : Handle}

/-- A merge's children were members of the queue (R162). -/
theorem JoinsLightest.inQueue (h : JoinsLightest nodes f.toNat) (t : Bool) :
    InQueue nodes f.toNat (childAt nodes f.toNat t) := by
  obtain ⟨a, b, hnode, -, ha, hb, -, -⟩ := h
  rw [childAt_of_nodeAt hnode, child_internal]
  cases t
  · exact ha
  · exact hb

/-- A merge's node weighs what its children weigh together, without overflow (R167). -/
theorem JoinsLightest.weight (h : JoinsLightest nodes f.toNat) :
    (weightAt nodes f).toNat =
      (weightAt nodes (childAt nodes f.toNat false)).toNat + (weightAt nodes (childAt nodes f.toNat true)).toNat := by
  obtain ⟨a, b, hnode, hsum, -⟩ := h
  have hweight : weightAt nodes f = weightAt nodes a + weightAt nodes b := by
    unfold weightAt nodeAt
    rw [hnode]
    rfl
  rw [childAt_of_nodeAt hnode, childAt_of_nodeAt hnode, child_internal, child_internal, hweight, BitVec.toNat_add]
  exact Nat.mod_eq_of_lt hsum

/-- Both children of a merge come before what stays in the queue (R162). -/
theorem JoinsLightest.child_keyBefore_rest (h : JoinsLightest nodes f.toNat) {c : Handle}
    (hc : InQueue nodes f.toNat c) (hne : ∀ t, childAt nodes f.toNat t ≠ c) (t : Bool) :
    KeyBefore nodes (childAt nodes f.toNat t) c := by
  obtain ⟨a, b, hnode, -, -, -, hab, hrest⟩ := h
  have hchild : ∀ t, childAt nodes f.toNat t = if t then b else a := fun t => by
    rw [childAt_of_nodeAt hnode, child_internal]
  have hbc : KeyBefore nodes b c :=
    hrest c hc (fun e => hne false ((hchild false).trans e.symm)) (fun e => hne true ((hchild true).trans e.symm))
  rw [hchild]
  cases t
  · exact keyBefore_trans hab hbc
  · exact hbc

/-- A merge's children come before its node, which weighs as much and is younger. -/
theorem JoinsLightest.child_keyBefore (h : JoinsLightest nodes f.toNat) (t : Bool) :
    KeyBefore nodes (childAt nodes f.toNat t) f := by
  refine keyBefore_of_weight_le ?_ (h.inQueue t).1
  rw [h.weight]
  cases t <;> omega

/-- A later merge of no lighter children makes the larger key. -/
theorem JoinsLightest.keyBefore_of_children (hf : JoinsLightest nodes f.toNat) (hg : JoinsLightest nodes g.toNat)
    (hlt : f.toNat < g.toNat) (h : ∀ t, KeyBefore nodes (childAt nodes f.toNat t) (childAt nodes g.toNat t)) :
    KeyBefore nodes f g := by
  refine keyBefore_of_weight_le ?_ hlt
  rw [hf.weight, hg.weight]
  exact Nat.add_le_add (h false).weight_le (h true).weight_le

end Joins

section Tree
variable {s : State} {q : List Handle} {nodes : List Node}

/-- A node with a child was made by a merge. -/
theorem Greedy.joins_of_child (h : Greedy s q nodes) {f : Handle} {t : Bool}
    (hne : childAt nodes f.toNat t ≠ Config.nil) : JoinsLightest nodes f.toNat :=
  h.joins _ (h.forest.merge.child_lt _ t hne).1 (lt_of_childAt_ne_nil hne)

/-- The keys leave the queue in rising order (R161, R162): what an earlier merge extracts comes before what a later one
does. A node of the later queue stood in the earlier one, or was made at that merge or after it. -/
theorem Greedy.child_keyBefore_child (h : Greedy s q nodes) {f : Handle} (hf : (leafNodes s).length ≤ f.toNat)
    {g : Handle} (hlt : f.toNat < g.toNat) (hg : g.toNat < nodes.length) (t u : Bool) :
    KeyBefore nodes (childAt nodes f.toNat t) (childAt nodes g.toNat u) := by
  have hjoin := h.joins f.toNat hf (hlt.trans hg)
  have hqueue := (h.joins g.toNat (by omega) hg).inQueue u
  generalize hc : childAt nodes g.toNat u = c at hqueue ⊢
  rcases Nat.lt_trichotomy c.toNat f.toNat with hold | hnew | hlater
  · exact hjoin.child_keyBefore_rest (hqueue.earlier hlt.le hold) (fun t => hqueue.2 f.toNat hlt t) t
  · obtain rfl := BitVec.eq_of_toNat_eq hnew
    exact hjoin.child_keyBefore t
  · have hcg : c.toNat < g.toNat := hqueue.1
    have hfc := hjoin.keyBefore_of_children (h.joins c.toNat (by omega) (by omega)) hlater
      fun t => h.child_keyBefore_child hf hlater (by omega) t t
    exact keyBefore_trans (hjoin.child_keyBefore t) hfc
termination_by g.toNat

/-- The later of two merges makes the larger key. -/
theorem Greedy.keyBefore_of_lt (h : Greedy s q nodes) {f g : Handle} (hf : (leafNodes s).length ≤ f.toNat)
    (hlt : f.toNat < g.toNat) (hg : g.toNat < nodes.length) : KeyBefore nodes f g :=
  (h.joins _ hf (hlt.trans hg)).keyBefore_of_children (h.joins _ (by omega) hg) hlt
    fun t => h.child_keyBefore_child hf hlt hg t t

/-- What lies below a node has a smaller key. -/
theorem Greedy.keyBefore_of_descend (h : Greedy s q nodes) {r x : Handle} {t : Bool} {p : BitSeq}
    (e : descend nodes r (p ++ [t]) = some x) : KeyBefore nodes x r := by
  induction p generalizing r with
  | nil =>
    obtain ⟨f, hf, rfl, hne, -⟩ := descend_concat_iff (p := []).mp e
    obtain rfl := eq_of_descend_nil hf
    exact (h.joins_of_child hne).child_keyBefore t
  | cons u p ih =>
    have e' := descend_cons e
    have hne : childAt nodes r.toNat u ≠ Config.nil := by
      intro hnil
      simp [hnil] at e'
    exact keyBefore_trans (ih e') ((h.joins_of_child hne).child_keyBefore u)

/-- A node with no smaller key than another's lies no deeper: their parents are in the same case (R170 b). -/
theorem Greedy.length_le_of_not_keyBefore (h : Greedy s q nodes) {r x y : Handle} {c d : BitSeq}
    (hc : descend nodes r c = some x) (hd : descend nodes r d = some y) (hxy : ¬ KeyBefore nodes x y) :
    c.length ≤ d.length := by
  induction c using List.reverseRecOn generalizing x y d with
  | nil => exact Nat.zero_le _
  | append_singleton c t ih =>
    rcases List.eq_nil_or_concat' d with rfl | ⟨d, u, rfl⟩
    · obtain rfl := eq_of_descend_nil hd
      exact absurd (h.keyBefore_of_descend hc) hxy
    · obtain ⟨f, hf, rfl, hfne, -⟩ := descend_concat_iff.mp hc
      obtain ⟨g, hg, rfl, hgne, -⟩ := descend_concat_iff.mp hd
      have hparents : ¬ KeyBefore nodes f g := by
        rcases Nat.lt_trichotomy f.toNat g.toNat with hlt | heq | hgt
        · have hk := (h.forest.merge.child_lt _ t hfne).1
          exact absurd (h.child_keyBefore_child hk hlt (lt_of_childAt_ne_nil hgne) t u) hxy
        · obtain rfl := BitVec.eq_of_toNat_eq heq
          exact keyBefore_irrefl nodes f
        · have hk := (h.forest.merge.child_lt _ u hgne).1
          exact keyBefore_asymm (h.keyBefore_of_lt hk hgt (lt_of_childAt_ne_nil hfne))
      rw [List.length_append, List.length_append]
      exact Nat.add_le_add_right (ih hf hg hparents) 1

/-- A leaf weighs what its symbol counts (R162). -/
theorem Greedy.weightAt_leaf (h : Greedy s q nodes) {g : Handle} {x : Byte} {w : Word}
    (e : nodeAt nodes g = some (.leaf x w)) : weightAt nodes g = freqOf s x := by
  have hlt : g.toNat < (leafNodes s).length := by
    by_contra hge
    obtain ⟨a, b, hnode, -⟩ := h.joins g.toNat (Nat.not_lt.mp hge) (nodeAt_lt e)
    unfold nodeAt at e
    rw [e] at hnode
    cases hnode
  have hmem : Node.leaf x w ∈ leafNodes s := by
    have hleaf : some (Node.leaf x w) = some (leafNodes s)[g.toNat] :=
      e.symm.trans (List.prefix_iff_getElem?.mp h.leaves _ hlt)
    rw [Option.some.inj hleaf]
    exact List.getElem_mem hlt
  rw [leafNodes_eq_map] at hmem
  obtain ⟨y, -, hy⟩ := List.mem_map.mp hmem
  cases hy
  unfold weightAt
  rw [e]
  rfl

/-- Of two symbols with leaves below `r`, the one with the higher count lies no deeper (R170 b). -/
theorem Greedy.length_le_of_freq_lt (h : Greedy s q nodes) {r : Handle} {x y : Byte} {w v : Word} {c d : BitSeq}
    (hc : follow nodes r c = some (.leaf x w)) (hd : follow nodes r d = some (.leaf y v))
    (hlt : (freqOf s y).toNat < (freqOf s x).toNat) : c.length ≤ d.length := by
  obtain ⟨f, hf, hx⟩ := Option.bind_eq_some_iff.mp hc
  obtain ⟨g, hg, hy⟩ := Option.bind_eq_some_iff.mp hd
  refine h.length_le_of_not_keyBefore hf hg (keyBefore_asymm (.inl ?_))
  rwa [h.weightAt_leaf hx, h.weightAt_leaf hy]

end Tree

end Sys2Proof.Machine
end

section
/-! PROOFS. The tree builder (R161 to R167, R170). -/

namespace Sys2Proof.Machine

/-- Settles O13: the leaves stay first in the arena, every later node is a merge, and the loop leaves one handle. -/
theorem buildNumbersTheNodes : Obligations.BuildNumbersTheNodes := by
  unfold Obligations.BuildNumbersTheNodes
  refine fun s hm => ⟨fun hT => ?_, exec_build_overflow hm⟩
  have hgreedy := greedy_merged hT
  rw [← length_leafNodes]
  refine ⟨afterBuild s, exec_build_fits hm hT, rfl, ?_, length_merged_eq s, fun h hle hlt => ?_, rootOf_merged s⟩
  · rw [← leafNodes_eq_map]
    exact (List.prefix_iff_eq_take.mp hgreedy.leaves).symm
  · obtain ⟨a, b, hnode, -⟩ := hgreedy.joins h hle hlt
    have hnum : (BitVec.ofNat 9 h).toNat = h := by
      have hcap : (merged s).2.length ≤ 511 := length_merged s
      have hlt' : h < (merged s).2.length := hlt
      rw [BitVec.toNat_ofNat]
      omega
    exact (isInternal_iff _ _).mpr ⟨_, a, b, by rw [nodeAt, hnum]; exact hnode⟩

/-- Settles O14: `Greedy` keeps it of every merge made. -/
theorem buildMergesTheTwoLightest : Obligations.BuildMergesTheTwoLightest := by
  unfold Obligations.BuildMergesTheTwoLightest
  intro s t hm hT h m hle hlt
  rw [exec_build_fits hm hT] at h
  cases h
  rw [← length_leafNodes] at hle
  exact (greedy_merged hT).joins m hle hlt

/-- Settles O18: every inner node of `BUILD`'s tree has two children, the lighter of two leaves lies no higher, and the
codes of `GENTAB` are the paths to the leaves. -/
theorem heavierSymbolsGetNoLongerCodes : Obligations.HeavierSymbolsGetNoLongerCodes := by
  unfold Obligations.HeavierSymbolsGetNoLongerCodes
  intro s t u hm hbuild ht hgentab
  rcases Nat.lt_or_ge Config.cmax (freqTotal s) with hT | hT
  · rw [exec_build_overflow hm hT] at hbuild
    cases hbuild
    exact absurd rfl ht
  · rw [exec_build_fits hm hT] at hbuild
    cases hbuild
    have hpaths : ∀ x c, codeOf u x = some c → ∃ w, follow (merged s).2 (rootOf (merged s).1) c = some (.leaf x w) :=
      fun x c hc => exec_gentab_codes (s := afterBuild s) hm rfl hgentab hc
    refine ⟨fun m hlt hi b => (merged_strict s hlt hi b).1, fun x y c d hc hd hlt => ?_, prefixFree_of_paths hpaths⟩
    obtain ⟨w, hw⟩ := hpaths x c hc
    obtain ⟨v, hv⟩ := hpaths y d hd
    exact (greedy_merged hT).length_le_of_freq_lt hw hv hlt

end Sys2Proof.Machine
end

section
/-! SUPPORT. The code table of `GENTAB` (R181): the walk finds each leaf once, so where every symbol has one leaf the
entries written, the entries counted in `NENT` and the codes read back are as many. -/

namespace Sys2Proof.Machine

/-! ### The walk -/

/-- No leaf is found twice: the paths on the left of a node and those on its right part at that node (R181). -/
theorem nodup_of_walk {nodes : List Node} {fuel : Nat} {h : Handle} {path : BitSeq} {cs : Codes}
    (e : walk nodes fuel h path = .ok cs) : cs.Nodup := by
  induction fuel generalizing h path cs with
  | zero => cases e
  | succ fuel ih =>
    unfold walk at e
    split at e
    · cases e
    · cases e
      exact List.nodup_singleton _
    · rename_i w l r hl
      obtain ⟨xs, ys, hx, hy, rfl⟩ := bothCodes_ok e
      have side : ∀ {g : Handle} {t : Bool} {zs : Codes},
          (if g = Config.nil then .ok [] else walk nodes fuel g (path ++ [t])) = Except.ok zs →
          zs.Nodup ∧ ∀ x c, (x, c) ∈ zs → path ++ [t] <+: c := by
        intro g t zs hz
        split at hz
        · cases hz
          exact ⟨.nil, nofun⟩
        · rename_i hne
          refine ⟨ih hz, fun x c hm => ?_⟩
          obtain ⟨p, v, rfl, -⟩ := (mem_walk hne hz x c).mp hm
          exact List.prefix_append _ _
      obtain ⟨hxs, hleft⟩ := side hx
      obtain ⟨hys, hright⟩ := side hy
      refine hxs.append hys fun ⟨x, c⟩ hmx hmy => ?_
      obtain ⟨p, rfl⟩ := hleft x c hmx
      have hpart := hright x _ hmy
      simp at hpart

theorem nodup_treeCodes {s : State} {cs : Codes} (e : treeCodes s = .ok cs) : cs.Nodup := by
  unfold treeCodes at e
  split at e
  · cases e
    exact .nil
  · exact nodup_of_walk e

/-- Two paths from `root` to leaves of one symbol are the same path. -/
def OneLeafPerSymbol (nodes : List Node) (root : Handle) : Prop :=
  ∀ x p q w v, follow nodes root p = some (.leaf x w) → follow nodes root q = some (.leaf x v) → p = q

/-- Where each symbol has one leaf, the walk names it once. -/
theorem OneLeafPerSymbol.nodup_syms {s : State} (h : OneLeafPerSymbol s.nodes s.root) {cs : Codes}
    (e : treeCodes s = .ok cs) : (cs.map Prod.fst).Nodup := by
  refine (nodup_treeCodes e).map_on ?_
  rintro ⟨x, c⟩ hc ⟨y, d⟩ hd (rfl : x = y)
  obtain ⟨w, hw⟩ := (mem_treeCodes e x c).mp hc
  obtain ⟨v, hv⟩ := (mem_treeCodes e x d).mp hd
  rw [h x c d w v hw hv]

/-- The walk of a sound tree ends (R181). -/
theorem exists_treeCodes {s : State} (h : TreeOk s) : ∃ cs, treeCodes s = .ok cs := by
  cases e : treeCodes s with
  | ok cs => exact ⟨cs, rfl⟩
  | error f => exact absurd (by rw [genTable, e]) (genTable_not_stuck h f)

/-! ### The entries written -/

/-- The symbols that have a code once the walk's codes are stored (R181). -/
theorem codeOf_storeCodes_ne_none_iff (cs : Codes) (s : State) (x : Byte) :
    codeOf (storeCodes cs s) x ≠ none ↔ x ∈ cs.map Prod.fst ∨ codeOf s x ≠ none := by
  induction cs generalizing s with
  | nil => simp [storeCodes]
  | cons d cs ih =>
    have hset : codeOf (setCode d.1 d.2 s) x ≠ none ↔ x = d.1 ∨ codeOf s x ≠ none := by
      by_cases hx : x = d.1
      · simp [hx]
      · simp [hx, codeOf_setCode_other]
    rw [show storeCodes (d :: cs) s = storeCodes cs (setCode d.1 d.2 s) from rfl, ih, hset, List.map_cons,
      List.mem_cons]
    tauto

theorem wf_storeCodes (cs : Codes) {s : State} (h : Memory.wf s.table = true) :
    Memory.wf (storeCodes cs s).table = true := by
  induction cs generalizing s with
  | nil => exact h
  | cons d cs ih => exact ih (wf_setCode d.1 d.2 h)

/-- Each code of a symbol not met before makes the table one entry longer. -/
theorem length_storeCodes {cs : Codes} {s : State} (hnd : (cs.map Prod.fst).Nodup)
    (hnew : ∀ x ∈ cs.map Prod.fst, codeOf s x = none) :
    (storeCodes cs s).table.length = s.table.length + cs.length := by
  induction cs generalizing s with
  | nil => rfl
  | cons d cs ih =>
    rw [List.map_cons, List.nodup_cons] at hnd
    obtain ⟨hd, hnd⟩ := hnd
    have hrest : ∀ x ∈ cs.map Prod.fst, codeOf (setCode d.1 d.2 s) x = none := fun x hx => by
      rw [codeOf_setCode_other _ _ (ne_of_mem_of_not_mem hx hd)]
      exact hnew x (List.mem_cons_of_mem _ hx)
    have hlen : (setCode d.1 d.2 s).table.length = s.table.length + 1 :=
      Memory.length_insert_new _ _ _ (hnew d.1 List.mem_cons_self)
    calc (storeCodes (d :: cs) s).table.length
        = (storeCodes cs (setCode d.1 d.2 s)).table.length := rfl
      _ = (setCode d.1 d.2 s).table.length + cs.length := ih hnd hrest
      _ = s.table.length + (d :: cs).length := by rw [hlen, List.length_cons]; omega

/-- As many codes as symbols that have one. -/
theorem length_codesInOrder_of_syms {s : State} {xs : List Byte} (hnd : xs.Nodup)
    (h : ∀ x, codeOf s x ≠ none ↔ x ∈ xs) : (codesInOrder s).length = xs.length := by
  have hperm : (allSyms.filter fun x => (codeOf s x).isSome).Perm xs :=
    (List.perm_ext_iff_of_nodup (nodup_allSyms.filter _) hnd).mpr fun x => by
      simp [← h, Option.isSome_iff_ne_none]
  rw [codesInOrder, List.length_filterMap_eq_countP, List.countP_eq_length_filter]
  exact hperm.length_eq

/-! ### The command -/

/-- The state `GENTAB` leaves when the walk finds `cs` (R181). -/
def afterGentab (cs : Codes) (s : State) : State :=
  { storeCodes cs { s with table := [] } with nent := BitVec.ofNat 9 cs.length, tabv := true }

theorem exec_gentab {s : State} (hm : s.mode = .idle) (htreev : s.treev = true) {cs : Codes}
    (e : treeCodes s = .ok cs) : exec .gentab s = .next (afterGentab cs s) := by
  rw [exec_accepted (i := .gentab) nofun (by simp [hm]) ⟨hm, htreev⟩, bodyOf, genTable, e]
  rfl

theorem afterGentab_frame (cs : Codes) (s : State) :
    afterGentab cs s =
      { s with table := (afterGentab cs s).table, nent := (afterGentab cs s).nent, tabv := true } := by
  unfold afterGentab
  rw [storeCodes_frame]

theorem afterGentab_eq_self {cs : Codes} {s : State} (htable : (afterGentab cs s).table = s.table)
    (hnent : (afterGentab cs s).nent = s.nent) (htabv : s.tabv = true) : afterGentab cs s = s := by
  rw [afterGentab_frame, htable, hnent, ← htabv]

theorem wf_afterGentab (cs : Codes) (s : State) : Memory.wf (afterGentab cs s).table = true :=
  wf_storeCodes cs (s := { s with table := [] }) rfl

/-- A code is the path to a leaf of its symbol (R181). -/
theorem follow_of_codeOf_afterGentab {s : State} {cs : Codes} (e : treeCodes s = .ok cs) {x : Byte} {c : BitSeq}
    (h : codeOf (afterGentab cs s) x = some c) : ∃ w, follow s.nodes s.root c = some (.leaf x w) := by
  rcases codeOf_storeCodes h with hmem | hcleared
  · exact (mem_treeCodes e x c).mp hmem
  · cases hcleared

/-- No code begins another (R170 c, R180). -/
theorem prefixFree_afterGentab {s : State} {cs : Codes} (e : treeCodes s = .ok cs) : PrefixFree (afterGentab cs s) :=
  prefixFree_of_paths fun _ _ => follow_of_codeOf_afterGentab e

theorem codeOf_afterGentab_ne_none_iff (cs : Codes) (s : State) (x : Byte) :
    codeOf (afterGentab cs s) x ≠ none ↔ x ∈ cs.map Prod.fst := by
  have hcleared : codeOf { s with table := [] } x = none := rfl
  exact (codeOf_storeCodes_ne_none_iff cs { s with table := [] } x).trans (by simp [hcleared])

/-- A symbol has a code exactly if it has a leaf (R181). -/
theorem codeOf_afterGentab_ne_none_iff_leaf {s : State} {cs : Codes} (e : treeCodes s = .ok cs) (x : Byte) :
    codeOf (afterGentab cs s) x ≠ none ↔ ∃ p w, follow s.nodes s.root p = some (.leaf x w) := by
  simp [codeOf_afterGentab_ne_none_iff, mem_treeCodes e]

/-- `NENT` is the number of codes where each symbol has one leaf (R37 a, R181). -/
theorem OneLeafPerSymbol.nent_eq_codes {s : State} (h : OneLeafPerSymbol s.nodes s.root) {cs : Codes}
    (e : treeCodes s = .ok cs) :
    (afterGentab cs s).nent = BitVec.ofNat 9 (codesInOrder (afterGentab cs s)).length := by
  rw [length_codesInOrder_of_syms (h.nodup_syms e) (codeOf_afterGentab_ne_none_iff cs s), List.length_map]
  rfl

/-- `NENT` is the number of entries where each symbol has one leaf (R37 a, R181). -/
theorem OneLeafPerSymbol.nent_eq_entries {s : State} (h : OneLeafPerSymbol s.nodes s.root) {cs : Codes}
    (e : treeCodes s = .ok cs) :
    (afterGentab cs s).nent = BitVec.ofNat 9 (afterGentab cs s).table.length := by
  have hlen : (afterGentab cs s).table.length = 0 + cs.length :=
    length_storeCodes (s := { s with table := [] }) (h.nodup_syms e) fun _ _ => rfl
  rw [hlen, Nat.zero_add]
  rfl

end Sys2Proof.Machine
end

section
/-! SUPPORT. The tree `RECON` makes (R245): every node has an address, the path of the slot it stands in, and is
reached by it; a leaf's address is the code of its symbol. -/

namespace Sys2Proof.Machine

/-! ### Allocation into a slot -/

/-- A slot `RECON` may write: `ROOT`, or a child field of an allocated `Internal` (R245). -/
def SlotWritable (s : State) : Slot → Prop
  | .root => True
  | .child p _ => isInternal s.nodes p = true

theorem SlotWritable.allocated {s : State} {slot : Slot} (h : SlotWritable s slot) : SlotAllocated s slot := by
  cases slot with
  | root => trivial
  | child p b =>
    obtain ⟨w, l, r, hn⟩ := (isInternal_iff _ _).mp h
    exact nodeAt_lt hn

theorem slotAllocated_of_slotVal {s : State} {slot : Slot} (h : slotVal slot s ≠ Config.nil) :
    SlotAllocated s slot := by
  cases slot with
  | root => trivial
  | child p b => exact lt_of_childAt_ne_nil h

/-- A slot write changes no leaf (R245). -/
theorem setChild_eq_leaf_iff {n : Node} {t : Bool} {h : Handle} {x : Byte} {w : Word} :
    n.setChild t h = .leaf x w ↔ n = .leaf x w := by
  cases n with
  | leaf y v => rfl
  | internal v l r => cases t <;> simp [Node.setChild]

theorem child_setChild_internal (w : Word) (l r : Handle) (b : Bool) (h : Handle) (t : Bool) :
    ((Node.internal w l r).setChild b h).child t = if t = b then h else (Node.internal w l r).child t := by
  cases b <;> cases t <;> rfl

/-- The nodes after an allocation into a slot: the slot's own node has one child more (R245). -/
theorem nodeAt_allocInto_child (p : Handle) (b : Bool) (n : Node) (s : State) (h : Handle) :
    nodeAt (allocInto (.child p b) n s).nodes h =
      (nodeAt (s.nodes ++ [n]) h).map
        (if p = h then fun m => m.setChild b (nextHandle s.nodes) else id) := by
  have hp : p.toNat = h.toNat ↔ p = h := BitVec.toNat_inj
  simp only [nodeAt, allocInto, setSlot, List.getElem?_modify, hp]
  split <;> simp

theorem nodeAt_allocInto_leaf_iff (slot : Slot) (n : Node) (s : State) {h : Handle} {x : Byte} {w : Word} :
    nodeAt (allocInto slot n s).nodes h = some (.leaf x w) ↔ nodeAt (s.nodes ++ [n]) h = some (.leaf x w) := by
  cases slot with
  | root => rfl
  | child p b =>
    rw [nodeAt_allocInto_child, Option.map_eq_some_iff]
    split <;> simp [setChild_eq_leaf_iff]

section Alloc
variable {s : State} {slot : Slot} {n : Node}

/-- The new node stands at the next handle. -/
theorem nodeAt_allocInto_new (hslot : SlotAllocated s slot) (hlen : s.nodes.length < 512) :
    nodeAt (allocInto slot n s).nodes (nextHandle s.nodes) = some n := by
  have hnew := nodeAt_new n hlen
  cases slot with
  | root => exact hnew
  | child p b =>
    have hne : p ≠ nextHandle s.nodes := by
      rintro rfl
      exact absurd hslot (by simp [SlotAllocated, nextHandle_toNat hlen])
    rw [nodeAt_allocInto_child, if_neg hne, hnew]
    rfl

/-- The slot holds the new handle, every other slot what it held (R245). -/
theorem slotVal_allocInto (hslot : SlotWritable s slot) (hn : ∀ t, n.child t = Config.nil) (other : Slot) :
    slotVal other (allocInto slot n s) = if other = slot then nextHandle s.nodes else slotVal other s := by
  have happend : ∀ i t, childAt (s.nodes ++ [n]) i t = childAt s.nodes i t := fun i t => by
    rw [childAt_append]
    split
    · rename_i hi
      rw [hn, hi]
      simp [childAt]
    · rfl
  cases slot with
  | root =>
    cases other with
    | root => rfl
    | child h t => exact happend h.toNat t
  | child p b =>
    cases other with
    | root => rfl
    | child h t =>
      obtain ⟨w, l, r, hp⟩ := (isInternal_iff _ _).mp hslot
      have hold : slotVal (.child h t) { s with nodes := s.nodes ++ [n] } = slotVal (.child h t) s := happend h.toNat t
      by_cases hph : p = h
      · subst hph
        have hp' : nodeAt (s.nodes ++ [n]) p = some (.internal w l r) := by rw [nodeAt_append (nodeAt_lt hp), hp]
        simp only [slotVal, nodeAt_allocInto_child, hp', hp, Option.map_some, if_true, child_setChild_internal,
          Slot.child.injEq, true_and]
      · have hne : ¬ Slot.child h t = .child p b := fun e => hph (Slot.child.inj e).1.symm
        rw [if_neg hne, ← hold]
        simp [slotVal, nodeAt_allocInto_child, hph]

/-- An empty slot is on no path, so every path stays what it is (R245). -/
theorem descend_allocInto (hslot : SlotWritable s slot) (hn : ∀ t, n.child t = Config.nil)
    (hnil : slotVal slot s = Config.nil) {h g : Handle} {p : BitSeq} (e : descend s.nodes h p = some g) :
    descend (allocInto slot n s).nodes h p = some g := by
  induction p generalizing h with
  | nil =>
    obtain ⟨hne, hlt⟩ := descend_allocated e
    cases eq_of_descend_nil e
    exact descend_nil hne (by rw [length_allocInto]; omega)
  | cons t p ih =>
    have hne : h ≠ Config.nil := by
      rintro rfl
      simp at e
    rw [descend_cons_eq hne, ← slotVal_child] at e
    have hother : Slot.child h t ≠ slot := by
      rintro rfl
      simp [hnil] at e
    rw [descend_cons_eq hne, ← slotVal_child, slotVal_allocInto hslot hn, if_neg hother]
    exact ih e

end Alloc

/-! ### Addresses -/

/-- The path to a slot, given the paths to the nodes. -/
def slotAddr (addr : Handle → BitSeq) : Slot → BitSeq
  | .root => []
  | .child h t => addr h ++ [t]

/-- The addresses when the next node is allocated into a slot. -/
def withNewAddr (addr : Handle → BitSeq) (nodes : List Node) (a : BitSeq) : Handle → BitSeq :=
  Function.update addr (nextHandle nodes) a

@[simp] theorem withNewAddr_new (addr : Handle → BitSeq) (nodes : List Node) (a : BitSeq) :
    withNewAddr addr nodes a (nextHandle nodes) = a := Function.update_self _ _ _

theorem withNewAddr_old (addr : Handle → BitSeq) {nodes : List Node} (a : BitSeq) (hlen : nodes.length < 512)
    {h : Handle} (hlt : h.toNat < nodes.length) : withNewAddr addr nodes a h = addr h := by
  refine Function.update_of_ne ?_ _ _
  rintro rfl
  exact absurd hlt (by simp [nextHandle_toNat hlen])

theorem slotAddr_withNewAddr (addr : Handle → BitSeq) {s : State} (a : BitSeq) (hlen : s.nodes.length < 512)
    {slot : Slot} (hslot : SlotAllocated s slot) : slotAddr (withNewAddr addr s.nodes a) slot = slotAddr addr slot := by
  cases slot with
  | root => rfl
  | child p b => rw [slotAddr, withNewAddr_old _ _ hlen hslot, slotAddr]

/-- The tree while `RECON` builds it: each node stands at its address, each leaf at the code of its symbol (R245). -/
structure Trie (addr : Handle → BitSeq) (s : State) : Prop extends Rising s where
  addr_slotVal : ∀ slot, Machine.slotVal slot s ≠ Config.nil → addr (Machine.slotVal slot s) = slotAddr addr slot
  codeOf_leaf : ∀ h x w, nodeAt s.nodes h = some (.leaf x w) → codeOf s x = some (addr h)
  reached : ∀ h : Handle, h.toNat < s.nodes.length → descend s.nodes s.root (addr h) = some h

/-- A path from `ROOT` is the address of the node it leads to. -/
theorem Trie.addr_of_descend {addr : Handle → BitSeq} {s : State} (h : Trie addr s) {p : BitSeq} {g : Handle}
    (e : descend s.nodes s.root p = some g) : addr g = p := by
  induction p using List.reverseRecOn generalizing g with
  | nil =>
    obtain ⟨hne, -⟩ := descend_allocated e
    cases eq_of_descend_nil e
    exact h.addr_slotVal .root hne
  | append_singleton p t ih =>
    obtain ⟨f, hf, rfl, hne, -⟩ := descend_concat_iff.mp e
    have haddr := h.addr_slotVal (.child f t) hne
    rwa [slotAddr, ih hf] at haddr

/-- A path to a leaf is the code of its symbol. -/
theorem Trie.codeOf_of_follow {addr : Handle → BitSeq} {s : State} (h : Trie addr s) {p : BitSeq} {x : Byte}
    {w : Word} (e : follow s.nodes s.root p = some (.leaf x w)) : codeOf s x = some p := by
  obtain ⟨g, hg, hleaf⟩ := Option.bind_eq_some_iff.mp e
  rw [h.codeOf_leaf g x w hleaf, h.addr_of_descend hg]

theorem Trie.oneLeafPerSymbol {addr : Handle → BitSeq} {s : State} (h : Trie addr s) :
    OneLeafPerSymbol s.nodes s.root := fun _ _ _ _ _ hp hq =>
  Option.some.inj ((h.codeOf_of_follow hp).symm.trans (h.codeOf_of_follow hq))

/-! ### Placing a symbol -/

/-- The tree has a leaf of `x`. -/
def HasLeaf (x : Byte) (s : State) : Prop := ∃ h w, nodeAt s.nodes h = some (.leaf x w)

theorem HasLeaf.allocInto {x : Byte} {s : State} (h : HasLeaf x s) (slot : Slot) (n : Node) :
    HasLeaf x (allocInto slot n s) := by
  obtain ⟨g, w, hg⟩ := h
  exact ⟨g, w, (nodeAt_allocInto_leaf_iff slot n s).mpr (by rw [nodeAt_append (nodeAt_lt hg), hg])⟩

theorem Trie.follow_of_hasLeaf {addr : Handle → BitSeq} {s : State} (h : Trie addr s) {x : Byte} (hx : HasLeaf x s) :
    ∃ p w, follow s.nodes s.root p = some (.leaf x w) := by
  obtain ⟨g, w, hg⟩ := hx
  exact ⟨addr g, w, by rw [follow, h.reached g (nodeAt_lt hg), Option.bind_some, hg]⟩

theorem length_lt_of_not_full {nodes : List Node} (h : ¬ arenaFull nodes = true) : nodes.length < 511 :=
  Nat.lt_of_not_le (of_decide_eq_false (Bool.eq_false_of_not_eq_true h))

theorem codeOf_allocInto (slot : Slot) (n : Node) (s : State) (x : Byte) :
    codeOf (allocInto slot n s) x = codeOf s x := by
  rw [allocInto_frame]
  rfl

section Alloc
variable {addr : Handle → BitSeq} {s : State} {slot : Slot} {n : Node}

/-- The nodes that stand in the tree are still reached once an empty slot is filled (R245). -/
theorem descend_root_allocInto (hslot : SlotWritable s slot) (hn : ∀ t, n.child t = Config.nil)
    (hnil : slotVal slot s = Config.nil) {g : Handle} {p : BitSeq} (e : descend s.nodes s.root p = some g) :
    descend (allocInto slot n s).nodes (allocInto slot n s).root p = some g := by
  have hother : Slot.root ≠ slot := by
    rintro rfl
    rw [show s.root = Config.nil from hnil, descend_of_nil] at e
    cases e
  have hroot : (allocInto slot n s).root = s.root := (slotVal_allocInto hslot hn .root).trans (if_neg hother)
  rw [hroot]
  exact descend_allocInto hslot hn hnil e

/-- The new node is reached by the path of its slot (R245). -/
theorem Trie.descend_allocInto_new (h : Trie addr s) (hslot : SlotWritable s slot) (hnil : slotVal slot s = Config.nil)
    (hlt : s.nodes.length < 511) (hn : ∀ t, n.child t = Config.nil) :
    descend (allocInto slot n s).nodes (allocInto slot n s).root (slotAddr addr slot) = some (nextHandle s.nodes) := by
  have hne := nextHandle_ne_nil hlt
  have hnew : (nextHandle s.nodes).toNat < (allocInto slot n s).nodes.length :=
    nodeAt_lt (nodeAt_allocInto_new hslot.allocated (by omega))
  have hval : slotVal slot (allocInto slot n s) = nextHandle s.nodes :=
    (slotVal_allocInto hslot hn slot).trans (if_pos rfl)
  cases slot with
  | root => exact descend_nil hne hnew
  | child p b =>
    have hparent := descend_root_allocInto hslot hn hnil (h.reached p hslot.allocated)
    exact descend_concat_iff.mpr ⟨p, hparent, hval, hne, hnew⟩

/-- `h := alloc(n); slot <- h` for a node without children and an empty slot (R245). -/
theorem Trie.allocInto (h : Trie addr s) (hslot : SlotWritable s slot) (hnil : slotVal slot s = Config.nil)
    (hfull : ¬ arenaFull s.nodes = true) (hn : ∀ t, n.child t = Config.nil)
    (hleaf : ∀ x w, n = .leaf x w → codeOf s x = some (slotAddr addr slot)) :
    Trie (withNewAddr addr s.nodes (slotAddr addr slot)) (allocInto slot n s) := by
  have hlt := length_lt_of_not_full hfull
  have hold : ∀ {g : Handle}, g.toNat < s.nodes.length → withNewAddr addr s.nodes (slotAddr addr slot) g = addr g :=
    withNewAddr_old _ _ (by omega)
  have hslots : ∀ {other : Slot}, SlotAllocated s other →
      slotAddr (withNewAddr addr s.nodes (slotAddr addr slot)) other = slotAddr addr other :=
    slotAddr_withNewAddr _ _ (by omega)
  have hnodes : ∀ {g : Handle}, g.toNat < (s.nodes ++ [n]).length →
      g.toNat < s.nodes.length ∨ g = nextHandle s.nodes :=
    lt_or_eq_nextHandle (by omega)
  refine ⟨(h.toRising.allocInto hslot.allocated hfull hn).1, fun other => ?slots, fun g x w hg => ?leaves,
    fun g hg => ?reached⟩
  case slots =>
    rw [slotVal_allocInto hslot hn other]
    split
    · rename_i he
      subst he
      intro _
      rw [withNewAddr_new, hslots hslot.allocated]
    · intro hother
      rw [hold (h.slotVal hother), hslots (slotAllocated_of_slotVal hother), h.addr_slotVal other hother]
  case leaves =>
    rw [nodeAt_allocInto_leaf_iff] at hg
    rw [codeOf_allocInto]
    rcases hnodes (nodeAt_lt hg) with hg' | rfl
    · rw [nodeAt_append hg'] at hg
      rw [hold hg', h.codeOf_leaf g x w hg]
    · rw [nodeAt_new n (by omega)] at hg
      rw [withNewAddr_new, hleaf x w (Option.some.inj hg)]
  case reached =>
    rcases hnodes (g := g) (by simpa [length_allocInto] using hg) with hg' | rfl
    · rw [hold hg']
      exact descend_root_allocInto hslot hn hnil (h.reached g hg')
    · rw [withNewAddr_new]
      exact h.descend_allocInto_new hslot hnil hlt hn

end Alloc

/-- Placing a symbol at its code keeps the tree, and every leaf in it, and makes the symbol's leaf (R245). -/
theorem Trie.place {x : Byte} {c : BitSeq} {slot : Slot} {addr : Handle → BitSeq} {s t : State} (h : Trie addr s)
    (hslot : SlotWritable s slot) (hc : codeOf s x = some (slotAddr addr slot ++ c)) (e : place x c slot s = .go t) :
    (∃ addr', Trie addr' t) ∧ HasLeaf x t ∧ ∀ y, HasLeaf y s → HasLeaf y t := by
  induction c generalizing slot addr s with
  | nil =>
    unfold Machine.place at e
    split at e
    · cases e
    · rename_i hnil
      split at e
      · cases e
      · rename_i hfull
        cases e
        have hlt := length_lt_of_not_full hfull
        refine ⟨⟨_, h.allocInto hslot (not_not.mp hnil) hfull (by simp) fun y w hy => ?_⟩,
          ⟨_, _, nodeAt_allocInto_new hslot.allocated (by omega)⟩, fun y hy => hy.allocInto _ _⟩
        cases hy
        rwa [List.append_nil] at hc
  | cons b c ih =>
    have hassoc : ∀ a : BitSeq, a ++ b :: c = a ++ [b] ++ c := fun a => by simp
    unfold Machine.place at e
    split at e
    · rename_i hnil
      split at e
      · cases e
      · rename_i hfull
        have hlt := length_lt_of_not_full hfull
        have hnew : SlotWritable (Machine.allocInto slot (.internal 0#32 Config.nil Config.nil) s)
            (.child (nextHandle s.nodes) b) :=
          (isInternal_iff _ _).mpr ⟨_, _, _, nodeAt_allocInto_new hslot.allocated (by omega)⟩
        have h' := h.allocInto hslot hnil hfull (n := .internal 0#32 Config.nil Config.nil) (by simp) nofun
        obtain ⟨htrie, hleaf, hkeep⟩ := ih h' hnew
          (by rw [codeOf_allocInto, hc, slotAddr, withNewAddr_new, hassoc]) e
        exact ⟨htrie, hleaf, fun y hy => hkeep y (hy.allocInto _ _)⟩
    · rename_i hne
      split at e
      · cases e
      · rename_i hn
        exact ih h (slot := .child (slotVal slot s) b) ((isInternal_iff _ _).mpr ⟨_, _, _, hn⟩)
          (by rw [hc, slotAddr, h.addr_slotVal slot hne, hassoc]) e
      · cases e

/-- The symbol loop makes a leaf for each symbol of the table it passes (R245). -/
theorem Trie.placeSyms {xs : List Byte} {addr : Handle → BitSeq} {s t : State} (h : Trie addr s)
    (e : placeSyms xs s = .go t) :
    (∃ addr', Trie addr' t) ∧ ∀ y, HasLeaf y s ∨ (y ∈ xs ∧ codeOf s y ≠ none) → HasLeaf y t := by
  induction xs generalizing addr s with
  | nil =>
    cases e
    exact ⟨⟨addr, h⟩, fun y hy => hy.resolve_right (by simp)⟩
  | cons x xs ih =>
    obtain ⟨u, hu, ht⟩ := bind_eq_go e
    have hcode : ∀ y, codeOf u y = codeOf s y := fun y => by
      rw [placeSym_go hu]
      rfl
    have hplace : (∃ addr', Trie addr' u) ∧ (codeOf s x ≠ none → HasLeaf x u) ∧
        ∀ y, HasLeaf y s → HasLeaf y u := by
      unfold placeSym at hu
      split at hu
      · rename_i hx
        cases hu
        exact ⟨⟨addr, h⟩, absurd hx, fun y hy => hy⟩
      · rename_i c hx
        obtain ⟨htrie, hleaf, hkeep⟩ := h.place (slot := .root) trivial hx hu
        exact ⟨htrie, fun _ => hleaf, hkeep⟩
    obtain ⟨⟨addr', hu'⟩, hleaf, hkeep⟩ := hplace
    obtain ⟨htrie, hrest⟩ := ih hu' ht
    refine ⟨htrie, fun y hy => hrest y ?_⟩
    rcases hy with hy | ⟨hy, hcy⟩
    · exact .inl (hkeep y hy)
    · rcases List.mem_cons.mp hy with rfl | hy
      · exact .inl (hleaf hcy)
      · exact .inr ⟨hy, by rwa [hcode]⟩

/-! ### The command -/

/-- `RECON` starts with no tree (R245). -/
theorem trie_of_empty {s : State} (hm : s.mode ≠ .dec) (hnodes : s.nodes = []) (hroot : s.root = Config.nil) :
    Trie (fun _ => []) s := by
  have hchild : ∀ i t, childAt s.nodes i t = Config.nil := fun i t => by simp [hnodes, childAt]
  refine ⟨⟨hm, by simp [hnodes], .inl hroot, fun i t hne => absurd (hchild i t) hne⟩, fun slot hne => ?_,
    fun h x w hn => ?_, fun h hlt => ?_⟩
  · cases slot with
    | root => exact absurd hroot hne
    | child p b => exact absurd (hchild p.toNat b) hne
  · simp [nodeAt, hnodes] at hn
  · simp [hnodes] at hlt

/-- What a `RECON` that does not fault leaves: a leaf for each symbol of the table, at its code (R245). -/
theorem exec_recon_go {s t : State} (hm : s.mode = .idle) (htabv : s.tabv = true) (e : exec .recon s = .next t)
    (ht : t.mode ≠ .fault) :
    ∃ nodes root addr, t = { s with nodes := nodes, root := root, treev := true } ∧ Trie addr t ∧
      ∀ y, codeOf t y ≠ none → HasLeaf y t := by
  rw [exec_accepted (i := .recon) nofun (by simp [hm]) ⟨hm, htabv⟩, bodyOf, reconTree] at e
  cases hloop : placeSyms allSyms { s with treev := false, nodes := [], root := Config.nil } with
  | stuck f =>
    rw [hloop] at e
    cases e
  | raised u =>
    rw [hloop] at e
    cases e
    obtain ⟨x, -, sub, -, hu⟩ := placeSyms_raised hloop
    rw [hu] at ht
    exact absurd rfl ht
  | go u =>
    rw [hloop] at e
    cases e
    have hempty : Trie (fun _ => []) { s with treev := false, nodes := [], root := Config.nil } :=
      trie_of_empty (by simp [hm]) rfl rfl
    obtain ⟨⟨addr, htrie⟩, hleaf⟩ := hempty.placeSyms hloop
    obtain ⟨hframe, -⟩ := placeSyms_go hloop
    refine ⟨u.nodes, u.root, addr, by rw [hframe], ?trie, fun y hy => hleaf y (.inr ⟨mem_allSyms y, ?code⟩)⟩
    case trie =>
      exact ⟨⟨htrie.mode, htrie.length_le, htrie.root, htrie.child⟩, htrie.addr_slotVal, htrie.codeOf_leaf,
        htrie.reached⟩
    case code =>
      rw [hframe] at hy
      exact hy

/-- `GENTAB` reads back each code of a table whose symbols all have their leaf (R184, R247). -/
theorem Trie.codeOf_afterGentab {addr : Handle → BitSeq} {s : State} (h : Trie addr s)
    (hleaf : ∀ y, codeOf s y ≠ none → HasLeaf y s) {cs : Codes} (e : treeCodes s = .ok cs) (x : Byte) :
    codeOf (afterGentab cs s) x = codeOf s x := by
  cases hc : codeOf (afterGentab cs s) x with
  | some c =>
    obtain ⟨w, hw⟩ := follow_of_codeOf_afterGentab e hc
    exact (h.codeOf_of_follow hw).symm
  | none =>
    by_contra hx
    exact (codeOf_afterGentab_ne_none_iff_leaf e x).mpr (h.follow_of_hasLeaf (hleaf x (Ne.symm hx))) hc

end Sys2Proof.Machine
end

section
/-! SUPPORT. The leaves of `BUILD`'s tree (R162, R182): one per symbol of the alphabet, and no path is longer than the
number of merges. -/

namespace Sys2Proof.Machine

/-- The state with no tree, from which `BUILD` makes the same tree: it reads the counts alone (R162). -/
def withoutTree (s : State) : State := { s with nodes := [], root := Config.nil }

theorem treeOk_withoutTree {s : State} (hm : s.mode ≠ .dec) : TreeOk (withoutTree s) :=
  ⟨arenaOk_of_child_lt (Nat.zero_le _) fun _ _ hne => absurd rfl hne, .inl rfl, fun e => absurd e hm⟩

theorem treeOk_afterBuild {s : State} (hm : s.mode ≠ .dec) (hT : freqTotal s ≤ Config.cmax) :
    TreeOk (afterBuild s) := by
  have hbuild := buildTree_treeOk (s := withoutTree s) hm (treeOk_withoutTree hm)
  rw [buildTree_merged (s := withoutTree s) (Nat.not_lt.mpr hT), leaves_go] at hbuild
  exact hbuild

/-- The leaves of the arena are the alphabet's, in its order, and stand first (R161, R162). -/
theorem Greedy.nodeAt_leaf_iff {s : State} {q : List Handle} {nodes : List Node} (h : Greedy s q nodes) {g : Handle}
    {x : Byte} {w : Word} :
    nodeAt nodes g = some (.leaf x w) ↔ (alphabet s)[g.toNat]? = some x ∧ freqOf s x = w := by
  have hleaf : (leafNodes s)[g.toNat]? = some (.leaf x w) ↔ (alphabet s)[g.toNat]? = some x ∧ freqOf s x = w := by
    rw [leafNodes_eq_map, List.getElem?_map, Option.map_eq_some_iff]
    simp only [Node.leaf.injEq]
    constructor
    · rintro ⟨y, hy, rfl, rfl⟩
      exact ⟨hy, rfl⟩
    · rintro ⟨hx, rfl⟩
      exact ⟨x, hx, rfl, rfl⟩
  rw [← hleaf]
  constructor
  · intro e
    by_cases hlt : g.toNat < (leafNodes s).length
    · rwa [nodeAt, List.prefix_iff_getElem?.mp h.leaves _ hlt, ← List.getElem?_eq_getElem hlt] at e
    · obtain ⟨a, b, hnode, -⟩ := h.joins g.toNat (Nat.not_lt.mp hlt) (nodeAt_lt e)
      rw [nodeAt, hnode] at e
      cases e
  · intro e
    obtain ⟨more, rfl⟩ := h.leaves
    rw [nodeAt, List.getElem?_append_left (List.getElem?_eq_some_iff.mp e).1, e]

theorem mem_alphabet_iff (s : State) (x : Byte) : x ∈ alphabet s ↔ freqOf s x ≠ 0#32 := by
  simp [alphabet]

theorem nodup_alphabet (s : State) : (alphabet s).Nodup := nodup_allSyms.filter _

theorem length_alphabet_le (s : State) : (alphabet s).length ≤ 256 :=
  (List.length_filter_le _ _).trans_eq length_allSyms

section Built
variable {s : State} (hT : freqTotal s ≤ Config.cmax)
include hT

/-- The symbols with a leaf below the root are those with a count (R162). -/
theorem merged_leaf_iff (x : Byte) :
    (∃ p w, follow (merged s).2 (rootOf (merged s).1) p = some (.leaf x w)) ↔ freqOf s x ≠ 0#32 := by
  have hleaf := fun {g w} => (greedy_merged hT).nodeAt_leaf_iff (g := g) (x := x) (w := w)
  rw [← mem_alphabet_iff]
  constructor
  · rintro ⟨p, w, e⟩
    obtain ⟨g, -, hg⟩ := Option.bind_eq_some_iff.mp e
    exact List.mem_of_getElem? (hleaf.mp hg).1
  · intro hx
    obtain ⟨i, hi, hxi⟩ := List.getElem_of_mem hx
    have hk := length_alphabet_le s
    have hnum : (BitVec.ofNat 9 i).toNat = i := by
      rw [BitVec.toNat_ofNat]
      omega
    have hnode := hleaf.mpr ⟨by rw [hnum, List.getElem?_eq_getElem hi, hxi], rfl⟩
    obtain ⟨p, hp⟩ := merged_reached s (nodeAt_lt hnode)
    exact ⟨p, _, by rw [follow, hp, Option.bind_some, hnode]⟩

/-- No symbol has two leaves, and no leaf two paths (R35 b, R162). -/
theorem oneLeafPerSymbol_merged : OneLeafPerSymbol (merged s).2 (rootOf (merged s).1) := by
  intro x p q w v hp hq
  obtain ⟨f, hpf, hf⟩ := Option.bind_eq_some_iff.mp hp
  obtain ⟨g, hqg, hg⟩ := Option.bind_eq_some_iff.mp hq
  obtain ⟨hfx, -⟩ := (greedy_merged hT).nodeAt_leaf_iff.mp hf
  obtain ⟨hgx, -⟩ := (greedy_merged hT).nodeAt_leaf_iff.mp hg
  have hfg : f = g := BitVec.eq_of_toNat_eq <|
    (List.getElem?_inj (List.getElem?_eq_some_iff.mp hfx).1 (nodup_alphabet s)).mp (hfx.trans hgx.symm)
  exact merged_once s hpf (hfg ▸ hqg)

/-- With two symbols or more the root is no leaf, and a path goes down by one merge at every step (R182). -/
theorem merged_leaf_depth (hk : 2 ≤ (alphabet s).length) {p : BitSeq} {x : Byte} {w : Word}
    (e : follow (merged s).2 (rootOf (merged s).1) p = some (.leaf x w)) :
    1 ≤ p.length ∧ p.length ≤ (alphabet s).length - 1 := by
  have hcap := length_alphabet_le s
  have hroot : (rootOf (merged s).1).toNat = 2 * (alphabet s).length - 2 := by
    rw [rootOf_merged, length_leafNodes, if_neg (by omega), BitVec.toNat_ofNat]
    omega
  obtain ⟨g, hg, hleaf⟩ := Option.bind_eq_some_iff.mp e
  constructor
  · refine List.length_pos_iff.mpr ?_
    rintro rfl
    obtain ⟨hx, -⟩ := (greedy_merged hT).nodeAt_leaf_iff.mp hleaf
    have hlt := (List.getElem?_eq_some_iff.mp hx).1
    rw [← eq_of_descend_nil hg] at hlt
    omega
  · have hfalls : ∀ i t, childAt (merged s).2 i t ≠ Config.nil →
        (childAt (merged s).2 i t).toNat + 1 - (alphabet s).length < i + 1 - (alphabet s).length := fun i t hne => by
      have hchild := (forest_merged s).merge.child_lt i t hne
      rw [length_leafNodes] at hchild
      omega
    have hlen := length_le_of_descend (room := fun i => i + 1 - (alphabet s).length) hfalls hg
    omega

end Built

/-- As many codes as symbols in the alphabet, if they are the symbols with a code. -/
theorem length_codesInOrder_of_alphabet {s u : State} (h : ∀ x, codeOf u x ≠ none ↔ freqOf s x ≠ 0#32) :
    (codesInOrder u).length = (alphabet s).length :=
  length_codesInOrder_of_syms (nodup_alphabet s) fun x => (h x).trans (mem_alphabet_iff s x).symm

end Sys2Proof.Machine
end

section
/-! PROOFS. The code table generator (R180 to R185, R247). -/

namespace Sys2Proof.Machine

/-- Settles O16: the walk of a sound tree ends and has found exactly its leaves, each once. -/
theorem gentabRecordsThePaths : Obligations.GentabRecordsThePaths := by
  unfold Obligations.GentabRecordsThePaths
  intro s htree hm htreev
  obtain ⟨cs, hcs⟩ := exists_treeCodes htree
  exact ⟨afterGentab cs s, exec_gentab hm htreev hcs, afterGentab_frame cs s,
    fun _ _ => follow_of_codeOf_afterGentab hcs,
    fun x p w hleaf => (codeOf_afterGentab_ne_none_iff_leaf hcs x).mpr ⟨p, w, hleaf⟩, prefixFree_afterGentab hcs,
    fun hone => OneLeafPerSymbol.nent_eq_codes hone hcs⟩

/-- Settles O17: the leaves below `BUILD`'s root are the alphabet's, one each, and `GENTAB` records their paths. -/
theorem gentabAfterBuildCoversTheAlphabet : Obligations.GentabAfterBuildCoversTheAlphabet := by
  unfold Obligations.GentabAfterBuildCoversTheAlphabet
  intro s t hm hbuild ht
  rcases Nat.lt_or_ge Config.cmax (freqTotal s) with hT | hT
  · rw [exec_build_overflow hm hT] at hbuild
    cases hbuild
    exact absurd rfl ht
  · rw [exec_build_fits hm hT] at hbuild
    cases hbuild
    obtain ⟨cs, hcs⟩ := exists_treeCodes (treeOk_afterBuild (by simp [hm]) hT)
    have hsyms : ∀ x, codeOf (afterGentab cs (afterBuild s)) x ≠ none ↔ freqOf s x ≠ 0#32 := fun x =>
      (codeOf_afterGentab_ne_none_iff_leaf hcs x).trans (merged_leaf_iff hT x)
    have hnent : (afterGentab cs (afterBuild s)).nent.toNat = (alphabet s).length := by
      have hk := length_alphabet_le s
      rw [OneLeafPerSymbol.nent_eq_codes (s := afterBuild s) (oneLeafPerSymbol_merged hT) hcs,
        length_codesInOrder_of_alphabet hsyms, BitVec.toNat_ofNat]
      omega
    refine ⟨_, exec_gentab (s := afterBuild s) hm rfl hcs, hsyms, hnent, prefixFree_afterGentab hcs,
      fun hk x c hc => ?_⟩
    obtain ⟨w, hw⟩ := follow_of_codeOf_afterGentab hcs hc
    exact merged_leaf_depth hT hk hw

/-- Settles O25: each leaf of `RECON`'s tree stands at the code of its symbol, so `GENTAB` reads the same table back. -/
theorem gentabInvertsRecon : Obligations.GentabInvertsRecon := by
  unfold Obligations.GentabInvertsRecon
  intro s t hm htabv hwf hnent hrecon ht
  obtain ⟨nodes, root, addr, rfl, htrie, hleaf⟩ := exec_recon_go hm htabv hrecon ht
  obtain ⟨cs, hcs⟩ := exists_treeCodes htrie.toRising.treeOk
  have htable := table_ext (wf_afterGentab cs _) hwf (htrie.codeOf_afterGentab hleaf hcs)
  have hentries := htrie.oneLeafPerSymbol.nent_eq_entries hcs
  rw [htable, ← hnent, BitVec.ofNat_toNat, BitVec.setWidth_eq] at hentries
  have hexec := exec_gentab (s := { s with nodes := nodes, root := root, treev := true }) hm rfl hcs
  rw [hexec, afterGentab_eq_self htable hentries htabv]

end Sys2Proof.Machine
end

section
/-! SUPPORT. What `ENCSTART`, `ENC` and `ENCEND` do when accepted (R194, R195, R198), and a run of `ENC` as one write of
the concatenated codes (R200). -/

namespace Sys2Proof.Machine

/-! ### Whole bytes in a bit stream -/

/-- Whole bytes in front of a bit sequence are packed as themselves (R70). -/
theorem pack_flatMap_byteBits_append (bytes : List Byte) (c : BitSeq) :
    pack (bytes.flatMap byteBits ++ c) = bytes ++ pack c := by
  induction bytes with
  | nil => rfl
  | cons b bytes ih => rw [List.flatMap_cons, List.append_assoc, pack_append_byte, ih, List.cons_append]

/-! ### The writer and the symbol count -/

/-- The bit writer does not read `ENCCNT`. -/
theorem writeBit_enccnt_comm (t : Bool) (n : Word) (s : State) :
    writeBit t { s with enccnt := n } = { writeBit t s with enccnt := n } := by
  simp only [writeBit, emit, emitAll]
  split
  · split <;> rfl
  · rfl

theorem writeBits_enccnt_comm (c : BitSeq) (n : Word) (s : State) :
    writeBits c { s with enccnt := n } = { writeBits c s with enccnt := n } := by
  induction c generalizing s with
  | nil => rfl
  | cons t c ih =>
    calc writeBits c (writeBit t { s with enccnt := n })
      _ = writeBits c { writeBit t s with enccnt := n } := by rw [writeBit_enccnt_comm]
      _ = { writeBits c (writeBit t s) with enccnt := n } := ih _

theorem writeBits_append (c d : BitSeq) (s : State) : writeBits (c ++ d) s = writeBits d (writeBits c s) :=
  List.foldl_append

/-- The state after `n` symbols whose codes, one after the other, are the bits `c` (R195). -/
def afterEnc (c : BitSeq) (n : Nat) (s : State) : State :=
  { writeBits c s with enccnt := s.enccnt + BitVec.ofNat 32 n }

@[simp] theorem afterEnc_mode (c : BitSeq) (n : Nat) (s : State) : (afterEnc c n s).mode = s.mode := writeBits_mode c s

@[simp] theorem afterEnc_nsym (c : BitSeq) (n : Nat) (s : State) : (afterEnc c n s).nsym = s.nsym := writeBits_nsym c s

@[simp] theorem codeOf_afterEnc (c : BitSeq) (n : Nat) (s : State) (x : Byte) :
    codeOf (afterEnc c n s) x = codeOf s x := by
  simp [codeOf, afterEnc]

/-- Encoding writes the writer, the count and the output queue only. -/
theorem afterEnc_frame (c : BitSeq) (n : Nat) (s : State) :
    afterEnc c n s = { s with
      acc := (afterEnc c n s).acc, nbits := (afterEnc c n s).nbits, enccnt := s.enccnt + BitVec.ofNat 32 n,
      outq := (afterEnc c n s).outq, held := (afterEnc c n s).held } := by
  unfold afterEnc
  rw [writeBits_frame]

@[simp] theorem afterEnc_nil_zero (s : State) : afterEnc [] 0 s = s := by
  simp [afterEnc, writeBits]

/-- Encoding on: the codes are concatenated and the counts added. -/
theorem afterEnc_afterEnc (c d : BitSeq) (n m : Nat) (s : State) :
    afterEnc d m (afterEnc c n s) = afterEnc (c ++ d) (n + m) s := by
  simp only [afterEnc, writeBits_enccnt_comm, writeBits_append, BitVec.ofNat_add, BitVec.add_assoc]

/-- The bits of the bytes emitted and the bits left waiting are the bits that waited and those written (R195). -/
theorem afterEnc_bits (c : BitSeq) (n : Nat) (s : State) :
    ∃ bytes : List Byte, (afterEnc c n s).out = s.out ++ bytes ∧
      bytes.flatMap byteBits ++ accBits (afterEnc c n s) = accBits s ++ c :=
  writeBits_spec c s

theorem AccFits.afterEnc {s : State} (h : AccFits s) (c : BitSeq) (n : Nat) : AccFits (afterEnc c n s) :=
  h.writeBits c

/-- Below `NSYM` the count does not wrap. -/
theorem toNat_enccnt_afterEnc_one {s : State} (h : s.enccnt.toNat < s.nsym.toNat) (c : BitSeq) :
    (afterEnc c 1 s).enccnt.toNat = s.enccnt.toNat + 1 := by
  unfold afterEnc
  bv_omega

/-! ### The flush -/

theorem flushBits_acc (s : State) : (flushBits s).acc = if s.nbits = 0#3 then s.acc else 0#8 := by
  unfold flushBits
  split <;> simp

@[simp] theorem flushBits_nbits (s : State) : (flushBits s).nbits = 0#3 := by
  unfold flushBits
  split
  · assumption
  · simp

/-- The state after an accepted `ENCEND` that finds `NSYM` symbols (R198). -/
def afterEncend (s : State) : State := { flushBits s with mode := .idle }

theorem afterEncend_frame (s : State) :
    afterEncend s = { s with
      acc := (afterEncend s).acc, nbits := 0#3, mode := .idle,
      outq := (afterEncend s).outq, held := (afterEncend s).held } := by
  unfold afterEncend
  rw [flushBits_frame, flushBits_nbits]

@[simp] theorem afterEncend_out (s : State) : (afterEncend s).out = s.out ++ pack (accBits s) := flushBits_out s

/-- The flush completes the packing of what was written. -/
theorem out_afterEncend_afterEnc (c : BitSeq) (n : Nat) (s : State) :
    (afterEncend (afterEnc c n s)).out = s.out ++ pack (accBits s ++ c) := by
  obtain ⟨bytes, hout, hbits⟩ := afterEnc_bits c n s
  rw [afterEncend_out, hout, ← hbits, pack_flatMap_byteBits_append, List.append_assoc]

/-! ### The commands -/

theorem exec_encstart {s : State} (hm : s.mode = .idle) (htabv : s.tabv = true) :
    exec .encstart s = .next (startEncoding s) :=
  exec_accepted (i := .encstart) nofun (by simp [hm]) ⟨hm, htabv⟩

theorem exec_enc {x : Byte} {s : State} (hm : s.mode = .enc) : exec (.enc x) s = (encodeSym x s).finish :=
  exec_accepted (i := .enc x) nofun (by simp [hm]) hm

theorem exec_enc_written {x : Byte} {c : BitSeq} {s : State} (hm : s.mode = .enc) (hc : codeOf s x = some c)
    (hn : s.enccnt ≠ s.nsym) : exec (.enc x) s = .next (afterEnc c 1 s) := by
  rw [exec_enc hm, encodeSym, hc]
  simp only [if_neg hn]
  rfl

theorem exec_enc_missing {x : Byte} {s : State} (hm : s.mode = .enc) (hc : codeOf s x = none) :
    exec (.enc x) s = .next (faulted .missingCode 0#4 (x.zeroExtend 32) s) := by
  rw [exec_enc hm, encodeSym, hc]
  rfl

theorem exec_enc_full {x : Byte} {s : State} (hm : s.mode = .enc) (hc : codeOf s x ≠ none) (hn : s.enccnt = s.nsym) :
    exec (.enc x) s = .next (faulted .countMismatch 1#4 s.enccnt s) := by
  obtain ⟨c, hc⟩ := Option.ne_none_iff_exists'.mp hc
  rw [exec_enc hm, encodeSym, hc]
  simp only [if_pos hn]
  rfl

theorem exec_encend {s : State} (hm : s.mode = .enc) : exec .encend s = (endEncoding s).finish :=
  exec_accepted (i := .encend) nofun (by simp [hm]) hm

theorem exec_encend_complete {s : State} (hm : s.mode = .enc) (hn : s.enccnt = s.nsym) :
    exec .encend s = .next (afterEncend s) := by
  rw [exec_encend hm, endEncoding, if_pos hn]
  rfl

theorem exec_encend_short {s : State} (hm : s.mode = .enc) (hn : s.enccnt ≠ s.nsym) :
    exec .encend s = .next (faulted .countMismatch 2#4 s.enccnt s) := by
  rw [exec_encend hm, endEncoding, if_neg hn]
  rfl

/-! ### A session -/

/-- The codes of `xs`, one after the other; a symbol without a code has none. -/
def codesOf (s : State) (xs : List Byte) : BitSeq := xs.flatMap (fun x => (codeOf s x).getD [])

theorem codesOf_cons {s : State} {x : Byte} {c : BitSeq} (hc : codeOf s x = some c) (xs : List Byte) :
    codesOf s (x :: xs) = c ++ codesOf s xs := by
  rw [codesOf, List.flatMap_cons, hc]
  rfl

@[simp] theorem codesOf_afterEnc (c : BitSeq) (n : Nat) (s : State) (xs : List Byte) :
    codesOf (afterEnc c n s) xs = codesOf s xs := by
  simp [codesOf]

/-- `ENC` over symbols that have codes and fit the count is one write of their concatenated codes. -/
theorem execAll_enc {xs : List Byte} {s : State} (hm : s.mode = .enc) (hcodes : ∀ x ∈ xs, codeOf s x ≠ none)
    (hfit : s.enccnt.toNat + xs.length ≤ s.nsym.toNat) (is : List Instr) :
    execAll (xs.map .enc ++ is) s = execAll is (afterEnc (codesOf s xs) xs.length s) := by
  induction xs generalizing s with
  | nil => exact congrArg (execAll is) (afterEnc_nil_zero s).symm
  | cons x xs ih =>
    obtain ⟨hx, hxs⟩ := List.forall_mem_cons.mp hcodes
    obtain ⟨c, hc⟩ := Option.ne_none_iff_exists'.mp hx
    rw [List.length_cons] at hfit
    have hlt : s.enccnt.toNat < s.nsym.toNat := by omega
    have hn : s.enccnt ≠ s.nsym := fun e => by simp [e] at hlt
    have hfit' : (afterEnc c 1 s).enccnt.toNat + xs.length ≤ (afterEnc c 1 s).nsym.toNat := by
      rw [toNat_enccnt_afterEnc_one hlt, afterEnc_nsym]
      omega
    calc execAll (.enc x :: (xs.map .enc ++ is)) s
      _ = execAll (xs.map .enc ++ is) (afterEnc c 1 s) := execAll_cons_of_next (exec_enc_written hm hc hn) _
      _ = execAll is (afterEnc (codesOf s xs) xs.length (afterEnc c 1 s)) := by
        rw [ih (by simpa using hm) (by simpa using hxs) hfit', codesOf_afterEnc]
      _ = execAll is (afterEnc (codesOf s (x :: xs)) (x :: xs).length s) := by
        rw [afterEnc_afterEnc, ← codesOf_cons hc, List.length_cons, Nat.add_comm 1]

/-- A fault ends a run without `RESET` in `FAULT` mode (R131). -/
theorem mode_of_execAll_cons_of_fault {i : Instr} {is : List Instr} {s u t : State} (his : ∀ j ∈ is, j ≠ .reset)
    (hexec : exec i s = .next u) (hu : u.mode = .fault) (hrun : execAll (i :: is) s = .next t) : t.mode = .fault := by
  rw [execAll_cons_of_next hexec, execAll_of_fault his hu] at hrun
  cases hrun
  exact hu

/-- A run of `ENC` and `ENCEND` that ends without a fault has passed both checks of each `ENC` (R195) and that of
`ENCEND` (R198). -/
theorem codes_and_count_of_execAll_enc {xs : List Byte} {s t : State} (hm : s.mode = .enc)
    (hle : s.enccnt.toNat ≤ s.nsym.toNat) (hrun : execAll (xs.map .enc ++ [.encend]) s = .next t)
    (ht : t.mode ≠ .fault) :
    (∀ x ∈ xs, codeOf s x ≠ none) ∧ s.enccnt.toNat + xs.length = s.nsym.toNat := by
  induction xs generalizing s with
  | nil =>
    by_cases hn : s.enccnt = s.nsym
    · simp [hn]
    · exact absurd (mode_of_execAll_cons_of_fault (by simp) (exec_encend_short hm hn) rfl hrun) ht
  | cons x xs ih =>
    have hrest : ∀ j ∈ xs.map Instr.enc ++ [.encend], j ≠ .reset := by
      simp +contextual [or_imp]
    rcases hx : codeOf s x with _ | c
    · exact absurd (mode_of_execAll_cons_of_fault hrest (exec_enc_missing hm hx) rfl hrun) ht
    · by_cases hn : s.enccnt = s.nsym
      · exact absurd (mode_of_execAll_cons_of_fault hrest (exec_enc_full hm (by simp [hx]) hn) rfl hrun) ht
      · have hlt : s.enccnt.toNat < s.nsym.toNat := Nat.lt_of_le_of_ne hle (mt BitVec.eq_of_toNat_eq hn)
        have hcount := toNat_enccnt_afterEnc_one hlt c
        rw [List.map_cons, List.cons_append, execAll_cons_of_next (exec_enc_written hm hx hn)] at hrun
        obtain ⟨hcodes, hlen⟩ := ih (by simpa using hm) (by rw [hcount, afterEnc_nsym]; exact hlt) hrun
        rw [hcount, afterEnc_nsym] at hlen
        refine ⟨List.forall_mem_cons.mpr ⟨by simp [hx], by simpa using hcodes⟩, ?_⟩
        rw [List.length_cons]
        omega

/-- The state after the encoding session of `xs` (R200). -/
def afterSession (xs : List Byte) (s : State) : State :=
  afterEncend (afterEnc (codesOf s xs) xs.length (startEncoding s))

/-- A session of `NSYM` symbols that have codes runs to its end. -/
theorem execAll_session {xs : List Byte} {s : State} (hm : s.mode = .idle) (htabv : s.tabv = true)
    (hcodes : ∀ x ∈ xs, codeOf s x ≠ none) (hlen : xs.length = s.nsym.toNat) :
    execAll (.encstart :: (xs.map .enc ++ [.encend])) s = .next (afterSession xs s) := by
  have hfit : (startEncoding s).enccnt.toNat + xs.length ≤ (startEncoding s).nsym.toNat := by
    simp [startEncoding, hlen]
  have hdone : (afterEnc (codesOf s xs) xs.length (startEncoding s)).enccnt =
      (afterEnc (codesOf s xs) xs.length (startEncoding s)).nsym := by
    simp [afterEnc, startEncoding, hlen]
  rw [execAll_cons_of_next (exec_encstart hm htabv), execAll_enc (s := startEncoding s) rfl hcodes hfit]
  exact execAll_cons_of_next (exec_encend_complete (afterEnc_mode ..) hdone) []

/-- A session writes the writer, which it leaves empty, the count and the output queue only. -/
theorem afterSession_frame {xs : List Byte} {s : State} (hm : s.mode = .idle) (hlen : xs.length = s.nsym.toNat) :
    afterSession xs s = { s with
      acc := 0#8, nbits := 0#3, enccnt := s.nsym,
      outq := (afterSession xs s).outq, held := (afterSession xs s).held } := by
  have hfits : AccFits (startEncoding s) := Nat.one_pos
  have hacc : (afterSession xs s).acc = 0#8 := (flushBits_clear (hfits.afterEnc _ _)).1
  calc afterSession xs s
    _ = { afterEnc (codesOf s xs) xs.length (startEncoding s) with
        acc := 0#8, nbits := 0#3, mode := .idle,
        outq := (afterSession xs s).outq, held := (afterSession xs s).held } := by
      rw [← hacc]
      exact afterEncend_frame _
    _ = { s with
        acc := 0#8, nbits := 0#3, enccnt := s.nsym,
        outq := (afterSession xs s).outq, held := (afterSession xs s).held } := by
      rw [afterEnc_frame]
      simp [startEncoding, hlen, hm]

@[simp] theorem afterSession_out (xs : List Byte) (s : State) :
    (afterSession xs s).out = s.out ++ pack (codesOf s xs) :=
  out_afterEncend_afterEnc (codesOf s xs) xs.length (startEncoding s)

end Sys2Proof.Machine
end

section
/-! PROOFS. The encoder (R194 to R200). -/

namespace Sys2Proof.Machine

/-- Settles O26: accepted, `ENCSTART` is `startEncoding`; else its requirement fails. -/
theorem encstartOpensTheStream : Obligations.EncstartOpensTheStream := by
  unfold Obligations.EncstartOpensTheStream
  exact ⟨rfl, fun s => ⟨exec_encstart, failedRequireRaisesSequenceError .encstart s⟩⟩

/-- Settles O27: the bits emitted and waiting are those of `afterEnc_bits`, and fewer than eight wait. -/
theorem encWritesTheCode : Obligations.EncWritesTheCode := by
  unfold Obligations.EncWritesTheCode
  refine fun x s => ⟨encode_eq_or (.enc x), fun c hm hc hn => ?_, exec_enc_missing, exec_enc_full, fun hm hf => ?_⟩
  · obtain ⟨bytes, hout, hbits⟩ := afterEnc_bits c 1 s
    have hlength : bytes.length * 8 + (afterEnc c 1 s).nbits.toNat = s.nbits.toNat + c.length := by
      simpa using congrArg List.length hbits
    have hlt := (afterEnc c 1 s).nbits.isLt
    exact ⟨afterEnc c 1 s, bytes, exec_enc_written hm hc hn, afterEnc_frame c 1 s, hout, hbits, by omega, by omega⟩
  · exact failedRequireRaisesSequenceError (.enc x) s hf hm

/-- Settles O28: with `NSYM` symbols encoded `ENCEND` is `afterEncend`, with another number it raises, and in another
mode its requirement fails. -/
theorem encendFlushesTheBits : Obligations.EncendFlushesTheBits := by
  unfold Obligations.EncendFlushesTheBits
  refine ⟨rfl, fun s => ⟨fun hm hn => ⟨afterEncend s, exec_encend_complete hm hn, ?_, afterEncend_out s⟩,
    exec_encend_short, fun hm hf => failedRequireRaisesSequenceError .encend s hf hm⟩⟩
  rw [← flushBits_acc]
  exact afterEncend_frame s

/-- Settles O29: a session without a fault is one of `NSYM` symbols that have codes, and such a session is
`afterSession`. -/
theorem encodingSessionEmitsThePackedCodes : Obligations.EncodingSessionEmitsThePackedCodes := by
  unfold Obligations.EncodingSessionEmitsThePackedCodes
  refine fun s xs hm htabv => ⟨fun hcodes hlen => ?_, fun t hrun ht => ?_⟩
  · exact ⟨afterSession xs s, execAll_session hm htabv hcodes hlen, afterSession_frame hm hlen⟩
  · have hencs := hrun
    rw [execAll_cons_of_next (exec_encstart hm htabv)] at hencs
    obtain ⟨hcodes, hcount⟩ := codes_and_count_of_execAll_enc (s := startEncoding s) rfl (Nat.zero_le _) hencs ht
    have hlen : xs.length = s.nsym.toNat := by simpa [startEncoding] using hcount
    rw [execAll_session hm htabv hcodes hlen] at hrun
    cases hrun
    exact ⟨hlen, afterSession_out xs s⟩

end Sys2Proof.Machine
end

section
/-! SUPPORT. What the four decoder commands do when accepted (R214 to R219), a run of `DECB` as one run of `decodeBits`
over all its bits (R217), and what a run of `decodeBits` emits (R216). -/

namespace Sys2Proof.Machine

/-! ### The commands -/

theorem exec_decstart {s : State} (hm : s.mode = .idle) (htreev : s.treev = true) :
    exec .decstart s = (startDecoding s).finish :=
  exec_accepted (i := .decstart) nofun (by simp [hm]) ⟨hm, htreev⟩

theorem exec_decb {b : Byte} {s : State} (hm : s.mode = .dec) :
    exec (.decb b) s = (decodeBits (byteBits b) s).finish :=
  exec_accepted (i := .decb b) nofun (by simp [hm]) hm

theorem exec_decbit {b : Bool} {s : State} (hm : s.mode = .dec) : exec (.decbit b) s = (decodeBit b s).finish :=
  exec_accepted (i := .decbit b) nofun (by simp [hm]) hm

theorem exec_decend {s : State} (hm : s.mode = .dec) : exec .decend s = (endDecoding s).finish :=
  exec_accepted (i := .decend) nofun (by simp [hm]) hm

theorem exec_decend_complete {s : State} (hm : s.mode = .dec) (hrem : s.rem = 0#32) :
    exec .decend s = .next { s with mode := .idle } := by
  rw [exec_decend hm, endDecoding, if_pos hrem]
  rfl

theorem exec_decend_short {s : State} (hm : s.mode = .dec) (hrem : s.rem ≠ 0#32) :
    exec .decend s = .next (faulted .truncatedStream 0#4 s.rem s) := by
  rw [exec_decend hm, endDecoding, if_neg hrem]
  rfl

/-! ### The first state of a session (R214) -/

theorem startDecoding_empty {s : State} (h : s.nsym = 0#32) :
    startDecoding s = .go { s with rem := 0#32, cur := s.root, mode := .dec } := if_pos h

theorem startDecoding_noTree {s : State} (h : s.nsym ≠ 0#32) (hroot : s.root = Config.nil) :
    startDecoding s = .raised (faulted .structuralCorruption 2#4 0#32 s) := by
  rw [startDecoding, if_neg h, if_pos hroot]
  rfl

theorem startDecoding_internal {s : State} {w : Word} {l r : Handle} (h : s.nsym ≠ 0#32) (hroot : s.root ≠ Config.nil)
    (hn : nodeAt s.nodes s.root = some (.internal w l r)) :
    startDecoding s = .go { s with rem := s.nsym, cur := s.root, mode := .dec } := by
  rw [startDecoding, if_neg h, if_neg hroot, hn]

/-- The state after a `DECSTART` that finds the root a leaf of `x` (R214). -/
def afterCopies (x : Byte) (s : State) : State :=
  { emitAll (List.replicate s.nsym.toNat x) s with rem := 0#32, cur := s.root, mode := .dec }

theorem startDecoding_leaf {s : State} {x : Byte} {w : Word} (h : s.nsym ≠ 0#32) (hroot : s.root ≠ Config.nil)
    (hn : nodeAt s.nodes s.root = some (.leaf x w)) : startDecoding s = .go (afterCopies x s) := by
  rw [startDecoding, if_neg h, if_neg hroot, hn]
  rfl

theorem afterCopies_frame (x : Byte) (s : State) :
    afterCopies x s = { s with
      rem := 0#32, cur := s.root, mode := .dec, outq := (afterCopies x s).outq, held := (afterCopies x s).held } := by
  unfold afterCopies
  rw [emitAll_frame]

@[simp] theorem afterCopies_out (x : Byte) (s : State) :
    (afterCopies x s).out = s.out ++ List.replicate s.nsym.toNat x := emitAll_out _ s

/-! ### One bit (R216) -/

theorem decodeBit_done {b : Bool} {s : State} (h : s.rem = 0#32) : decodeBit b s = .go s := if_pos h

theorem decodeBit_missing {b : Bool} {s : State} {n : Node} (hrem : s.rem ≠ 0#32) (hn : nodeAt s.nodes s.cur = some n)
    (hchild : n.child b = Config.nil) :
    decodeBit b s = raise .structuralCorruption 1#4 (missingChildInfo b s.cur) s := by
  rw [decodeBit, if_neg hrem, hn]
  exact if_pos hchild

/-- An allocated child: the pointer arrives there. -/
theorem decodeBit_arrives {b : Bool} {s : State} {n m : Node} (hrem : s.rem ≠ 0#32) (hn : nodeAt s.nodes s.cur = some n)
    (hchild : n.child b ≠ Config.nil) (hm : nodeAt s.nodes (n.child b) = some m) :
    decodeBit b s = .go (arriveAt (n.child b) m s) := by
  simp only [decodeBit, if_neg hrem, hn, if_neg hchild, hm]

theorem arriveAt_leaf_frame (h : Handle) (x : Byte) (w : Word) (s : State) :
    arriveAt h (.leaf x w) s = { s with
      rem := s.rem - 1#32, cur := s.root,
      outq := (arriveAt h (.leaf x w) s).outq, held := (arriveAt h (.leaf x w) s).held } := by
  apply State.ext <;> simp [arriveAt]

@[simp] theorem arriveAt_leaf_out (h : Handle) (x : Byte) (w : Word) (s : State) :
    (arriveAt h (.leaf x w) s).out = s.out ++ [x] := emit_out x s

/-- `(t << 16) | CUR` as a number (R216, R263). -/
theorem missingChildInfo_eq (b : Bool) (h : Handle) :
    missingChildInfo b h = BitVec.ofNat 32 (b.toNat * 65536 + h.toNat) := by
  have hlt : h.toNat < 2 ^ 16 := h.isLt.trans (by decide)
  apply BitVec.eq_of_toNat_eq
  cases b with
  | false => simp [missingChildInfo, bitWord]
  | true =>
    have hor : 65536 ||| h.toNat = 65536 + h.toNat := (Nat.two_pow_add_eq_or_of_lt hlt 1).symm
    have hmod : h.toNat % 2 ^ 32 = h.toNat := Nat.mod_eq_of_lt (hlt.trans (by decide))
    simp only [missingChildInfo, bitWord, if_true, BitVec.toNat_or, BitVec.toNat_setWidth, hmod, BitVec.toNat_ofNat,
      Bool.toNat_true, Nat.one_mul]
    rw [show (1#32 <<< 16).toNat = 65536 from rfl, hor]
    omega

/-! ### Several bits -/

theorem decodeBits_append (c d : BitSeq) (s : State) :
    decodeBits (c ++ d) s = (decodeBits c s).bind (decodeBits d) := by
  induction c generalizing s with
  | nil => rfl
  | cons b c ih =>
    calc decodeBits (b :: (c ++ d)) s
      _ = (decodeBit b s).bind (fun u => (decodeBits c u).bind (decodeBits d)) := congrArg _ (funext ih)
      _ = (decodeBits (b :: c) s).bind (decodeBits d) := (bind_assoc _ _ _).symm

/-- The bits after the last symbol are discarded (R215). -/
theorem decodeBits_done (c : BitSeq) {s : State} (h : s.rem = 0#32) : decodeBits c s = .go s := by
  induction c with
  | nil => rfl
  | cons b c ih => rw [decodeBits, decodeBit_done h, bind_go, ih]

theorem decodeBit_mode {b : Bool} {s t : State} (h : decodeBit b s = .go t) : t.mode = s.mode := by
  rw [decodeBit_frame h]

theorem decodeBits_mode {c : BitSeq} {s t : State} (h : decodeBits c s = .go t) : t.mode = s.mode := by
  induction c generalizing s with
  | nil =>
    cases h
    rfl
  | cons b c ih =>
    obtain ⟨u, hu, ht⟩ := bind_eq_go h
    exact (ih ht).trans (decodeBit_mode hu)

/-- A run of `DECBIT` is one run of `decodeBits`; after a fault the other commands are without effect (R131, R217). -/
theorem execAll_decbit (c : BitSeq) {s : State} (hm : s.mode = .dec) :
    execAll (c.map .decbit) s = (decodeBits c s).finish := by
  induction c generalizing s with
  | nil => rfl
  | cons b c ih =>
    have hcommands : ∀ i ∈ c.map Instr.decbit, i ≠ .reset := List.forall_mem_map.mpr fun _ _ => nofun
    rw [List.map_cons, decodeBits]
    cases e : decodeBit b s with
    | go u =>
      rw [execAll_cons_of_next (by rw [exec_decbit hm, e, finish_go])]
      exact ih ((decodeBit_mode e).trans hm)
    | raised u =>
      obtain ⟨-, rfl, -⟩ := decodeBit_raised e
      rw [execAll_cons_of_next (by rw [exec_decbit hm, e, finish_raised])]
      exact execAll_of_fault hcommands rfl
    | stuck f => rw [execAll, exec_decbit hm, e, finish_stuck, bind_stuck, finish_stuck]

/-- A run of `DECB` that does not fault is one run of `decodeBits` over the bits of all its bytes. -/
theorem execAll_decb {bytes : List Byte} {s t : State} (hm : s.mode = .dec)
    (h : decodeBits (bytes.flatMap byteBits) s = .go t) (is : List Instr) :
    execAll (bytes.map .decb ++ is) s = execAll is t := by
  induction bytes generalizing s with
  | nil =>
    cases h
    rfl
  | cons b bytes ih =>
    rw [List.flatMap_cons, decodeBits_append] at h
    obtain ⟨u, hu, ht⟩ := bind_eq_go h
    rw [List.map_cons, List.cons_append, execAll_cons_of_next (by rw [exec_decb hm, hu, finish_go])]
    exact ih ((decodeBits_mode hu).trans hm) ht

/-! ### The symbols decoded -/

/-- From `s` to `t` the decoder has emitted `xs`, counted them off, and written nothing but `CUR`, `REM` and the output
queue. -/
structure Decodes (xs : List Byte) (s t : State) : Prop where
  frame : t = { s with cur := t.cur, rem := t.rem, outq := t.outq, held := t.held }
  out : t.out = s.out ++ xs
  rem : t.rem.toNat + xs.length = s.rem.toNat

theorem Decodes.refl (s : State) : Decodes [] s s := ⟨rfl, by simp, rfl⟩

theorem Decodes.trans {xs ys : List Byte} {s u t : State} (h : Decodes xs s u) (h' : Decodes ys u t) :
    Decodes (xs ++ ys) s t := by
  refine ⟨?_, ?_, ?_⟩
  · have ht := h'.frame
    rw [h.frame] at ht
    exact ht
  · rw [h'.out, h.out, List.append_assoc]
  · have hxs := h.rem
    have hys := h'.rem
    rw [List.length_append]
    omega

/-- A step to an inner node emits nothing. -/
theorem decodes_cur (h : Handle) (s : State) : Decodes [] s { s with cur := h } := ⟨rfl, by simp [State.out], rfl⟩

/-- A step to a leaf emits its symbol. -/
theorem decodes_leaf (h : Handle) (x : Byte) (w : Word) {s : State} (hrem : s.rem ≠ 0#32) :
    Decodes [x] s (arriveAt h (.leaf x w) s) := by
  refine ⟨?_, arriveAt_leaf_out h x w s, ?_⟩
  · exact arriveAt_leaf_frame h x w s
  · simp only [arriveAt, List.length_singleton]
    bv_omega

/-! ### A strict tree (R213) -/

/-- In a strict arena an `Internal` has both children. -/
theorem StrictArena.child_ne_nil {nodes : List Node} (h : StrictArena nodes) {g : Handle} {n : Node}
    (hi : isInternal nodes g = true) (hn : nodeAt nodes g = some n) (b : Bool) : n.child b ≠ Config.nil := by
  have hstrict := h g.toNat (nodeAt_lt hn)
  rw [BitVec.ofNat_toNat, BitVec.setWidth_eq] at hstrict
  rw [← childAt_of_nodeAt hn]
  exact hstrict hi b

/-- On a strict tree a bit finds a child, and emits one symbol or none. -/
theorem decodeBit_of_strict (b : Bool) {s : State} (h : DecoderOk s) (hstrict : StrictArena s.nodes) :
    ∃ t xs, decodeBit b s = .go t ∧ Decodes xs s t ∧ xs.length ≤ 1 ∧ DecoderOk t := by
  have hends := decodeBit_decoderOk b h
  cases e : decodeBit b s with
  | stuck f => exact absurd e (hends.not_stuck f)
  | raised u =>
    obtain ⟨hrem, -, n, hn, hchild⟩ := decodeBit_raised e
    exact absurd hchild (hstrict.child_ne_nil (h.2.2 hrem).2 hn b)
  | go t =>
    rw [e] at hends
    rcases decodeBit_go e with ⟨-, rfl⟩ | ⟨hrem, n, -, -, ⟨w, l, r, -, rfl⟩ | ⟨x, w, -, rfl⟩⟩
    · exact ⟨_, [], rfl, .refl _, Nat.zero_le 1, hends⟩
    · exact ⟨_, [], rfl, decodes_cur _ s, Nat.zero_le 1, hends⟩
    · exact ⟨_, [x], rfl, decodes_leaf (n.child b) x w hrem, le_rfl, hends⟩

/-- On a strict tree no run of bits faults, and it emits at most one symbol for each bit. -/
theorem decodeBits_of_strict (c : BitSeq) {s : State} (h : DecoderOk s) (hstrict : StrictArena s.nodes) :
    ∃ t xs, decodeBits c s = .go t ∧ Decodes xs s t ∧ xs.length ≤ c.length := by
  induction c generalizing s with
  | nil => exact ⟨s, [], rfl, .refl s, le_rfl⟩
  | cons b c ih =>
    obtain ⟨u, xs, hu, hdec, hlen, hok⟩ := decodeBit_of_strict b h hstrict
    have hnodes : u.nodes = s.nodes := by rw [hdec.frame]
    obtain ⟨t, ys, ht, hdec', hlen'⟩ := ih hok (hnodes ▸ hstrict)
    refine ⟨t, xs ++ ys, by rw [decodeBits, hu, bind_go, ht], hdec.trans hdec', ?_⟩
    rw [List.length_append, List.length_cons]
    omega

end Sys2Proof.Machine
end

section
/-! SUPPORT. Decoding along paths (R216, R220): the bits of a path from the root to a leaf emit the leaf's symbol and
return to the root, and a session over such paths emits the symbols. -/

namespace Sys2Proof.Machine

/-! ### One path -/

/-- The first step of a path goes from a node to its child (R31). -/
theorem exists_of_follow_cons {nodes : List Node} {h : Handle} {b : Bool} {p : BitSeq} {n : Node}
    (e : follow nodes h (b :: p) = some n) :
    ∃ m, nodeAt nodes h = some m ∧ m.child b ≠ Config.nil ∧ follow nodes (m.child b) p = some n := by
  have hne : h ≠ Config.nil := by
    rintro rfl
    simp at e
  rw [follow, descend_cons_eq hne] at e
  change follow nodes (childAt nodes h.toNat b) p = some n at e
  have hchild : childAt nodes h.toNat b ≠ Config.nil := by
    intro hnil
    simp [hnil] at e
  obtain ⟨m, hm⟩ := exists_nodeAt (lt_of_childAt_ne_nil hchild)
  rw [childAt_of_nodeAt hm] at e hchild
  exact ⟨m, hm, hchild, e⟩

/-- A path to a node starts at an allocated handle. -/
theorem allocated_of_follow {nodes : List Node} {h : Handle} {p : BitSeq} {n : Node} (e : follow nodes h p = some n) :
    h ≠ Config.nil ∧ ∃ m, nodeAt nodes h = some m := by
  have hne : h ≠ Config.nil := by
    rintro rfl
    simp at e
  refine ⟨hne, ?_⟩
  cases p with
  | nil => exact ⟨n, by rwa [follow_nil hne] at e⟩
  | cons b p =>
    obtain ⟨m, hm, -⟩ := exists_of_follow_cons e
    exact ⟨m, hm⟩

/-- A node from which a path leads on is an `Internal`. -/
theorem internal_of_child_ne_nil {n : Node} {b : Bool} (h : n.child b ≠ Config.nil) :
    ∃ w l r, n = .internal w l r := by
  cases n with
  | leaf x w => exact absurd (child_leaf x w b) h
  | internal w l r => exact ⟨w, l, r, rfl⟩

/-- The bits of a path from the pointer to a leaf emit the leaf's symbol, and the pointer returns to the root (R216). -/
theorem decodeBits_path {b : Bool} {p : BitSeq} {s : State} {x : Byte} {w : Word} (hrem : s.rem ≠ 0#32)
    (h : follow s.nodes s.cur (b :: p) = some (.leaf x w)) :
    ∃ t, decodeBits (b :: p) s = .go t ∧ Decodes [x] s t ∧ t.cur = s.root := by
  induction p generalizing b s with
  | nil =>
    obtain ⟨n, hn, hchild, hleaf⟩ := exists_of_follow_cons h
    rw [follow_nil hchild] at hleaf
    refine ⟨arriveAt (n.child b) (.leaf x w) s, ?_, decodes_leaf _ x w hrem, rfl⟩
    rw [decodeBits, decodeBit_arrives hrem hn hchild hleaf]
    rfl
  | cons b' p ih =>
    obtain ⟨n, hn, hchild, hrest⟩ := exists_of_follow_cons h
    obtain ⟨m, hm, hchild', -⟩ := exists_of_follow_cons hrest
    obtain ⟨v, l, r, rfl⟩ := internal_of_child_ne_nil hchild'
    obtain ⟨t, hrun, hdec, hcur⟩ := ih (s := { s with cur := n.child b }) hrem hrest
    refine ⟨t, ?_, (decodes_cur _ s).trans hdec, hcur⟩
    rw [decodeBits, decodeBit_arrives hrem hn hchild hm]
    exact hrun

/-! ### The paths of several symbols -/

/-- `path x` leads from the root to a leaf of `x`, for each `x` of `xs`. -/
def PathsTo (s : State) (path : Byte → BitSeq) (xs : List Byte) : Prop :=
  ∀ x ∈ xs, ∃ w, follow s.nodes s.root (path x) = some (.leaf x w)

/-- From the root, over the concatenated paths of as many symbols as `REM` promises, the decoder emits the symbols and
ends at the root. -/
theorem decodeBits_paths {xs : List Byte} {path : Byte → BitSeq} {s : State} (hcur : s.cur = s.root)
    (hlen : xs.length ≤ s.rem.toNat) (hpaths : PathsTo s path xs) (hne : ∀ x ∈ xs, path x ≠ []) :
    ∃ t, decodeBits (xs.flatMap path) s = .go t ∧ Decodes xs s t ∧ t.cur = s.root := by
  induction xs generalizing s with
  | nil => exact ⟨s, rfl, .refl s, hcur⟩
  | cons x xs ih =>
    obtain ⟨⟨w, hx⟩, hpaths⟩ := List.forall_mem_cons.mp hpaths
    obtain ⟨hnex, hne⟩ := List.forall_mem_cons.mp hne
    rw [List.length_cons] at hlen
    have hrem : s.rem ≠ 0#32 := by
      intro e
      simp [e] at hlen
    obtain ⟨b, p, hp⟩ := List.exists_cons_of_ne_nil hnex
    rw [hp, ← hcur] at hx
    obtain ⟨u, hu, hdec, hroot⟩ := decodeBits_path hrem hx
    have hcount := hdec.rem
    have hframe := hdec.frame
    have hnodes : u.nodes = s.nodes := by rw [hframe]
    have hsame : u.root = s.root := by rw [hframe]
    obtain ⟨t, ht, hdec', hcur'⟩ := ih (s := u) (hroot.trans hsame.symm)
      (by rw [List.length_singleton] at hcount; omega) (by rwa [PathsTo, hnodes, hsame]) hne
    refine ⟨t, ?_, hdec.trans hdec', hcur'.trans hsame⟩
    rw [List.flatMap_cons, decodeBits_append, hp, hu, bind_go, ht]

/-! ### A session -/

/-- The commands of a decoding session over the packed bits `c` (R220). -/
def sessionCommands (c : BitSeq) : List Instr := .decstart :: ((pack c).map .decb ++ [.decend])

/-- What a session over `c` comes to, when the bits of `c` count off every promised symbol: the pad bits that follow are
discarded (R215). -/
theorem execAll_decoding {c : BitSeq} {s u t : State} (hm : s.mode = .idle) (htreev : s.treev = true)
    (hstart : startDecoding s = .go u) (hu : u.mode = .dec) (hbits : decodeBits c u = .go t) (hrem : t.rem = 0#32) :
    execAll (sessionCommands c) s = .next { t with mode := .idle } := by
  have hpacked : decodeBits ((pack c).flatMap byteBits) u = .go t := by
    rw [flatMap_byteBits_pack, decodeBits_append, hbits, bind_go, decodeBits_done _ hrem]
  rw [sessionCommands, execAll_cons_of_next (by rw [exec_decstart hm htreev, hstart, finish_go]),
    execAll_decb hu hpacked]
  exact execAll_cons_of_next (exec_decend_complete ((decodeBits_mode hbits).trans hu) hrem) []

/-- With a leaf as root every path to a leaf is empty, and the leaf the same. -/
theorem path_eq_nil_of_root_leaf {nodes : List Node} {h : Handle} {p : BitSeq} {x y : Byte} {w v : Word}
    (hleaf : nodeAt nodes h = some (.leaf y v)) (e : follow nodes h p = some (.leaf x w)) : p = [] ∧ x = y := by
  cases p with
  | nil =>
    rw [follow_nil (allocated_of_follow e).1, hleaf] at e
    cases e
    exact ⟨rfl, rfl⟩
  | cons b p => simp [follow, descend_leaf hleaf] at e

/-- The outcome of a session that emits `xs` (R219, R220). -/
def SessionEmits (xs : List Byte) (c : BitSeq) (s : State) : Prop :=
  ∃ t, execAll (sessionCommands c) s = .next t ∧
    t = { s with cur := s.root, rem := 0#32, outq := t.outq, held := t.held } ∧ t.out = s.out ++ xs

section Session
variable {s : State} {xs : List Byte} {path : Byte → BitSeq} (hm : s.mode = .idle) (htreev : s.treev = true)
include hm htreev

/-- No symbol is promised, so none is emitted. -/
theorem sessionEmits_nil (hnsym : s.nsym = 0#32) : SessionEmits [] [] s :=
  ⟨_, execAll_decoding hm htreev (startDecoding_empty hnsym) rfl rfl rfl, by rw [← hm], by simp [State.out]⟩

/-- The root is a leaf of `y`: `DECSTART` emits every symbol, and there are no bits. -/
theorem sessionEmits_leaf {y : Byte} {v : Word} (hnsym : s.nsym ≠ 0#32) (hroot : s.root ≠ Config.nil)
    (hleaf : nodeAt s.nodes s.root = some (.leaf y v)) : SessionEmits (List.replicate s.nsym.toNat y) [] s := by
  refine ⟨_, execAll_decoding hm htreev (startDecoding_leaf hnsym hroot hleaf) rfl rfl rfl, ?_, afterCopies_out y s⟩
  rw [afterCopies_frame, ← hm]

/-- The root is an `Internal`: the decoder goes down one path for each symbol. -/
theorem sessionEmits_paths {w : Word} {l r : Handle} (hnsym : s.nsym ≠ 0#32) (hroot : s.root ≠ Config.nil)
    (hn : nodeAt s.nodes s.root = some (.internal w l r)) (hlen : xs.length = s.nsym.toNat)
    (hpaths : PathsTo s path xs) : SessionEmits xs (xs.flatMap path) s := by
  have hne : ∀ x ∈ xs, path x ≠ [] := by
    intro x hx hnil
    obtain ⟨v, hv⟩ := hpaths x hx
    rw [hnil, follow_nil hroot, hn] at hv
    cases hv
  obtain ⟨t, hbits, hdec, hcur⟩ :=
    decodeBits_paths (s := { s with rem := s.nsym, cur := s.root, mode := .dec }) rfl hlen.le hpaths hne
  have hcount := hdec.rem
  have hrem : t.rem = 0#32 := BitVec.eq_of_toNat_eq (by simp only [BitVec.toNat_zero]; dsimp only at hcount; omega)
  refine ⟨_, execAll_decoding hm htreev (startDecoding_internal hnsym hroot hn) rfl hbits hrem, ?_, hdec.out⟩
  rw [hdec.frame, hcur, hrem, ← hm]

/-- A session over the packed paths of `NSYM` symbols emits the symbols (R220). -/
theorem sessionEmits (hlen : xs.length = s.nsym.toNat) (hpaths : PathsTo s path xs) :
    SessionEmits xs (xs.flatMap path) s := by
  cases xs with
  | nil => exact sessionEmits_nil hm htreev (BitVec.eq_of_toNat_eq hlen.symm)
  | cons x xs =>
    have hnsym : s.nsym ≠ 0#32 := by
      intro e
      simp [e] at hlen
    obtain ⟨w, hx⟩ := hpaths x List.mem_cons_self
    obtain ⟨hroot, n, hn⟩ := allocated_of_follow hx
    cases n with
    | internal v l r => exact sessionEmits_paths hm htreev hnsym hroot hn hlen hpaths
    | leaf y v =>
      have hall : ∀ z ∈ x :: xs, path z = [] ∧ z = y := fun z hz => by
        obtain ⟨u, hu⟩ := hpaths z hz
        exact path_eq_nil_of_root_leaf hn hu
      have hxs : x :: xs = List.replicate s.nsym.toNat y :=
        List.eq_replicate_iff.mpr ⟨hlen, fun z hz => (hall z hz).2⟩
      have hbits : (x :: xs).flatMap path = [] := List.flatMap_eq_nil_iff.mpr fun z hz => (hall z hz).1
      rw [hbits, hxs]
      exact sessionEmits_leaf hm htreev hnsym hroot hn

end Session

end Sys2Proof.Machine
end

section
/-! PROOFS. The decoder (R214 to R220). -/

namespace Sys2Proof.Machine

/-- Settles O33: with no symbol left `DECEND` leaves `DEC`, with some it raises, and in another mode its requirement
fails. -/
theorem decendClosesTheStream : Obligations.DecendClosesTheStream := by
  unfold Obligations.DecendClosesTheStream
  exact ⟨rfl, fun s => ⟨exec_decend_complete, exec_decend_short, fun hm hf =>
    failedRequireRaisesSequenceError .decend s hf hm⟩⟩

/-- Settles O30: accepted, `DECSTART` is `startDecoding`, whose branches are R214's; else its requirement fails. -/
theorem decstartOpensTheStream : Obligations.DecstartOpensTheStream := by
  unfold Obligations.DecstartOpensTheStream
  refine ⟨rfl, fun s => ⟨failedRequireRaisesSequenceError .decstart s, fun hm htreev => ?_⟩⟩
  rw [exec_decstart hm htreev]
  refine ⟨fun hnsym => ?empty, fun hnsym hroot => ?noTree, fun w l r hnsym hroot hn => ?internal,
    fun x w hnsym hroot hn => ?leaf⟩
  case empty => rw [startDecoding_empty hnsym, finish_go]
  case noTree => rw [startDecoding_noTree hnsym hroot, finish_raised]
  case internal => rw [startDecoding_internal hnsym hroot hn, finish_go]
  case leaf =>
    rw [startDecoding_leaf hnsym hroot hn, finish_go]
    exact ⟨_, rfl, afterCopies_frame x s, afterCopies_out x s⟩

/-- Settles O31: `DECBIT` is `decodeBit`, whose branches are R216's, and a run of `DECBIT` is `decodeBits`, as `DECB`
is; else the requirement fails. -/
theorem decbitAndDecbDecodeBits : Obligations.DecbitAndDecbDecodeBits := by
  unfold Obligations.DecbitAndDecbDecodeBits
  refine ⟨fun b s => ⟨?word, fun hm hf => failedRequireRaisesSequenceError (.decbit b) s hf hm, fun hm => ?bit⟩,
    fun b s => ⟨encode_eq_or (.decb b), fun hm => ?byte, fun hm hf =>
      failedRequireRaisesSequenceError (.decb b) s hf hm⟩⟩
  case word => cases b <;> rfl
  case bit =>
    rw [exec_decbit hm]
    refine ⟨fun hrem => ?done, fun n hrem hn => ⟨fun hchild => ?missing, fun w l r hchild hm => ?internal,
      fun x w hchild hm => ?leaf⟩⟩
    case done => rw [decodeBit_done hrem, finish_go]
    case missing =>
      rw [decodeBit_missing hrem hn hchild, missingChildInfo_eq]
      rfl
    case internal =>
      rw [decodeBit_arrives hrem hn hchild hm]
      rfl
    case leaf =>
      rw [decodeBit_arrives hrem hn hchild hm, finish_go]
      exact ⟨_, rfl, arriveAt_leaf_frame _ x w s, arriveAt_leaf_out _ x w s⟩
  case byte => rw [exec_decb hm, ← execAll_decbit _ hm, byteBits]

/-- Settles O32: on a strict tree no bit finds an absent child, and each emits at most one symbol. -/
theorem decbCompletesOnAStrictTree : Obligations.DecbCompletesOnAStrictTree := by
  unfold Obligations.DecbCompletesOnAStrictTree
  intro b s htree hm hstrict
  obtain ⟨t, xs, hgo, hdec, hlen⟩ := decodeBits_of_strict (byteBits b) (htree.decoderOk hm) hstrict
  exact ⟨t, xs, by rw [exec_decb hm, hgo, finish_go], hdec.frame, hdec.out, hlen, hdec.rem⟩

/-- Settles O34: the paths are all empty where the root is a leaf, and none is where it is an `Internal`. -/
theorem decodingSessionEmitsTheSymbols : Obligations.DecodingSessionEmitsTheSymbols := by
  unfold Obligations.DecodingSessionEmitsTheSymbols
  exact fun s xs path hm htreev hlen hpaths => sessionEmits hm htreev hlen hpaths

end Sys2Proof.Machine
end

section
/-! SUPPORT. The header read back (R71, R236): what `TABB` does to the counts and to each entry that `SER` emits, so
that the bytes of a canonical table, given to `TABSTART` and `TABB`, leave the same table. -/

namespace Sys2Proof.Machine

/-! ### One byte (R236) -/

theorem execAll_tabb_cons {b : Byte} {s u : State} (hm : s.mode = .loadtab) (h : parseByte b s = .go u)
    (bs : List Byte) : execAll ((b :: bs).map .tabb) s = execAll (bs.map .tabb) u := by
  refine execAll_cons_of_next ?_ _
  rw [exec_accepted (i := .tabb b) nofun (by simp [hm]) hm, bodyOf, h, finish_go]

/-- The parser after the counts or an entry: the header is complete, or the next entry is due (R236). -/
def nextEntry (s : State) : State := if s.pcnt = 0#9 then headerDone s else { s with pst := .esym }

theorem nextEntry_done {s : State} (h : s.pcnt = 0#9) : nextEntry s = headerDone s := if_pos h

theorem nextEntry_more {s : State} (h : s.pcnt ≠ 0#9) : nextEntry s = { s with pst := .esym } := if_neg h

/-- `entry_done()` writes the entry, counts it off and turns to the next (R236). -/
theorem entryDone_eq (s : State) :
    entryDone s = nextEntry { setCode s.psym (s.pbits.take s.plen.toNat) s with pcnt := s.pcnt - 1#9 } := rfl

section Byte
variable {b : Byte} {s : State}

theorem parseByte_h0 (hp : s.pst = .h0) : parseByte b s = .go { s with ptmp := b.zeroExtend 24, pst := .h1 } := by
  rw [parseByte, hp]

theorem parseByte_h1 (hp : s.pst = .h1) (hle : (fieldSoFar s b).toNat ≤ Config.nsyms) :
    parseByte b s = .go { s with nent := (fieldSoFar s b).setWidth 9, pst := .n0 } := by
  rw [parseByte, hp]
  exact if_neg (Nat.not_lt.mpr hle)

theorem parseByte_n0 (hp : s.pst = .n0) : parseByte b s = .go { s with ptmp := b.zeroExtend 24, pst := .n1 } := by
  rw [parseByte, hp]

theorem parseByte_n1 (hp : s.pst = .n1) : parseByte b s = .go { pushField b s with pst := .n2 } := by
  rw [parseByte, hp]

theorem parseByte_n2 (hp : s.pst = .n2) : parseByte b s = .go { pushField b s with pst := .n3 } := by
  rw [parseByte, hp]

theorem parseByte_n3 (hp : s.pst = .n3) :
    parseByte b s = .go (nextEntry { s with nsym := fieldSoFar s b, pcnt := s.nent }) := by
  rw [parseByte, hp, nextEntry]
  dsimp only
  split <;> rfl

theorem parseByte_esym (hp : s.pst = .esym) (hnew : codeOf s b = none) :
    parseByte b s = .go { s with psym := b, pst := .elen } := by
  rw [parseByte, hp]
  dsimp only
  rw [hnew]

theorem parseByte_elen_empty (hp : s.pst = .elen) :
    parseByte 0#8 s = .go (entryDone { s with plen := 0#8, pidx := 0#6, pbits := [] }) := by
  rw [parseByte, hp]
  rfl

theorem parseByte_elen (hp : s.pst = .elen) (hb : b ≠ 0#8) :
    parseByte b s = .go { s with plen := b, pidx := 0#6, pbits := [], pst := .ecode } := by
  rw [parseByte, hp]
  exact if_neg hb

theorem parseByte_ecode_last (hp : s.pst = .ecode) (hlast : (s.pidx + 1#6).toNat = byteCount s.plen.toNat) :
    parseByte b s = .go (entryDone { s with pbits := s.pbits ++ byteBits b, pidx := s.pidx + 1#6 }) := by
  rw [parseByte, hp]
  exact if_pos hlast

theorem parseByte_ecode_more (hp : s.pst = .ecode) (hmore : (s.pidx + 1#6).toNat ≠ byteCount s.plen.toNat) :
    parseByte b s = .go { s with pbits := s.pbits ++ byteBits b, pidx := s.pidx + 1#6 } := by
  rw [parseByte, hp]
  exact if_neg hmore

end Byte

/-! ### The counts (R69) -/

/-- The next byte of a big-endian field joins the bytes above it. -/
theorem extractLsb'_push {n : Nat} (m : BitVec n) (k w v : Nat) :
    (m.extractLsb' (k + 8) w).zeroExtend v <<< 8 ||| (m.extractLsb' k 8).zeroExtend v =
      (m.extractLsb' k (w + 8)).zeroExtend v := by
  ext i hi
  by_cases h8 : i < 8
  · have : i < w + 8 := by omega
    simp [h8, this]
  · have hsub : i - 8 < w ↔ i < w + 8 := by omega
    have hidx : k + 8 + (i - 8) = k + i := by omega
    simp [h8, hsub, hidx]

/-- The top `w` bits of a field stand in `PTMP`; the next byte gives `w + 8` of them (R236). -/
theorem fieldSoFar_extractLsb' {n : Nat} (m : BitVec n) (k w : Nat) (hw : w ≤ 24) {s : State}
    (h : s.ptmp = (m.extractLsb' (k + 8) w).zeroExtend 24) :
    fieldSoFar s (m.extractLsb' k 8) = (m.extractLsb' k (w + 8)).zeroExtend 32 := by
  have hwide : s.ptmp.zeroExtend 32 = (m.extractLsb' (k + 8) w).zeroExtend 32 := by
    rw [h]
    exact BitVec.setWidth_setWidth (by omega)
  rw [fieldSoFar, hwide, extractLsb'_push]

/-- The two bytes of `NENT` are read as that number (R69, R236). -/
theorem execAll_nentBytes {n : BitVec 9} (hn : n.toNat ≤ Config.nsyms) {s : State} (hm : s.mode = .loadtab)
    (hp : s.pst = .h0) (bs : List Byte) :
    execAll ((nentBytes n ++ bs).map .tabb) s =
      execAll (bs.map .tabb)
        { s with ptmp := (BitVec.zeroExtend 8 (n.extractLsb' 8 1)).zeroExtend 24, nent := n, pst := .n0 } := by
  have hfield : fieldSoFar { s with ptmp := (BitVec.zeroExtend 8 (n.extractLsb' 8 1)).zeroExtend 24, pst := .h1 }
      (n.extractLsb' 0 8) = n.zeroExtend 32 := by
    rw [fieldSoFar_extractLsb' n 0 1 (by decide), BitVec.extractLsb'_eq_self]
    exact BitVec.setWidth_setWidth (u := 1) (v := 8) (w := 24) (by decide)
  have hlow : (n.zeroExtend 32).toNat ≤ Config.nsyms := by
    rwa [BitVec.toNat_setWidth, Nat.mod_eq_of_lt (n.isLt.trans (by decide))]
  refine (execAll_tabb_cons hm (parseByte_h0 hp) _).trans ?_
  refine Eq.trans (execAll_tabb_cons (by exact hm) (parseByte_h1 (by rfl) (by rwa [hfield])) _) ?_
  rw [hfield]
  simp

/-- The four bytes of `NSYM` are read as that number (R69, R236). -/
theorem execAll_nsymBytes (m : Word) {s : State} (hm : s.mode = .loadtab) (hp : s.pst = .n0) (bs : List Byte) :
    execAll ((nsymBytes m ++ bs).map .tabb) s =
      execAll (bs.map .tabb)
        (nextEntry { s with nsym := m, pcnt := s.nent, ptmp := m.extractLsb' 8 24, pst := .n3 }) := by
  have hhigh : (m.extractLsb' 24 8).zeroExtend 24 <<< 8 ||| (m.extractLsb' 16 8).zeroExtend 24 =
      (m.extractLsb' 16 16).zeroExtend 24 := extractLsb'_push m 16 8 24
  have hptmp : (m.extractLsb' 16 16).zeroExtend 24 <<< 8 ||| (m.extractLsb' 8 8).zeroExtend 24 = m.extractLsb' 8 24 :=
    (extractLsb'_push m 8 16 24).trans (BitVec.setWidth_eq _)
  have hfield : fieldSoFar { s with ptmp := m.extractLsb' 8 24, pst := .n3 } (m.extractLsb' 0 8) = m := by
    rw [fieldSoFar_extractLsb' m 0 24 le_rfl (BitVec.setWidth_eq _).symm, BitVec.extractLsb'_eq_self]
    exact BitVec.setWidth_eq m
  refine (execAll_tabb_cons hm (parseByte_n0 hp) _).trans ?_
  refine Eq.trans (execAll_tabb_cons (by exact hm) (parseByte_n1 (by rfl)) _) ?_
  refine Eq.trans (execAll_tabb_cons (by exact hm) (parseByte_n2 (by rfl)) _) ?_
  refine Eq.trans (execAll_tabb_cons (by exact hm) (parseByte_n3 (by rfl)) _) ?_
  simp only [pushField, hhigh, hptmp, hfield]
  rfl

/-! ### An entry (R71) -/

theorem toNat_clenOf {c : BitSeq} (h : c.length ≤ Config.lenMax) : (clenOf c).toNat = c.length := by
  rw [clenOf, BitVec.toNat_ofNat]
  exact Nat.mod_eq_of_lt (Nat.lt_succ_of_le h)

theorem byteCount_le {n : Nat} (h : n ≤ Config.lenMax) : byteCount n ≤ 32 := by
  simp only [Config.lenMax] at h
  unfold byteCount
  omega

/-- The bytes of a code, all of them to come, are collected; after the last the entry is done (R236). -/
theorem execAll_codeBytes {ys : List Byte} (hne : ys ≠ []) {s : State} (hm : s.mode = .loadtab) (hp : s.pst = .ecode)
    (hlen : s.pidx.toNat + ys.length = byteCount s.plen.toNat) (bs : List Byte) :
    execAll ((ys ++ bs).map .tabb) s = execAll (bs.map .tabb)
      (entryDone { s with pbits := s.pbits ++ ys.flatMap byteBits, pidx := s.pidx + BitVec.ofNat 6 ys.length }) := by
  have hcount := byteCount_le (Nat.le_of_lt_succ s.plen.isLt)
  induction ys generalizing s with
  | nil => exact absurd rfl hne
  | cons y ys ih =>
    rw [List.length_cons] at hlen
    have hnext : (s.pidx + 1#6).toNat = s.pidx.toNat + 1 := by bv_omega
    by_cases hys : ys = []
    · subst hys
      have hlast : (s.pidx + 1#6).toNat = byteCount s.plen.toNat := by rw [hnext, ← hlen, List.length_nil]
      rw [List.singleton_append, execAll_tabb_cons hm (parseByte_ecode_last hp hlast)]
      simp
    · have hpos : 0 < ys.length := List.length_pos_iff.mpr hys
      have hidx : s.pidx + 1#6 + BitVec.ofNat 6 ys.length = s.pidx + BitVec.ofNat 6 (ys.length + 1) := by
        rw [BitVec.add_assoc, ← BitVec.ofNat_add, Nat.add_comm 1]
      have hmore : (s.pidx + 1#6).toNat ≠ byteCount s.plen.toNat := by omega
      rw [List.cons_append, execAll_tabb_cons hm (parseByte_ecode_more hp hmore)]
      refine Eq.trans (ih hys (by exact hm) (by exact hp) (by dsimp only; omega) hcount) ?_
      simp [hidx]

/-- The parser after the entry of `x` with code `c`, before the next is opened. -/
def entryRead (x : Byte) (c : BitSeq) (s : State) : State :=
  { setCode x c s with
    psym := x, plen := clenOf c, pidx := BitVec.ofNat 6 (pack c).length, pbits := (pack c).flatMap byteBits,
    pst := if c = [] then .elen else .ecode, pcnt := s.pcnt - 1#9 }

/-- The bytes of an entry of a new symbol are read as that symbol and that code (R71, R236). -/
theorem execAll_entryBytes {x : Byte} {c : BitSeq} {s : State} (hm : s.mode = .loadtab) (hp : s.pst = .esym)
    (hnew : codeOf s x = none) (hc : c.length ≤ Config.lenMax) (bs : List Byte) :
    execAll ((entryBytes x c ++ bs).map .tabb) s = execAll (bs.map .tabb) (nextEntry (entryRead x c s)) := by
  have hclen := toNat_clenOf hc
  refine (execAll_tabb_cons hm (parseByte_esym hp hnew) _).trans ?_
  by_cases hnil : c = []
  · subst hnil
    exact execAll_tabb_cons (by exact hm) (parseByte_elen_empty (by rfl)) _
  · have hpos : 0 < c.length := List.length_pos_iff.mpr hnil
    have hclen0 : clenOf c ≠ 0#8 := by
      intro e
      rw [e, BitVec.toNat_zero] at hclen
      omega
    have hbytes : pack c ≠ [] := by
      rw [← List.length_pos_iff, length_pack, byteCount]
      omega
    have htake : ((pack c).flatMap byteBits).take c.length = c := unpack_pack c
    refine Eq.trans (execAll_tabb_cons (by exact hm) (parseByte_elen (by rfl) hclen0) _) ?_
    refine Eq.trans (execAll_codeBytes hbytes (by exact hm) (by rfl) ?_ _) ?_
    · simp [hclen]
    · simp [entryDone_eq, entryRead, setCode, hclen, htake, hnil]

/-! ### The table (R71) -/

/-- The table that storing codes leaves depends on the table before alone. -/
theorem storeCodes_table_congr (cs : Codes) {s t : State} (h : t.table = s.table) :
    (storeCodes cs t).table = (storeCodes cs s).table := by
  induction cs generalizing s t with
  | nil => exact h
  | cons e cs ih => exact ih (congrArg (Memory.insert · e.1.toNat e.2) h)

/-- What the parser writes after the counts, for a table with the entries `cs`. -/
theorem execAll_entries {cs : Codes} {s : State} (hm : s.mode = .loadtab) (hcount : s.pcnt.toNat = cs.length)
    (hnd : (cs.map Prod.fst).Nodup) (hnew : ∀ x ∈ cs.map Prod.fst, codeOf s x = none)
    (hshort : ∀ e ∈ cs, e.2.length ≤ Config.lenMax) :
    ∃ t, execAll ((cs.flatMap fun e => entryBytes e.1 e.2).map .tabb) (nextEntry s) = .next t ∧
      t = { s with
        mode := .idle, tabv := true, table := (storeCodes cs s).table, pst := t.pst, pcnt := 0#9, psym := t.psym,
        plen := t.plen, pidx := t.pidx, pbits := t.pbits } := by
  induction cs generalizing s with
  | nil =>
    have hzero : s.pcnt = 0#9 := BitVec.eq_of_toNat_eq hcount
    refine ⟨headerDone s, by rw [nextEntry_done hzero]; rfl, ?_⟩
    rw [headerDone, ← hzero]
    rfl
  | cons e cs ih =>
    obtain ⟨hce, hcs⟩ := List.forall_mem_cons.mp hshort
    rw [List.map_cons, List.nodup_cons] at hnd
    obtain ⟨hnotin, hnd⟩ := hnd
    rw [List.map_cons, List.forall_mem_cons] at hnew
    obtain ⟨hnewe, hnew⟩ := hnew
    rw [List.length_cons] at hcount
    have hmore : s.pcnt ≠ 0#9 := fun h0 => by simp [h0] at hcount
    have hleft : (s.pcnt - 1#9).toNat = cs.length := by bv_omega
    obtain ⟨t, hrun, ht⟩ := ih (s := entryRead e.1 e.2 { s with pst := .esym }) hm hleft hnd
      (fun x hx => (codeOf_setCode_other e.2 s (ne_of_mem_of_not_mem hx hnotin)).trans (hnew x hx)) hcs
    have htable : (storeCodes cs (entryRead e.1 e.2 { s with pst := .esym })).table = (storeCodes (e :: cs) s).table :=
      storeCodes_table_congr cs (s := setCode e.1 e.2 s) rfl
    rw [htable] at ht
    refine ⟨t, ?_, ht⟩
    rw [List.flatMap_cons, nextEntry_more hmore]
    exact (execAll_entryBytes (s := { s with pst := .esym }) hm rfl hnewe hce _).trans hrun

/-- The entries of the code table in the order of the header (R71). -/
def tableEntries (s : State) : Codes := allSyms.filterMap fun x => (codeOf s x).map fun c => (x, c)

theorem mem_tableEntries {s : State} {x : Byte} {c : BitSeq} : (x, c) ∈ tableEntries s ↔ codeOf s x = some c := by
  simp [tableEntries]

theorem nodup_syms_tableEntries (s : State) : ((tableEntries s).map Prod.fst).Nodup := by
  refine List.pairwise_map.mpr (List.pairwise_filterMap.mpr (nodup_allSyms.imp fun {x y} hxy e he d hd => ?_))
  obtain ⟨c, -, rfl⟩ := Option.map_eq_some_iff.mp he
  obtain ⟨c', -, rfl⟩ := Option.map_eq_some_iff.mp hd
  exact hxy

/-- The header is its counts and its entries. -/
theorem headerBytes_eq (s : State) :
    headerBytes s = nentBytes s.nent ++ (nsymBytes s.nsym ++ (tableEntries s).flatMap fun e => entryBytes e.1 e.2) := by
  rw [headerBytes, List.append_assoc, tableEntries]
  congr 2
  generalize allSyms = xs
  induction xs with
  | nil => rfl
  | cons x xs ih => cases hx : codeOf s x <;> simp [entryOf, hx, ih]

/-- A canonical table is what its entries, stored one after the other, give. -/
theorem storeCodes_tableEntries {s t : State} (hs : Memory.wf s.table = true) (ht : t.table = []) :
    (storeCodes (tableEntries s) t).table = s.table := by
  have hempty : ∀ x, codeOf t x = none := fun x => by simp [codeOf, ht]
  refine table_ext (wf_storeCodes _ (by simp [ht])) hs fun x => ?_
  cases hx : codeOf (storeCodes (tableEntries s) t) x with
  | some c =>
    rcases codeOf_storeCodes hx with hmem | hcleared
    · exact (mem_tableEntries.mp hmem).symm
    · exact absurd hcleared (by simp [hempty])
  | none =>
    by_contra hne
    obtain ⟨c, hc⟩ := Option.ne_none_iff_exists'.mp (Ne.symm hne)
    refine (codeOf_storeCodes_ne_none_iff (tableEntries s) t x).mpr (.inl ?_) hx
    exact List.mem_map.mpr ⟨(x, c), mem_tableEntries.mpr hc, rfl⟩

/-- As many entries as the canonical table has (R37 a). -/
theorem length_tableEntries {s : State} (hs : Memory.wf s.table = true) :
    (tableEntries s).length = s.table.length := by
  have hlen := length_storeCodes (s := { s with table := [] }) (nodup_syms_tableEntries s) fun _ _ => rfl
  rw [storeCodes_tableEntries hs rfl] at hlen
  simpa using hlen.symm

/-- At most one entry for each symbol. -/
theorem length_tableEntries_le (s : State) : (tableEntries s).length ≤ Config.nsyms :=
  (List.length_filterMap_le _ _).trans_eq length_allSyms

/-- The header of a canonical table, read after `TABSTART`, completes at its last byte and leaves the same table, `NENT`
and `NSYM` (R236). -/
theorem execAll_header {a b : State} (hm : b.mode = .idle) (hwf : Memory.wf a.table = true) (hshort : CodesShort a)
    (hnent : a.nent.toNat = a.table.length) :
    ∃ t, execAll (.tabstart :: (headerBytes a).map .tabb) b = .next t ∧
      t = { b with
        mode := .idle, treev := false, tabv := true, table := a.table, nent := a.nent, nsym := a.nsym,
        pst := t.pst, pcnt := 0#9, psym := t.psym, plen := t.plen, pidx := t.pidx, ptmp := t.ptmp,
        pbits := t.pbits } := by
  have hlen := length_tableEntries hwf
  have hle : a.nent.toNat ≤ Config.nsyms := by
    rw [hnent, ← hlen]
    exact length_tableEntries_le a
  have hstart : exec .tabstart b = .next (startTable b) := exec_accepted (i := .tabstart) nofun (by simp [hm]) hm
  rw [execAll_cons_of_next hstart, headerBytes_eq, execAll_nentBytes hle rfl rfl, execAll_nsymBytes _ rfl rfl]
  obtain ⟨t, hrun, ht⟩ := execAll_entries (s := { startTable b with
      nent := a.nent, nsym := a.nsym, pcnt := a.nent, ptmp := a.nsym.extractLsb' 8 24, pst := .n3 })
    rfl (hnent.trans hlen.symm) (nodup_syms_tableEntries a) (fun _ _ => rfl)
    fun e he => hshort e.1 e.2 (mem_tableEntries.mp he)
  rw [storeCodes_tableEntries hwf rfl] at ht
  refine ⟨t, hrun, ?_⟩
  rw [ht]
  rfl

end Sys2Proof.Machine
end

section
/-! SUPPORT. `RECON` does not fault on a `PrefixFree` table whose tree fits the arena (R245, R246): every node stands at
a beginning of a code, an `Internal` at one that goes on, so no code runs into a leaf or ends on a node, and there are
never more nodes than beginnings. -/

namespace Sys2Proof.Machine

/-- No code of one symbol begins that of another (R170 c). -/
theorem PrefixFree.not_prefix {s : State} (h : PrefixFree s) {x y : Byte} {c d : BitSeq} (hc : codeOf s x = some c)
    (hd : codeOf s y = some d) (hxy : x ≠ y) : ¬ c <+: d := by
  have hpairs : allSyms.Pairwise fun x y => ∀ c, codeOf s x = some c → ∀ d, codeOf s y = some d →
      ¬ c <+: d ∧ ¬ d <+: c := List.pairwise_filterMap.mp h
  have hsymm : Std.Symm fun x y : Byte => ∀ c, codeOf s x = some c → ∀ d, codeOf s y = some d →
      ¬ c <+: d ∧ ¬ d <+: c := ⟨fun _ _ hxy c hc d hd => (hxy d hd c hc).symm⟩
  exact (hpairs.forall (mem_allSyms x) (mem_allSyms y) hxy c hc d hd).1

/-- The different beginnings of the codes. -/
def codeBeginnings (s : State) : List BitSeq := ((codesInOrder s).flatMap List.inits).dedup

theorem mem_codeBeginnings {s : State} {x : Byte} {c p : BitSeq} (hc : codeOf s x = some c) (hp : p <+: c) :
    p ∈ codeBeginnings s := by
  refine List.mem_dedup.mpr (List.mem_flatMap.mpr ⟨c, ?_, (List.mem_inits _ _).mpr hp⟩)
  exact List.mem_filterMap.mpr ⟨x, mem_allSyms x, hc⟩

/-- Different beginnings of codes are at most as many as the tree for the table needs nodes. -/
theorem length_le_trieSize {s : State} {ps : List BitSeq} (hnd : ps.Nodup) (h : ∀ p ∈ ps, p ∈ codeBeginnings s) :
    ps.length ≤ trieSize s := (hnd.subperm h).length_le

/-- A code goes on from `p`. -/
def CodeGoesOn (s : State) (p : BitSeq) : Prop := ∃ x c t, codeOf s x = some c ∧ p ++ [t] <+: c

/-- The tree while `RECON` builds it from codes: a code goes on from every `Internal` (R245). -/
structure CodeTrie (addr : Handle → BitSeq) (s : State) : Prop extends Trie addr s where
  goesOn : ∀ h, isInternal s.nodes h = true → CodeGoesOn s (addr h)

/-- Every node stands at a beginning of a code. -/
theorem CodeTrie.addr_mem {addr : Handle → BitSeq} {s : State} (h : CodeTrie addr s) {g : Handle}
    (hg : g.toNat < s.nodes.length) : addr g ∈ codeBeginnings s := by
  obtain ⟨n, hn⟩ := exists_nodeAt hg
  cases n with
  | leaf x w => exact mem_codeBeginnings (h.codeOf_leaf g x w hn) List.prefix_rfl
  | internal w l r =>
    obtain ⟨x, c, t, hc, hp⟩ := h.goesOn g ((isInternal_iff _ _).mpr ⟨w, l, r, hn⟩)
    exact mem_codeBeginnings hc ((List.prefix_append _ _).trans hp)

section Slot
variable {addr : Handle → BitSeq} {s : State} {slot : Slot}

/-- No node stands where an empty slot would put one. -/
theorem Trie.addr_ne_slotAddr (h : Trie addr s) (hslot : SlotAllocated s slot) (hnil : slotVal slot s = Config.nil)
    {g : Handle} (hg : g.toNat < s.nodes.length) : addr g ≠ slotAddr addr slot := by
  intro e
  have hreached := h.reached g hg
  rw [e] at hreached
  have hne := (descend_allocated hreached).1
  cases slot with
  | root => exact hne ((eq_of_descend_nil hreached).symm.trans hnil)
  | child p b =>
    obtain ⟨f, hf, hchild, -⟩ := descend_concat_iff.mp hreached
    obtain rfl : p = f := Option.some.inj ((h.reached p hslot).symm.trans hf)
    exact hne (hchild.symm.trans hnil)

/-- The addresses of the nodes in handle order. -/
def nodeAddrs (addr : Handle → BitSeq) (s : State) : List BitSeq :=
  (List.range s.nodes.length).map fun i => addr (BitVec.ofNat 9 i)

theorem Trie.mem_nodeAddrs (h : Trie addr s) {p : BitSeq} (hp : p ∈ nodeAddrs addr s) :
    ∃ g : Handle, g.toNat < s.nodes.length ∧ addr g = p := by
  obtain ⟨i, hi, rfl⟩ := List.mem_map.mp hp
  have hlt := List.mem_range.mp hi
  have hcap : s.nodes.length ≤ 511 := h.length_le
  refine ⟨_, ?_, rfl⟩
  rw [BitVec.toNat_ofNat]
  omega

/-- No two nodes have one address. -/
theorem Trie.nodup_nodeAddrs (h : Trie addr s) : (nodeAddrs addr s).Nodup := by
  have hcap : s.nodes.length ≤ 511 := h.length_le
  have hnum : ∀ i < s.nodes.length, (BitVec.ofNat 9 i).toNat = i := fun i hi => by
    rw [BitVec.toNat_ofNat]
    omega
  refine List.nodup_range.map_on fun i hi j hj e => ?_
  rw [List.mem_range] at hi hj
  have hri := h.reached (BitVec.ofNat 9 i) (by rwa [hnum i hi])
  have hrj := h.reached (BitVec.ofNat 9 j) (by rwa [hnum j hj])
  rw [e] at hri
  rw [← hnum i hi, ← hnum j hj, Option.some.inj (hri.symm.trans hrj)]

/-- An empty slot on the way of a code has room in an arena that holds the tree for the table. -/
theorem CodeTrie.not_full (h : CodeTrie addr s) (hsize : trieSize s ≤ Config.nodeCap) (hslot : SlotAllocated s slot)
    (hnil : slotVal slot s = Config.nil) (hmem : slotAddr addr slot ∈ codeBeginnings s) :
    ¬ arenaFull s.nodes = true := by
  have hnew : slotAddr addr slot ∉ nodeAddrs addr s := fun hin => by
    obtain ⟨g, hg, e⟩ := h.mem_nodeAddrs hin
    exact h.addr_ne_slotAddr hslot hnil hg e
  have hold : ∀ p ∈ nodeAddrs addr s, p ∈ codeBeginnings s := fun p hp => by
    obtain ⟨g, hg, rfl⟩ := h.mem_nodeAddrs hp
    exact h.addr_mem hg
  have hlt := length_le_trieSize (List.nodup_cons.mpr ⟨hnew, h.nodup_nodeAddrs⟩) (List.forall_mem_cons.mpr ⟨hmem, hold⟩)
  simp only [List.length_cons, nodeAddrs, List.length_map, List.length_range] at hlt
  simp only [arenaFull, decide_eq_true_eq]
  omega

/-- An `Internal` after an allocation was one, or is the new node. -/
theorem isInternal_allocInto {n : Node} {g : Handle} (hlen : s.nodes.length < 512)
    (h : isInternal (allocInto slot n s).nodes g = true) :
    isInternal s.nodes g = true ∨ (g = nextHandle s.nodes ∧ ∃ w l r, n = .internal w l r) := by
  obtain ⟨w, l, r, hg⟩ := (isInternal_iff _ _).mp h
  have hnotleaf : ∀ x v, nodeAt (s.nodes ++ [n]) g ≠ some (.leaf x v) := fun x v e => by
    rw [(nodeAt_allocInto_leaf_iff slot n s).mpr e] at hg
    cases hg
  have hlt : g.toNat < (s.nodes ++ [n]).length := by
    have := nodeAt_lt hg
    rwa [length_allocInto, ← List.length_singleton (a := n), ← List.length_append] at this
  rcases lt_or_eq_nextHandle hlen hlt with hold | rfl
  · obtain ⟨m, hm⟩ := exists_nodeAt hold
    rw [nodeAt_append hold, hm] at hnotleaf
    cases m with
    | leaf x v => exact absurd rfl (hnotleaf x v)
    | internal v l r => exact .inl ((isInternal_iff _ _).mpr ⟨v, l, r, hm⟩)
  · rw [nodeAt_new n hlen] at hnotleaf
    cases n with
    | leaf x v => exact absurd rfl (hnotleaf x v)
    | internal v l r => exact .inr ⟨rfl, v, l, r, rfl⟩

theorem CodeGoesOn.allocInto {p : BitSeq} (h : CodeGoesOn s p) (slot : Slot) (n : Node) :
    CodeGoesOn (allocInto slot n s) p := by
  obtain ⟨x, c, t, hc, hp⟩ := h
  exact ⟨x, c, t, (codeOf_allocInto slot n s x).trans hc, hp⟩

/-- An allocation on the way of a code. -/
theorem CodeTrie.allocInto (h : CodeTrie addr s) (hslot : SlotWritable s slot) (hnil : slotVal slot s = Config.nil)
    (hfull : ¬ arenaFull s.nodes = true) {n : Node} (hn : ∀ t, n.child t = Config.nil)
    (hleaf : ∀ x w, n = .leaf x w → codeOf s x = some (slotAddr addr slot))
    (hinternal : ∀ w l r, n = .internal w l r → CodeGoesOn s (slotAddr addr slot)) :
    CodeTrie (withNewAddr addr s.nodes (slotAddr addr slot)) (allocInto slot n s) := by
  have hlt := length_lt_of_not_full hfull
  refine ⟨h.toTrie.allocInto hslot hnil hfull hn hleaf, fun g hg => ?_⟩
  rcases isInternal_allocInto (by omega) hg with hold | ⟨rfl, w, l, r, he⟩
  · obtain ⟨w, l, r, hnode⟩ := (isInternal_iff _ _).mp hold
    rw [withNewAddr_old _ _ (by omega) (nodeAt_lt hnode)]
    exact (h.goesOn g hold).allocInto slot n
  · rw [withNewAddr_new]
    exact (hinternal w l r he).allocInto slot n

end Slot

theorem HasLeaf.of_allocInto {x : Byte} {s : State} {slot : Slot} {n : Node} (hlen : s.nodes.length < 512)
    (h : HasLeaf x (Machine.allocInto slot n s)) : HasLeaf x s ∨ ∃ w, n = .leaf x w := by
  obtain ⟨g, w, hg⟩ := h
  rw [nodeAt_allocInto_leaf_iff] at hg
  rcases lt_or_eq_nextHandle hlen (nodeAt_lt hg) with hold | rfl
  · rw [nodeAt_append hold] at hg
    exact .inl ⟨g, w, hg⟩
  · rw [nodeAt_new n hlen] at hg
    exact .inr ⟨w, Option.some.inj hg⟩

/-- What a table must be for `RECON` not to fault (R246). -/
structure Fits (s : State) : Prop where
  prefixFree : PrefixFree s
  size : trieSize s ≤ Config.nodeCap

theorem codeOf_of_table {s t : State} (e : t.table = s.table) (x : Byte) : codeOf t x = codeOf s x := by
  rw [codeOf, codeOf, e]

/-- Only the table matters. -/
theorem Fits.congr {s t : State} (h : Fits s) (e : t.table = s.table) : Fits t := by
  have hcodes : codesInOrder t = codesInOrder s := by simp only [codesInOrder, funext (codeOf_of_table e)]
  exact ⟨by rw [PrefixFree, hcodes]; exact h.prefixFree, by rw [trieSize, hcodes]; exact h.size⟩

theorem Fits.allocInto {s : State} (h : Fits s) (slot : Slot) (n : Node) : Fits (Machine.allocInto slot n s) :=
  h.congr (by rw [allocInto_frame])

section Place
variable {x : Byte} {b : Bool} {c : BitSeq} {slot : Slot} {addr : Handle → BitSeq} {s : State}

/-- A new symbol's code ends on no node: a leaf there would have the same code, and from an `Internal` a longer one goes
on. -/
theorem CodeTrie.slotVal_eq_nil (h : CodeTrie addr s) (hfree : PrefixFree s)
    (hc : codeOf s x = some (slotAddr addr slot)) (hnew : ¬ HasLeaf x s) : slotVal slot s = Config.nil := by
  by_contra hne
  have haddr := h.addr_slotVal slot hne
  obtain ⟨n, hn⟩ := exists_nodeAt (h.slotVal hne)
  cases n with
  | leaf y w =>
    have hy := h.codeOf_leaf _ y w hn
    rw [haddr] at hy
    have hxy : x ≠ y := by
      rintro rfl
      exact hnew ⟨_, w, hn⟩
    exact hfree.not_prefix hc hy hxy List.prefix_rfl
  | internal w l r =>
    obtain ⟨y, d, t, hd, hp⟩ := h.goesOn _ ((isInternal_iff _ _).mpr ⟨w, l, r, hn⟩)
    rw [haddr] at hp
    have hxy : x ≠ y := by
      rintro rfl
      obtain rfl := Option.some.inj (hc.symm.trans hd)
      simpa using hp.length_le
    exact hfree.not_prefix hc hd hxy ((List.prefix_append _ _).trans hp)

/-- A new symbol's code meets no leaf before its end: the leaf's code would begin it. -/
theorem CodeTrie.slotVal_isInternal (h : CodeTrie addr s) (hfree : PrefixFree s)
    (hc : codeOf s x = some (slotAddr addr slot ++ b :: c)) (hnew : ¬ HasLeaf x s) (hne : slotVal slot s ≠ Config.nil) :
    ∃ w l r, nodeAt s.nodes (slotVal slot s) = some (.internal w l r) := by
  obtain ⟨n, hn⟩ := exists_nodeAt (h.slotVal hne)
  cases n with
  | leaf y w =>
    have hy := h.codeOf_leaf _ y w hn
    rw [h.addr_slotVal slot hne] at hy
    have hyx : y ≠ x := by
      rintro rfl
      exact hnew ⟨_, w, hn⟩
    exact absurd (List.prefix_append _ _) (hfree.not_prefix hy hc hyx)
  | internal w l r => exact ⟨w, l, r, hn⟩

/-- A new symbol is placed at its code, and no other symbol gains a leaf (R245). -/
theorem CodeTrie.place_completes (h : CodeTrie addr s) (hfits : Fits s) (hslot : SlotWritable s slot)
    (hc : codeOf s x = some (slotAddr addr slot ++ c)) (hnew : ¬ HasLeaf x s) :
    ∃ t addr', place x c slot s = .go t ∧ CodeTrie addr' t ∧ ∀ y, HasLeaf y t → y = x ∨ HasLeaf y s := by
  induction c generalizing slot addr s with
  | nil =>
    rw [List.append_nil] at hc
    have hempty := h.slotVal_eq_nil hfits.prefixFree hc hnew
    have hfull := h.not_full hfits.size hslot.allocated hempty (mem_codeBeginnings hc List.prefix_rfl)
    have hlt := length_lt_of_not_full hfull
    refine ⟨Machine.allocInto slot (.leaf x 0#32) s, _, ?_, h.allocInto hslot hempty hfull (by simp)
      (fun y w hy => ?_) nofun, fun y hy => ?_⟩
    · rw [place, if_neg (not_not.mpr hempty), if_neg hfull]
    · cases hy
      exact hc
    · rcases HasLeaf.of_allocInto (by omega) hy with hold | ⟨w, hw⟩
      · exact .inr hold
      · cases hw
        exact .inl rfl
  | cons b c ih =>
    have hassoc : ∀ a : BitSeq, a ++ b :: c = a ++ [b] ++ c := fun a => by simp
    by_cases hempty : slotVal slot s = Config.nil
    · have hfull := h.not_full hfits.size hslot.allocated hempty (mem_codeBeginnings hc (List.prefix_append _ _))
      have hlt := length_lt_of_not_full hfull
      have hslot' : SlotWritable (Machine.allocInto slot (.internal 0#32 Config.nil Config.nil) s)
          (.child (nextHandle s.nodes) b) :=
        (isInternal_iff _ _).mpr ⟨_, _, _, nodeAt_allocInto_new hslot.allocated (by omega)⟩
      have hgoes : CodeGoesOn s (slotAddr addr slot) :=
        ⟨x, _, b, hc, (hassoc (slotAddr addr slot)).symm ▸ List.prefix_append _ _⟩
      have h' := h.allocInto hslot hempty hfull (n := .internal 0#32 Config.nil Config.nil) (by simp) nofun
        fun _ _ _ _ => hgoes
      have hback : ∀ y, HasLeaf y (Machine.allocInto slot (.internal 0#32 Config.nil Config.nil) s) → HasLeaf y s :=
        fun y hy => (HasLeaf.of_allocInto (by omega) hy).resolve_right nofun
      obtain ⟨t, addr', hrun, htrie, hleaves⟩ := ih h' (hfits.allocInto _ _) hslot'
        (by rw [codeOf_allocInto, hc, slotAddr, withNewAddr_new, hassoc]) (mt (hback x) hnew)
      refine ⟨t, addr', ?_, htrie, fun y hy => (hleaves y hy).imp_right (hback y)⟩
      rw [place, if_pos hempty, if_neg hfull, hrun]
    · obtain ⟨w, l, r, hn⟩ := h.slotVal_isInternal hfits.prefixFree hc hnew hempty
      obtain ⟨t, addr', hrun, hrest⟩ := ih (slot := .child (slotVal slot s) b) h hfits
        ((isInternal_iff _ _).mpr ⟨w, l, r, hn⟩)
        (by rw [hc, slotAddr, h.addr_slotVal slot hempty, hassoc]) hnew
      refine ⟨t, addr', ?_, hrest⟩
      rw [place, if_neg hempty, hn]
      exact hrun

end Place

/-- The symbol loop, over symbols that have no leaf yet, comes to its end (R245). -/
theorem CodeTrie.placeSyms_completes {xs : List Byte} {addr : Handle → BitSeq} {s : State} (h : CodeTrie addr s)
    (hfits : Fits s) (hnd : xs.Nodup) (hnew : ∀ x ∈ xs, ¬ HasLeaf x s) : ∃ t, placeSyms xs s = .go t := by
  induction xs generalizing addr s with
  | nil => exact ⟨s, rfl⟩
  | cons x xs ih =>
    obtain ⟨hx, hnd⟩ := List.nodup_cons.mp hnd
    obtain ⟨hnewx, hnew⟩ := List.forall_mem_cons.mp hnew
    have hplace : ∃ u addr', placeSym x s = .go u ∧ CodeTrie addr' u ∧ ∀ y, HasLeaf y u → y = x ∨ HasLeaf y s := by
      unfold placeSym
      split
      · exact ⟨s, addr, rfl, h, fun y hy => .inr hy⟩
      · rename_i c hc
        exact h.place_completes (slot := .root) hfits trivial hc hnewx
    obtain ⟨u, addr', hu, htrie, hleaves⟩ := hplace
    obtain ⟨t, ht⟩ := ih htrie (hfits.congr (by rw [placeSym_go hu])) hnd fun y hy hleaf =>
      (hleaves y hleaf).elim (fun e => hx (e ▸ hy)) (hnew y hy)
    exact ⟨t, by rw [placeSyms, hu, bind_go, ht]⟩

/-- `RECON` does not fault on a `PrefixFree` table whose tree fits the arena (R246). -/
theorem exec_recon_completes {s : State} (hm : s.mode = .idle) (htabv : s.tabv = true) (hfits : Fits s) :
    ∃ t, exec .recon s = .next t ∧ t.mode ≠ .fault := by
  have htrie : CodeTrie (fun _ => []) { s with treev := false, nodes := [], root := Config.nil } := by
    refine ⟨trie_of_empty (by simp [hm]) rfl rfl, fun g hg => ?_⟩
    obtain ⟨w, l, r, hn⟩ := (isInternal_iff _ _).mp hg
    cases hn
  obtain ⟨u, hu⟩ := htrie.placeSyms_completes (hfits.congr rfl) nodup_allSyms fun x _ ⟨g, w, hg⟩ => by cases hg
  refine ⟨{ u with treev := true }, ?_, ?_⟩
  · rw [exec_accepted (i := .recon) nofun (by simp [hm]) ⟨hm, htabv⟩, bodyOf, reconTree, hu]
    rfl
  · rw [(placeSyms_go hu).1]
    simp [hm]

end Sys2Proof.Machine
end

section
/-! SUPPORT. Compression and decompression (R294, R295): the table that `COUNT`, `BUILD` and `GENTAB` make of a
sequence, and what a header and a bitstream written with such a table decompress to. -/

namespace Sys2Proof.Machine

theorem execAll_append_of_next {is : List Instr} {s t : State} (h : execAll is s = .next t) (js : List Instr) :
    execAll (is ++ js) s = execAll js t := by
  induction is generalizing s with
  | nil =>
    cases h
    rfl
  | cons i is ih =>
    rw [execAll] at h
    cases hi : exec i s with
    | next u =>
      rw [hi] at h
      rw [List.cons_append, execAll_cons_of_next hi, ih h]
    | fault f =>
      rw [hi] at h
      cases h
    | refused r =>
      rw [hi] at h
      cases h

/-! ### The table of a sequence -/

/-- The counts of all symbols add up to the length (R153, R162). -/
theorem freqTotal_eq_length {s : State} {xs : List Byte} (h : ∀ x, (freqOf s x).toNat = xs.count x) :
    freqTotal s = xs.length := by
  have hsum := Multiset.sum_count_eq_card (s := allSyms.toFinset) (m := (xs : Multiset Byte)) fun x _ =>
    List.mem_toFinset.mpr (mem_allSyms x)
  rw [List.sum_toFinset _ nodup_allSyms] at hsum
  simpa only [freqTotal, h, Multiset.coe_count, Multiset.coe_card] using hsum

/-- Codes that are paths in one arena, where no node has two paths, have no more beginnings than it has nodes. -/
theorem trieSize_le_of_paths {s : State} {nodes : List Node} {root : Handle}
    (hpaths : ∀ x c, codeOf s x = some c → ∃ h, descend nodes root c = some h)
    (honce : ∀ p q h, descend nodes root p = some h → descend nodes root q = some h → p = q) :
    trieSize s ≤ nodes.length := by
  rw [trieSize, ← List.card_toFinset, ← Finset.card_range nodes.length]
  refine Finset.card_le_card_of_forall_subsingleton
    (fun p i => ∃ h, descend nodes root p = some h ∧ h.toNat = i) (fun p hp => ?_) fun i _ p hp q hq => ?_
  · obtain ⟨c, hc, hpc⟩ := List.mem_flatMap.mp (List.mem_toFinset.mp hp)
    obtain ⟨x, -, hx⟩ := List.mem_filterMap.mp hc
    obtain ⟨q, rfl⟩ := (List.mem_inits _ _).mp hpc
    obtain ⟨g, hg⟩ := hpaths x _ hx
    rw [descend_append] at hg
    obtain ⟨f, hf, -⟩ := Option.bind_eq_some_iff.mp hg
    exact ⟨f.toNat, Finset.mem_range.mpr (descend_allocated hf).2, f, hf, rfl⟩
  · obtain ⟨-, f, hf, hfi⟩ := hp
    obtain ⟨-, g, hg, hgi⟩ := hq
    obtain rfl : f = g := BitVec.eq_of_toNat_eq (hfi.trans hgi.symm)
    exact honce p q f hf hg

theorem exec_lengthsOk {i : Instr} {s t : State} (hs : LengthsOk s) (h : exec i s = .next t) : LengthsOk t :=
  exec_keeps (fun _ => lengthsOk_of_empty rfl rfl) (fun _ c sub info hu => hu.raised c sub info) bodyOf_lengthsOk hs h

/-- An idle state with a canonical table from which `xs` can be encoded, and which `RECON` can rebuild. -/
structure Coded (xs : List Byte) (s : State) : Prop where
  mode : s.mode = .idle
  tabv : s.tabv = true
  wf : Memory.wf s.table = true
  short : CodesShort s
  nent : s.nent.toNat = s.table.length
  fits : Fits s
  nsym : xs.length = s.nsym.toNat
  codes : ∀ x ∈ xs, codeOf s x ≠ none

/-- `BUILD` and `GENTAB` make such a table from the counts of a sequence. -/
theorem exists_coded {s : State} {xs : List Byte} (hm : s.mode = .idle) (hlengths : LengthsOk s)
    (hcounts : ∀ x, (freqOf s x).toNat = xs.count x) (hlen : xs.length < 2 ^ 32) :
    ∃ t, execAll [.build, .gentab] s = .next t ∧ t.out = s.out ∧ Coded xs t := by
  have htotal := freqTotal_eq_length hcounts
  have hT : freqTotal s ≤ Config.cmax := by
    rw [htotal]
    exact Nat.le_of_lt_succ hlen
  have hbuild := exec_build_fits hm hT
  obtain ⟨cs, hcs⟩ := exists_treeCodes (treeOk_afterBuild (by simp [hm]) hT)
  have hgentab := exec_gentab (s := afterBuild s) hm rfl hcs
  have hframe := afterGentab_frame cs (afterBuild s)
  have hone : OneLeafPerSymbol (afterBuild s).nodes (afterBuild s).root := oneLeafPerSymbol_merged hT
  have hwf := wf_afterGentab cs (afterBuild s)
  refine ⟨afterGentab cs (afterBuild s), ?run, by rw [hframe]; rfl, by rw [hframe]; exact hm, rfl, hwf,
    (exec_lengthsOk (exec_lengthsOk hlengths hbuild) hgentab).1, ?nent, ⟨prefixFree_afterGentab hcs, ?size⟩, ?nsym,
    fun x hx => ?codes⟩
  case run => rw [execAll_cons_of_next hbuild, execAll_cons_of_next hgentab, execAll]
  case nent =>
    have hle := length_tableEntries_le (afterGentab cs (afterBuild s))
    rw [length_tableEntries hwf, Config.nsyms] at hle
    rw [hone.nent_eq_entries hcs, BitVec.toNat_ofNat]
    omega
  case size =>
    refine (trieSize_le_of_paths (fun x c hc => ?_) fun p q h hp hq => merged_once s hp hq).trans (length_merged s)
    obtain ⟨w, hw⟩ := follow_of_codeOf_afterGentab hcs hc
    obtain ⟨h, hh, -⟩ := Option.bind_eq_some_iff.mp hw
    exact ⟨h, hh⟩
  case nsym =>
    rw [hframe]
    change xs.length = (BitVec.ofNat 32 (freqTotal s)).toNat
    rw [htotal, BitVec.toNat_ofNat, Nat.mod_eq_of_lt hlen]
  case codes =>
    refine (codeOf_afterGentab_ne_none_iff_leaf hcs x).mpr ((merged_leaf_iff hT x).mpr fun h0 => ?_)
    have hpos := List.count_pos_iff.mpr hx
    rw [← hcounts, h0] at hpos
    exact Nat.lt_irrefl _ hpos

/-- `COUNT` over the sequence, `BUILD` and `GENTAB`, from reset. -/
theorem execAll_analyse {xs : List Byte} (hlen : xs.length < 2 ^ 32) :
    ∃ t, execAll (xs.map .count ++ [.build, .gentab]) State.reset = .next t ∧ t.out = [] ∧ Coded xs t := by
  obtain ⟨hcompletes, hadds⟩ := countsAddUp xs State.reset rfl fun _ => rfl
  obtain ⟨c, hrun, hc⟩ := hcompletes hlen
  have hm : c.mode = .idle := by rw [hc]; rfl
  have hlengths : LengthsOk c := lengthsOk_of_empty (by rw [hc]; rfl) (by rw [hc]; rfl)
  obtain ⟨t, hrun', hout, hcoded⟩ :=
    exists_coded hm hlengths (fun x => (hadds c hrun (by simp [hm]) x).1) hlen
  exact ⟨t, (execAll_append_of_next hrun _).trans hrun', by rw [hout, hc]; rfl, hcoded⟩

/-! ### The two sequences -/

theorem exec_ser {s : State} (hm : s.mode = .idle) (htabv : s.tabv = true) :
    exec .ser s = .next (emitAll (headerBytes s) s) :=
  exec_accepted (i := .ser) nofun (by simp [hm]) ⟨hm, htabv⟩

/-- The compression sequence of `xs` emits the header and the packed codes of a table of `xs` (R294). -/
theorem execAll_compress {xs : List Byte} (hlen : xs.length < 2 ^ 32) :
    ∃ t g, execAll (compressCommands xs) State.reset = .next t ∧ t.mode = .idle ∧ Coded xs g ∧
      t.out = headerBytes g ++ pack (codesOf g xs) := by
  obtain ⟨g, hrun, hout, hg⟩ := execAll_analyse hlen
  have hcode : ∀ x, codeOf (emitAll (headerBytes g) g) x = codeOf g x := codeOf_of_table (emitAll_table _ g)
  have hm : (emitAll (headerBytes g) g).mode = .idle := (emitAll_mode _ g).trans hg.mode
  have hcommands : compressCommands xs =
      (xs.map .count ++ [.build, .gentab]) ++ (.ser :: .encstart :: (xs.map .enc ++ [.encend])) := by
    simp [compressCommands]
  have hnsym : xs.length = (emitAll (headerBytes g) g).nsym.toNat := by rw [emitAll_nsym, hg.nsym]
  have hsession := execAll_session hm ((emitAll_tabv _ g).trans hg.tabv) (by simpa only [hcode] using hg.codes) hnsym
  refine ⟨afterSession xs (emitAll (headerBytes g) g), g, ?_, ?_, hg, ?_⟩
  · rw [hcommands, execAll_append_of_next hrun, execAll_cons_of_next (exec_ser hg.mode hg.tabv), hsession]
  · rw [afterSession_frame hm hnsym]
    exact hm
  · have hcodes : codesOf (emitAll (headerBytes g) g) xs = codesOf g xs := by simp only [codesOf, hcode]
    rw [afterSession_out, emitAll_out, hout, hcodes, List.nil_append]

/-- The decompression sequence over the header and the packed codes of a table of `xs` emits `xs` (R295). -/
theorem execAll_decompress {xs : List Byte} {g b : State} (hg : Coded xs g) (hb : b.mode = .idle) :
    ∃ u, execAll (decompressCommands (headerBytes g) (pack (codesOf g xs))) b = .next u ∧ u.mode = .idle ∧
      u.out = b.out ++ xs := by
  have hcommands : decompressCommands (headerBytes g) (pack (codesOf g xs)) =
      (.tabstart :: (headerBytes g).map .tabb) ++ .recon :: sessionCommands (codesOf g xs) := by
    simp [decompressCommands, sessionCommands]
  obtain ⟨p, hparse, hp⟩ := execAll_header hb hg.wf hg.short hg.nent
  have hmode : p.mode = .idle := by rw [hp]
  have htabv : p.tabv = true := by rw [hp]
  have htable : p.table = g.table := by rw [hp]
  have hnsym : p.nsym = g.nsym := by rw [hp]
  have hout : p.out = b.out := by rw [hp]; rfl
  obtain ⟨t, hrecon, ht⟩ := exec_recon_completes hmode htabv (hg.fits.congr htable)
  obtain ⟨nodes, root, addr, rfl, htrie, hleaf⟩ := exec_recon_go hmode htabv hrecon ht
  have hcode : ∀ x, codeOf { p with nodes := nodes, root := root, treev := true } x = codeOf g x :=
    codeOf_of_table htable
  have hpaths : PathsTo { p with nodes := nodes, root := root, treev := true } (fun x => (codeOf g x).getD []) xs := by
    intro x hx
    obtain ⟨q, w, hq⟩ := htrie.follow_of_hasLeaf (hleaf x (by rw [hcode]; exact hg.codes x hx))
    have hxq := htrie.codeOf_of_follow hq
    rw [hcode] at hxq
    refine ⟨w, ?_⟩
    dsimp only
    rwa [hxq]
  obtain ⟨u, hsession, hu, hemits⟩ := sessionEmits (s := { p with nodes := nodes, root := root, treev := true })
    hmode rfl (by rw [hg.nsym, ← hnsym]) hpaths
  refine ⟨u, ?_, ?_, hemits.trans (congrArg (· ++ xs) hout)⟩
  · rw [hcommands, execAll_append_of_next hparse, execAll_cons_of_next hrecon]
    exact hsession
  · rw [hu]
    exact hmode

end Sys2Proof.Machine
end

section
/-! PROOFS. The round trip (R220, R294, R295). -/

namespace Sys2Proof.Machine

/-- Settles O35: the compressor emits the header and the packed codes of a table of the sequence, and these decompress
to the sequence. -/
theorem decompressInvertsCompress : Obligations.DecompressInvertsCompress := by
  unfold Obligations.DecompressInvertsCompress
  intro xs hlen
  obtain ⟨t, g, hcompress, htmode, hg, htout⟩ := execAll_compress hlen
  obtain ⟨u, hdecompress, humode, huout⟩ := execAll_decompress hg (b := State.reset) rfl
  exact ⟨t, headerBytes g, pack (codesOf g xs), u, hcompress, htmode, htout, hdecompress, humode, huout⟩

end Sys2Proof.Machine
end

section
/-! SUPPORT. The header as bytes of numbers (R69, R231), and what the commands of the serializer and the deserializer do
when accepted (R231 to R240). -/

namespace Sys2Proof.Machine

/-! ### The header (R71, R231) -/

theorem nentBytes_eq (n : BitVec 9) :
    nentBytes n = [BitVec.ofNat 8 (n.toNat / 256), BitVec.ofNat 8 (n.toNat % 256)] := by
  have hhigh : n.toNat / 256 < 2 := by omega
  simp [nentBytes, ← BitVec.toNat_inj, Nat.shiftRight_eq_div_pow, Nat.mod_eq_of_lt hhigh]

theorem nsymBytes_eq (n : Word) :
    nsymBytes n = [BitVec.ofNat 8 (n.toNat / 2 ^ 24), BitVec.ofNat 8 (n.toNat / 2 ^ 16 % 256),
      BitVec.ofNat 8 (n.toNat / 2 ^ 8 % 256), BitVec.ofNat 8 (n.toNat % 256)] := by
  simp [nsymBytes, ← BitVec.toNat_inj, Nat.shiftRight_eq_div_pow]

/-- The entries take "`sum over entries of (2 + ceil(CLEN[s] / 8))` bytes" (R231). -/
theorem length_entries (s : State) :
    (allSyms.flatMap (entryOf s)).length = ((codesInOrder s).map fun c => 2 + (c.length + 7) / 8).sum := by
  unfold codesInOrder
  generalize allSyms = xs
  induction xs with
  | nil => rfl
  | cons x xs ih =>
    rw [List.flatMap_cons, List.length_append, ih]
    cases hx : codeOf s x with
    | none => simp [entryOf, hx]
    | some c =>
      simp [entryOf, hx, entryBytes, byteCount]
      omega

/-! ### `TABSTART` and `TABEND` (R235, R240) -/

theorem exec_tabstart {s : State} (hm : s.mode = .idle) : exec .tabstart s = .next (startTable s) :=
  exec_accepted (i := .tabstart) nofun (by simp [hm]) hm

theorem exec_tabend {s : State} (hm : s.mode = .loadtab) :
    exec .tabend s = .next (faulted .malformedTable 3#4 (s.pst.code.zeroExtend 32) s) :=
  exec_accepted (i := .tabend) nofun (by simp [hm]) hm

theorem parserState_code_eq (p : ParserState) : p.code.zeroExtend 32 = BitVec.ofNat 32 (parserNumber p) := by
  cases p <;> rfl

/-! ### `TABB` (R236) -/

theorem exec_tabb {b : Byte} {s : State} (hm : s.mode = .loadtab) : exec (.tabb b) s = (parseByte b s).finish :=
  exec_accepted (i := .tabb b) nofun (by simp [hm]) hm

/-- A byte that the parser takes. -/
theorem exec_tabb_of_go {b : Byte} {s t : State} (hm : s.mode = .loadtab) (h : parseByte b s = .go t) :
    exec (.tabb b) s = .next t := by
  rw [exec_tabb hm, h, finish_go]

/-- A byte that the parser faults on. -/
theorem exec_tabb_of_raised {b : Byte} {s t : State} (hm : s.mode = .loadtab) (h : parseByte b s = .raised t) :
    exec (.tabb b) s = .next t := by
  rw [exec_tabb hm, h, finish_raised]

theorem fieldSoFar_setWidth_nent (s : State) (b : Byte) :
    (fieldSoFar s b).setWidth 9 = BitVec.ofNat 9 (s.ptmp.toNat * 256 + b.toNat) := by
  rw [fieldSoFar_eq, BitVec.setWidth_ofNat_of_le (by decide)]

/-- The next byte of a field joins `PTMP` (R236). -/
theorem pushField_eq (b : Byte) (s : State) :
    pushField b s = { s with ptmp := BitVec.ofNat 24 (s.ptmp.toNat * 256 + b.toNat) } := by
  have hfield : s.ptmp <<< 8 ||| b.zeroExtend 24 = (fieldSoFar s b).setWidth 24 := by
    ext i hi
    simp [fieldSoFar]
  rw [pushField, hfield, fieldSoFar_eq, BitVec.setWidth_ofNat_of_le (by decide)]

section Byte
variable {b : Byte} {s : State}

theorem parseByte_h1_tooMany (hp : s.pst = .h1) (hlt : Config.nsyms < (fieldSoFar s b).toNat) :
    parseByte b s = .raised (faulted .malformedTable 1#4 (fieldSoFar s b) s) := by
  rw [parseByte, hp]
  exact if_pos hlt

theorem parseByte_esym_taken (hp : s.pst = .esym) (hold : codeOf s b ≠ none) :
    parseByte b s = .raised (faulted .malformedTable 2#4 (b.zeroExtend 32) s) := by
  obtain ⟨c, hc⟩ := Option.ne_none_iff_exists'.mp hold
  rw [parseByte, hp]
  dsimp only
  rw [hc]
  rfl

end Byte

/-- `entry_done()` for the entry with length `len` and code bits `bits` (R236). -/
theorem entryCompleted_entryDone {s : State} (hm : s.mode = .loadtab) (len : Byte) (idx : BitVec 6) (bits : BitSeq) :
    EntryCompleted s (entryDone { s with plen := len, pidx := idx, pbits := bits }) len idx bits := by
  refine ⟨?code, fun y hy => ?others, ?frame, fun hlast => ?pst⟩
  case code => rw [codeOf_entryDone, if_pos rfl]
  case others => exact (codeOf_entryDone _ y).trans (if_neg hy)
  all_goals rw [entryDone_eq]
  case frame =>
    by_cases hlast : s.pcnt = 1#9
    · rw [nextEntry_done (by simp [hlast]), if_pos hlast, if_pos hlast, if_pos hlast]
      rfl
    · have hmore : s.pcnt - 1#9 ≠ 0#9 := by bv_omega
      rw [nextEntry_more hmore, if_neg hlast, if_neg hlast, if_neg hlast, ← hm]
      rfl
  case pst =>
    rw [nextEntry_done (by simp [hlast])]
    rfl

end Sys2Proof.Machine
end

section
/-! PROOFS. The serializer and the deserializer (R231 to R240). -/

namespace Sys2Proof.Machine

/-- Settles O23: the bytes `SER` appends are `headerBytes`, and `execAll_header` reads them back. -/
theorem headerRoundTripsTheTable : Obligations.HeaderRoundTripsTheTable := by
  unfold Obligations.HeaderRoundTripsTheTable
  intro a a' b header hm htabv hwf hshort hnent hser hout hb
  rw [exec_ser hm htabv] at hser
  cases hser
  rw [emitAll_out] at hout
  cases List.append_cancel_left hout
  exact execAll_header hb hwf hshort hnent

/-- Settles O19: accepted, `SER` emits `headerBytes`, whose counts are the bytes of two numbers and whose entries are
`entryOf` each symbol. -/
theorem serEmitsTheHeader : Obligations.SerEmitsTheHeader := by
  unfold Obligations.SerEmitsTheHeader
  refine ⟨rfl, fun s => ⟨fun hm htabv => ?_, failedRequireRaisesSequenceError .ser s⟩⟩
  refine ⟨_, exec_ser hm htabv, emitAll_frame _ s, allSyms.flatMap (entryOf s), ?_, rfl, length_entries s⟩
  rw [emitAll_out, headerBytes, nentBytes_eq, nsymBytes_eq]
  rfl

/-- Settles O20: accepted, `TABSTART` is `startTable`; else its requirement fails. -/
theorem tabstartOpensTheHeader : Obligations.TabstartOpensTheHeader := by
  unfold Obligations.TabstartOpensTheHeader
  exact ⟨rfl, fun s => ⟨exec_tabstart, fun hm hf => failedRequireRaisesSequenceError .tabstart s hf hm⟩⟩

/-- Settles O21: one lemma on `parseByte` for each parser state and each side of its condition. -/
theorem tabbParsesOneByte : Obligations.TabbParsesOneByte := by
  unfold Obligations.TabbParsesOneByte
  refine fun b s => ⟨encode_eq_or (.tabb b), fun hm hf => failedRequireRaisesSequenceError (.tabb b) s hf hm,
    fun hm => ⟨?h0, ?h1, ?h1TooMany, ?n0, ?n1, ?n2, ?n3, ?n3Empty, ?esym, ?esymTaken, ?elen, ?elenEmpty, ?ecode,
      ?ecodeLast⟩⟩
  case h0 => exact fun hp => exec_tabb_of_go hm (parseByte_h0 hp)
  case h1 =>
    intro hp hle
    rw [← fieldSoFar_setWidth_nent]
    exact exec_tabb_of_go hm (parseByte_h1 hp ((fieldSoFar_toNat s b).trans_le hle))
  case h1TooMany =>
    intro hp hlt
    rw [← fieldSoFar_eq]
    exact exec_tabb_of_raised hm (parseByte_h1_tooMany hp (hlt.trans_eq (fieldSoFar_toNat s b).symm))
  case n0 => exact fun hp => exec_tabb_of_go hm (parseByte_n0 hp)
  case n1 =>
    intro hp
    rw [exec_tabb_of_go hm (parseByte_n1 hp), pushField_eq]
  case n2 =>
    intro hp
    rw [exec_tabb_of_go hm (parseByte_n2 hp), pushField_eq]
  case n3 =>
    intro hp hne
    rw [exec_tabb_of_go hm (parseByte_n3 hp), nextEntry_more (by exact hne), fieldSoFar_eq]
  case n3Empty =>
    intro hp hzero
    rw [exec_tabb_of_go hm (parseByte_n3 hp), nextEntry_done (by exact hzero), fieldSoFar_eq]
    rfl
  case esym => exact fun hp hnew => exec_tabb_of_go hm (parseByte_esym hp hnew)
  case esymTaken => exact fun hp hold => exec_tabb_of_raised hm (parseByte_esym_taken hp hold)
  case elen => exact fun hp hb => exec_tabb_of_go hm (parseByte_elen hp hb)
  case elenEmpty =>
    rintro hp rfl
    exact ⟨_, exec_tabb_of_go hm (parseByte_elen_empty hp), entryCompleted_entryDone hm 0#8 0#6 []⟩
  case ecode => exact fun hp hmore => exec_tabb_of_go hm (parseByte_ecode_more hp hmore)
  case ecodeLast =>
    intro hp hlast
    exact ⟨_, exec_tabb_of_go hm (parseByte_ecode_last hp hlast), entryCompleted_entryDone hm s.plen _ _⟩

/-- Settles O22: accepted, `TABEND` raises whatever the parser state is; else its requirement fails. -/
theorem tabendReportsTruncation : Obligations.TabendReportsTruncation := by
  unfold Obligations.TabendReportsTruncation
  refine ⟨rfl, fun s => ⟨fun hm => ?_, fun hm hf => failedRequireRaisesSequenceError .tabend s hf hm⟩⟩
  rw [exec_tabend hm, parserState_code_eq]

end Sys2Proof.Machine
end

section
/-! SUPPORT. How `RECON` ends (R245, R246): with a tree of as many nodes of weight 0 as the table needs, or at a symbol
whose code clashes with one placed before or finds the arena full. -/

namespace Sys2Proof.Machine

/-! ### Only the table matters -/

theorem codesInOrder_congr {s t : State} (e : t.table = s.table) : codesInOrder t = codesInOrder s := by
  simp only [codesInOrder, funext (codeOf_of_table e)]

theorem prefixFree_congr {s t : State} (e : t.table = s.table) : PrefixFree t ↔ PrefixFree s := by
  rw [PrefixFree, PrefixFree, codesInOrder_congr e]

theorem trieSize_congr {s t : State} (e : t.table = s.table) : trieSize t = trieSize s := by
  rw [trieSize, trieSize, codesInOrder_congr e]

/-! ### A tree of codes, and what it says of the table -/

/-- Every node stands at a beginning of a code, no two at the same. -/
theorem CodeTrie.length_le_trieSize {addr : Handle → BitSeq} {s : State} (h : CodeTrie addr s) :
    s.nodes.length ≤ trieSize s := by
  have hle := Machine.length_le_trieSize h.nodup_nodeAddrs fun p hp => by
    obtain ⟨g, hg, rfl⟩ := h.mem_nodeAddrs hp
    exact h.addr_mem hg
  simpa [nodeAddrs] using hle

section Trie
variable {addr : Handle → BitSeq} {s : State}

/-- A symbol with a leaf has it at the end of its code. -/
theorem Trie.follow_code (h : Trie addr s) {x : Byte} {c : BitSeq} (hc : codeOf s x = some c) (hleaf : HasLeaf x s) :
    ∃ w, follow s.nodes s.root c = some (.leaf x w) := by
  obtain ⟨p, w, hp⟩ := h.follow_of_hasLeaf hleaf
  cases hc.symm.trans (h.codeOf_of_follow hp)
  exact ⟨w, hp⟩

/-- A tree with a leaf for each symbol of the table has room for every beginning of a code. -/
theorem Trie.trieSize_le (h : Trie addr s) (hleaf : ∀ x, codeOf s x ≠ none → HasLeaf x s) :
    trieSize s ≤ s.nodes.length := by
  refine trieSize_le_of_paths (root := s.root) (fun x c hc => ?_) fun p q g hp hq => ?_
  · obtain ⟨w, hw⟩ := h.follow_code hc (hleaf x (by simp [hc]))
    obtain ⟨g, hg, -⟩ := Option.bind_eq_some_iff.mp hw
    exact ⟨g, hg⟩
  · exact (h.addr_of_descend hp).symm.trans (h.addr_of_descend hq)

end Trie

/-! ### Weights -/

/-- A slot write changes no weight. -/
theorem weight_setChild (n : Node) (t : Bool) (h : Handle) : (n.setChild t h).weight = n.weight := by
  cases n with
  | leaf x w => rfl
  | internal w l r => cases t <;> rfl

theorem weightAt_allocInto (slot : Slot) (n : Node) (s : State) (h : Handle) :
    weightAt (allocInto slot n s).nodes h = weightAt (s.nodes ++ [n]) h := by
  cases slot with
  | root => rfl
  | child p b =>
    rw [weightAt, weightAt, nodeAt_allocInto_child]
    cases nodeAt (s.nodes ++ [n]) h with
    | none => rfl
    | some m =>
      by_cases hp : p = h
      · simp [hp, weight_setChild]
      · simp [hp]

/-- The tree while `RECON` builds it: one of codes, "weight 0" in every node (R245). -/
structure ReconTrie (addr : Handle → BitSeq) (s : State) : Prop extends CodeTrie addr s where
  weight : ∀ h, weightAt s.nodes h = 0#32

/-- A node of weight 0 joins nodes of weight 0. -/
theorem weightAt_append_zero {nodes : List Node} {n : Node} (hw : ∀ h, weightAt nodes h = 0#32)
    (hn : n.weight = 0#32) (h : Handle) : weightAt (nodes ++ [n]) h = 0#32 := by
  rw [weightAt, nodeAt, List.getElem?_append]
  split
  · rename_i m hm
    split at hm
    · rw [← hw h, weightAt, nodeAt, hm]
    · obtain rfl : n = m := List.mem_singleton.mp (List.mem_of_getElem? hm) |>.symm
      exact hn
  · rfl

/-- An allocation on the way of a code. -/
theorem ReconTrie.allocInto {addr : Handle → BitSeq} {s : State} {slot : Slot} (h : ReconTrie addr s)
    (hslot : SlotWritable s slot) (hnil : slotVal slot s = Config.nil) (hfull : ¬ arenaFull s.nodes = true) {n : Node}
    (hw : n.weight = 0#32) (hn : ∀ t, n.child t = Config.nil)
    (hleaf : ∀ x w, n = .leaf x w → codeOf s x = some (slotAddr addr slot))
    (hinternal : ∀ w l r, n = .internal w l r → CodeGoesOn s (slotAddr addr slot)) :
    ReconTrie (withNewAddr addr s.nodes (slotAddr addr slot)) (allocInto slot n s) :=
  ⟨h.toCodeTrie.allocInto hslot hnil hfull hn hleaf hinternal,
    fun g => (weightAt_allocInto slot n s g).trans (weightAt_append_zero h.weight hw g)⟩

/-! ### The symbol loop -/

/-- What the sub-cause of a corruption says of the table: 5 that its tree is too large for the arena, 3 and 4 that two codes
clash (R246). -/
def SubCauseOf (s : State) (sub : BitVec 4) : Prop :=
  (sub = 5#4 ∧ Config.nodeCap < trieSize s) ∨ ((sub = 3#4 ∨ sub = 4#4) ∧ ¬ PrefixFree s)

section SubCause
variable {s : State} {sub : BitVec 4}

theorem SubCauseOf.mem (h : SubCauseOf s sub) : sub = 3#4 ∨ sub = 4#4 ∨ sub = 5#4 := by
  rcases h with ⟨hsub, -⟩ | ⟨hsub, -⟩
  · exact .inr (.inr hsub)
  · exact hsub.imp_right .inl

theorem SubCauseOf.eq_five (h : SubCauseOf s sub) (hfree : PrefixFree s) : sub = 5#4 :=
  (h.resolve_right fun hclash => hclash.2 hfree).1

theorem SubCauseOf.ne_five (h : SubCauseOf s sub) (hsize : trieSize s ≤ Config.nodeCap) : sub ≠ 5#4 := by
  rcases h with ⟨-, hlarge⟩ | ⟨rfl | rfl, -⟩
  · exact absurd hsize (Nat.not_le.mpr hlarge)
  · decide
  · decide

theorem SubCauseOf.not_fits (h : SubCauseOf s sub) : ¬ (PrefixFree s ∧ trieSize s ≤ Config.nodeCap) :=
  fun ⟨hfree, hsize⟩ => h.ne_five hsize (h.eq_five hfree)

end SubCause

/-- How a part of `RECON` that places the symbols `xs`, started in `s`, may end: with the tree grown by leaves of `xs`
only, or with a fault that its table accounts for. -/
def Flow.Rebuilds (xs : List Byte) (s : State) : Flow → Prop
  | .go t => (∃ addr, ReconTrie addr t) ∧ ∀ y, HasLeaf y t → y ∈ xs ∨ HasLeaf y s
  | .raised t => SubCauseOf s t.errsub
  | .stuck _ => False

/-- A part that goes on from `u`, which has the table of `s` and at most leaves of `xs` more. -/
theorem Flow.Rebuilds.after {xs ys : List Byte} {s u : State} {r : Flow} (h : r.Rebuilds ys u) (hys : ys ⊆ xs)
    (htable : u.table = s.table) (hleaf : ∀ y, HasLeaf y u → y ∈ xs ∨ HasLeaf y s) : r.Rebuilds xs s := by
  cases r with
  | go t =>
    obtain ⟨htrie, hnew⟩ := h
    exact ⟨htrie, fun y hy => (hnew y hy).elim (fun hin => .inl (hys hin)) (hleaf y)⟩
  | raised t =>
    have hsub : SubCauseOf u t.errsub := h
    rwa [SubCauseOf, prefixFree_congr htable, trieSize_congr htable] at hsub
  | stuck f => exact h

section Place
variable {x : Byte} {b : Bool} {c : BitSeq} {slot : Slot} {addr : Handle → BitSeq} {s : State}

/-- A full arena with an empty slot on the way of a code is smaller than the tree (R246). -/
theorem CodeTrie.subCauseOf_full (h : CodeTrie addr s) (hslot : SlotWritable s slot)
    (hnil : slotVal slot s = Config.nil) (hc : codeOf s x = some (slotAddr addr slot ++ c))
    (hfull : arenaFull s.nodes = true) : SubCauseOf s 5#4 :=
  .inl ⟨rfl, Nat.lt_of_not_le fun hsize =>
    h.not_full hsize hslot.allocated hnil (mem_codeBeginnings hc (List.prefix_append _ _)) hfull⟩

/-- The leaf of a symbol is made in an empty slot at the end of its code (R245). -/
theorem ReconTrie.allocInto_leaf (h : ReconTrie addr s) (hslot : SlotWritable s slot)
    (hnil : slotVal slot s = Config.nil) (hfull : ¬ arenaFull s.nodes = true)
    (hc : codeOf s x = some (slotAddr addr slot)) :
    (Flow.go (Machine.allocInto slot (.leaf x 0#32) s)).Rebuilds [x] s := by
  have hlt := length_lt_of_not_full hfull
  refine ⟨⟨_, h.allocInto hslot hnil hfull rfl (by simp) (fun y w hy => ?_) nofun⟩, fun y hy => ?_⟩
  · cases hy
    exact hc
  · rcases HasLeaf.of_allocInto (by omega) hy with hold | ⟨w, hw⟩
    · exact .inr hold
    · cases hw
      exact .inl (List.mem_singleton.mpr rfl)

/-- An `Internal` is made in an empty slot on the way of a code, and the code goes on in its child field (R245). -/
theorem ReconTrie.allocInto_internal (h : ReconTrie addr s) (hslot : SlotWritable s slot)
    (hnil : slotVal slot s = Config.nil) (hfull : ¬ arenaFull s.nodes = true)
    (hc : codeOf s x = some (slotAddr addr slot ++ b :: c)) {u : State}
    (hu : u = Machine.allocInto slot (.internal 0#32 Config.nil Config.nil) s) :
    ReconTrie (withNewAddr addr s.nodes (slotAddr addr slot)) u ∧ SlotWritable u (.child (nextHandle s.nodes) b) ∧
      ∀ y, HasLeaf y u → HasLeaf y s := by
  subst hu
  have hlt := length_lt_of_not_full hfull
  rw [List.append_cons] at hc
  refine ⟨h.allocInto hslot hnil hfull rfl (by simp) nofun fun _ _ _ _ => ⟨x, _, b, hc, List.prefix_append _ _⟩, ?_,
    fun y hy => (HasLeaf.of_allocInto (by omega) hy).resolve_right nofun⟩
  exact (isInternal_iff _ _).mpr ⟨_, _, _, nodeAt_allocInto_new hslot.allocated (by omega)⟩

/-- Placing a new symbol at its code: it gains a leaf, and no other symbol does; or its code ends on a node or runs into
a leaf, and so clashes with another; or the arena is full, and so smaller than the tree (R245, R246). -/
theorem ReconTrie.place_rebuilds (h : ReconTrie addr s) (hslot : SlotWritable s slot)
    (hc : codeOf s x = some (slotAddr addr slot ++ c)) (hnew : ¬ HasLeaf x s) : (place x c slot s).Rebuilds [x] s := by
  induction c generalizing slot addr s with
  | nil =>
    have hend := hc
    rw [List.append_nil] at hend
    unfold place
    split
    · rename_i hne
      exact .inr ⟨.inr rfl, fun hfree => hne (h.slotVal_eq_nil hfree hend hnew)⟩
    · rename_i hnil
      split
      · rename_i hfull
        exact h.subCauseOf_full hslot (not_not.mp hnil) hc hfull
      · rename_i hfull
        exact h.allocInto_leaf hslot (not_not.mp hnil) hfull hend
  | cons b c ih =>
    unfold place
    split
    · rename_i hnil
      split
      · rename_i hfull
        exact h.subCauseOf_full hslot hnil hc hfull
      · rename_i hfull
        obtain ⟨h', hslot', hback⟩ := h.allocInto_internal hslot hnil hfull hc rfl
        have hrest := ih h' hslot' (by rw [codeOf_allocInto, hc, slotAddr, withNewAddr_new, List.append_cons])
          (mt (hback x) hnew)
        exact hrest.after (List.Subset.refl _) (by rw [allocInto_frame]) fun y hy => .inr (hback y hy)
    · rename_i hne
      obtain ⟨n, hn⟩ := exists_nodeAt (h.slotVal hne)
      rw [hn]
      cases n with
      | leaf y w =>
        refine .inr ⟨.inl rfl, fun hfree => ?_⟩
        obtain ⟨v, l, r, hi⟩ := h.slotVal_isInternal hfree hc hnew hne
        rw [hn] at hi
        cases hi
      | internal w l r =>
        exact ih (slot := .child (slotVal slot s) b) h ((isInternal_iff _ _).mpr ⟨w, l, r, hn⟩)
          (by rw [hc, slotAddr, h.addr_slotVal slot hne, List.append_cons]) hnew

end Place

/-- The symbol loop, over symbols that have no leaf yet (R245). -/
theorem ReconTrie.placeSyms_rebuilds {xs : List Byte} {addr : Handle → BitSeq} {s : State} (h : ReconTrie addr s)
    (hnd : xs.Nodup) (hnew : ∀ x ∈ xs, ¬ HasLeaf x s) : (placeSyms xs s).Rebuilds xs s := by
  induction xs generalizing addr s with
  | nil => exact ⟨⟨addr, h⟩, fun y hy => .inr hy⟩
  | cons x xs ih =>
    obtain ⟨hx, hnd⟩ := List.nodup_cons.mp hnd
    obtain ⟨hnewx, hnew⟩ := List.forall_mem_cons.mp hnew
    have hplace : (placeSym x s).Rebuilds [x] s := by
      unfold placeSym
      split
      · exact ⟨⟨addr, h⟩, fun y hy => .inr hy⟩
      · rename_i c hc
        exact h.place_rebuilds (slot := .root) trivial hc hnewx
    rw [placeSyms]
    cases hu : placeSym x s with
    | go u =>
      rw [hu] at hplace
      obtain ⟨⟨addr', htrie⟩, hleaf⟩ := hplace
      have hrest := ih htrie hnd fun y hy hyu =>
        (hleaf y hyu).elim (fun e => hx (List.mem_singleton.mp e ▸ hy)) (hnew y hy)
      exact hrest.after (List.subset_cons_self _ _) (by rw [placeSym_go hu]) fun y hy =>
        (hleaf y hy).imp_left fun e => List.mem_cons.mpr (.inl (List.mem_singleton.mp e))
    | raised u =>
      rw [hu] at hplace
      exact hplace
    | stuck f =>
      rw [hu] at hplace
      exact hplace

/-! ### The command -/

/-- What a `RECON` that completes leaves, and what it says of the table. -/
structure Rebuilt (s t : State) : Prop where
  frame : t = { s with nodes := t.nodes, root := t.root, treev := true }
  prefixFree : PrefixFree s
  length : t.nodes.length = trieSize s
  length_le : t.nodes.length ≤ Config.nodeCap
  leaf_iff : ∀ x p, codeOf s x = some p ↔ ∃ w, follow t.nodes t.root p = some (.leaf x w)
  weight : ∀ h, weightAt t.nodes h = 0#32

/-- What a `RECON` that faults leaves, and what it says of the table. -/
structure NotRebuilt (s t : State) : Prop where
  frame : t = { faulted .structuralCorruption t.errsub t.errinfo s with
    nodes := t.nodes, root := t.root, treev := false }
  subCause : SubCauseOf s t.errsub
  symbol : ∃ x : Byte, codeOf s x ≠ none ∧ t.errinfo = x.zeroExtend 32

theorem reconTrie_of_empty {s : State} (hm : s.mode ≠ .dec) (hnodes : s.nodes = []) (hroot : s.root = Config.nil) :
    ReconTrie (fun _ => []) s := by
  refine ⟨⟨trie_of_empty hm hnodes hroot, fun g hg => ?_⟩, fun g => by simp [weightAt, nodeAt, hnodes]⟩
  simp [isInternal, nodeAt, hnodes] at hg

/-- The tree after `RECON`'s loop, with the leaves it has made. -/
theorem rebuilt_of_trie {s u t : State} {addr addr' : Handle → BitSeq} (htrie : Trie addr t)
    (hleaf : ∀ x, codeOf t x ≠ none → HasLeaf x t) (hu : ReconTrie addr' u) (hnodes : u.nodes = t.nodes)
    (htable : u.table = s.table) (hframe : t = { s with nodes := t.nodes, root := t.root, treev := true }) :
    Rebuilt s t := by
  have hst : t.table = s.table := by rw [hframe]
  have hcode := codeOf_of_table hst
  refine ⟨hframe, ?_, ?_, htrie.length_le, fun x p => ?_, hnodes ▸ hu.weight⟩
  · exact (prefixFree_congr hst).mp (prefixFree_of_paths fun x c hc => htrie.follow_code hc (hleaf x (by simp [hc])))
  · refine le_antisymm ?_ ((trieSize_congr hst).symm.trans_le (htrie.trieSize_le hleaf))
    rw [← hnodes, ← trieSize_congr htable]
    exact hu.length_le_trieSize
  · rw [← hcode]
    exact ⟨fun hc => htrie.follow_code hc (hleaf x (by simp [hc])), fun ⟨w, hw⟩ => htrie.codeOf_of_follow hw⟩

/-- Accepted, `RECON` rebuilds the tree or faults, never is stuck (R245). -/
theorem exec_recon_cases {s : State} (hm : s.mode = .idle) (htabv : s.tabv = true) :
    ∃ t, exec .recon s = .next t ∧ (Rebuilt s t ∨ NotRebuilt s t) := by
  have hexec : exec .recon s = (reconTree s).finish := exec_accepted (i := .recon) nofun (by simp [hm]) ⟨hm, htabv⟩
  have hloop := (reconTrie_of_empty (s := { s with treev := false, nodes := [], root := Config.nil }) (by simp [hm])
    rfl rfl).placeSyms_rebuilds nodup_allSyms fun x _ ⟨g, w, hg⟩ => by cases hg
  rw [reconTree] at hexec
  cases hu : placeSyms allSyms { s with treev := false, nodes := [], root := Config.nil } with
  | go u =>
    rw [hu] at hexec hloop
    obtain ⟨⟨addr', hreb⟩, -⟩ := hloop
    have hmode : u.mode ≠ .fault := by
      rw [(placeSyms_go hu).1]
      simp [hm]
    obtain ⟨nodes, root, addr, hframe, htrie, hleaf⟩ := exec_recon_go hm htabv hexec hmode
    have hframe' : { u with treev := true } = { s with nodes := u.nodes, root := u.root, treev := true } := by
      rw [(placeSyms_go hu).1]
    exact ⟨_, hexec, .inl (rebuilt_of_trie htrie hleaf hreb rfl (by rw [(placeSyms_go hu).1]) hframe')⟩
  | raised u =>
    rw [hu] at hexec hloop
    obtain ⟨x, hx, sub, -, hframe⟩ := placeSyms_raised hu
    refine ⟨u, hexec, .inr ⟨?_, hloop, x, hx, by rw [hframe]; rfl⟩⟩
    rw [hframe]
    rfl
  | stuck f =>
    rw [hu] at hloop
    exact hloop.elim

end Sys2Proof.Machine
end

section
/-! PROOFS. The tree reconstructor (R245, R246). -/

namespace Sys2Proof.Machine

/-- Settles O24: the tree `RECON` completes with shows that the codes fit, and each sub-cause of its faults that they do
not. -/
theorem reconRebuildsTheTree : Obligations.ReconRebuildsTheTree := by
  unfold Obligations.ReconRebuildsTheTree
  intro s hm htabv
  obtain ⟨t, hexec, hgo | hraised⟩ := exec_recon_cases hm htabv
  · have hfits : PrefixFree s ∧ trieSize s ≤ 511 := ⟨hgo.prefixFree, hgo.length.symm.trans_le hgo.length_le⟩
    exact ⟨fun _ _ => ⟨t, hexec, hgo.frame, hgo.length, hgo.leaf_iff, hgo.weight⟩, absurd hfits⟩
  · have hsub := hraised.subCause
    exact ⟨fun hfree hsize => absurd ⟨hfree, hsize⟩ hsub.not_fits,
      fun _ => ⟨t, hexec, hraised.frame, hsub.mem, hsub.eq_five, hsub.ne_five, hraised.symbol⟩⟩

end Sys2Proof.Machine
end

section
/-! TESTS. A `PrefixFree` table whose tree does not fit the arena (V-REC10), for the clause of O24 on sub-cause 5. -/

namespace Sys2Proof.Tests

open Sys2Proof.Machine

/-- The three entries of V-REC10. -/
def overfull : State :=
  { headered with
    table := [(0x01, List.replicate 255 false), (0x02, [false, true] ++ List.replicate 253 false),
      (0x03, [true, false] ++ List.replicate 253 false)] }

/-- Beginnings of these codes, 516 of them: those of 2 to 173 bits, the shortest first. -/
def overfullBeginnings : List BitSeq :=
  (List.range 172).flatMap fun n => overfull.table.map fun e => e.2.take (n + 2)

/-- A bit sequence as the binary number with these bits after a leading 1. -/
def bitsNumber (p : BitSeq) : Nat := p.foldl (fun v b => 2 * v + b.toNat) 1

/-- No two are the same: their numbers rise. -/
theorem nodup_overfullBeginnings : overfullBeginnings.Nodup := by
  have hrise : (overfullBeginnings.map bitsNumber).IsChain (· < ·) := by decide +kernel
  exact .of_map bitsNumber (hrise.pairwise.imp Nat.ne_of_lt)

theorem witness_ReconRebuildsTheTree_full :
    overfull.mode = .idle ∧ overfull.tabv = true ∧ PrefixFree overfull ∧ ¬ trieSize overfull ≤ 511 := by
  have hcodes : codesInOrder overfull = overfull.table.map Prod.snd := by decide +kernel
  have hlength : overfullBeginnings.length = 516 := by decide +kernel
  have hle := length_le_trieSize nodup_overfullBeginnings fun p hp => by
    obtain ⟨n, -, hn⟩ := List.mem_flatMap.mp hp
    obtain ⟨e, he, rfl⟩ := List.mem_map.mp hn
    obtain ⟨x, -, hx⟩ := List.mem_filterMap.mp (hcodes ▸ List.mem_map_of_mem he : e.2 ∈ codesInOrder overfull)
    exact mem_codeBeginnings hx (List.take_prefix _ _)
  exact ⟨rfl, rfl, by rw [PrefixFree, hcodes]; decide +kernel, by omega⟩

end Sys2Proof.Tests
end

section
/-! SUPPORT. The faults of each pseudocode (R262, R263), and which of them leave nothing but the record (R267). -/

namespace Sys2Proof.Machine

/-- No pseudocode that runs to its end stops in `FAULT` (R266). -/
theorem Effect.mode_ne_fault {i : Instr} {s t : State} (h : Effect i s t) (hm : s.mode ≠ .fault) : t.mode ≠ .fault := by
  obtain ⟨hw, -⟩ := h
  cases i with
  | reset | tabstart | encstart | encend | decstart | decend =>
    rw [hw]
    nofun
  | tabb b =>
    rcases hw.1 with e | e <;> rw [e]
    · exact hm
    · nofun
  | _ =>
    rw [hw]
    exact hm

theorem effect_of_bodyOf_go {i : Instr} {s t : State} (e : bodyOf i s = .go t) : Effect i s t := by
  have h := bodyOf_effect i s
  rw [e] at h
  cases h
  assumption

/-- A command enters `FAULT` by a failed `require` (R135) or by a `raise` of its pseudocode (R266). -/
theorem exec_enters_fault {i : Instr} {s t : State} (hm : s.mode ≠ .fault) (h : exec i s = .next t)
    (ht : t.mode = .fault) : t = s.raised .sequence 0#4 (encode i) ∨ bodyOf i s = .raised t := by
  rcases exec_cases h with ⟨-, rfl⟩ | ⟨-, hfault, -⟩ | ⟨-, -, -, rfl⟩ | ⟨-, -, -, hgo | hraised⟩
  · cases ht
  · exact absurd hfault hm
  · exact .inl rfl
  · exact absurd ht ((effect_of_bodyOf_go hgo).mode_ne_fault hm)
  · exact .inr hraised

/-- No row of the code table records 0 or the reserved `IOFailure` (R262, R264). -/
theorem FaultOf.isRecorded {i : Instr} {s t : State} (h : FaultOf i s t) : t.errcode.isRecorded = true := by
  rcases h with ⟨hcode, -⟩ | h
  · rw [hcode]
    rfl
  · cases i with
    | nop | reset | clrf | gentab | ser | tabstart | encstart => exact h.elim
    | enc x => rcases h with ⟨hcode, -⟩ | ⟨hcode, -⟩ <;> rw [hcode] <;> rfl
    | _ =>
      rw [h.1]
      rfl

/-! ### The clean faults (R267) -/

/-- The pseudocode of `i`, started in `s`, raises only faults the code table gives `i`, and each before anything is
written. -/
inductive Flow.FaultsCleanly (i : Instr) (s : State) : Flow → Prop
  | go (t : State) : FaultsCleanly i s (.go t)
  | stuck (f : Fault) : FaultsCleanly i s (.stuck f)
  | raise {c : ErrCode} {sub : BitVec 4} {info : Word} (h : FaultOf i s (s.raised c sub info)) :
    FaultsCleanly i s (raise c sub info s)

theorem countSym_faultsCleanly (x : Byte) (s : State) : (countSym x s).FaultsCleanly (.count x) s := by
  unfold countSym
  split
  · exact .raise (.inr ⟨rfl, rfl, rfl⟩)
  · exact .go _

theorem buildTree_faultsCleanly (s : State) : (buildTree s).FaultsCleanly .build s := by
  unfold buildTree
  split
  · exact .raise (.inr ⟨rfl, rfl, rfl⟩)
  · exact .go _

theorem genTable_faultsCleanly (s : State) : (genTable s).FaultsCleanly .gentab s := by
  unfold genTable
  split
  · exact .stuck _
  · exact .go _

theorem parseByte_faultsCleanly (b : Byte) (s : State) : (parseByte b s).FaultsCleanly (.tabb b) s := by
  unfold parseByte
  split <;> rename_i hp
  case h_1 | h_3 | h_4 | h_5 => exact .go _
  case h_2 =>
    split
    · exact .raise (.inr ⟨rfl, .inl ⟨rfl, hp, fieldSoFar_eq s b⟩⟩)
    · exact .go _
  case h_7 =>
    split
    · exact .raise (.inr ⟨rfl, .inr ⟨rfl, hp, rfl⟩⟩)
    · exact .go _
  case h_6 | h_8 => split <;> exact .go _
  case h_9 =>
    dsimp only
    split <;> exact .go _

theorem encodeSym_faultsCleanly (x : Byte) (s : State) : (encodeSym x s).FaultsCleanly (.enc x) s := by
  unfold encodeSym
  split
  · exact .raise (.inr (.inl ⟨rfl, rfl, rfl⟩))
  · split
    · exact .raise (.inr (.inr ⟨rfl, rfl, rfl⟩))
    · exact .go _

theorem endEncoding_faultsCleanly (s : State) : (endEncoding s).FaultsCleanly .encend s := by
  unfold endEncoding
  split
  · exact .go _
  · exact .raise (.inr ⟨rfl, rfl, rfl⟩)

theorem startDecoding_faultsCleanly (s : State) : (startDecoding s).FaultsCleanly .decstart s := by
  unfold startDecoding
  split
  · exact .go _
  · split
    · exact .raise (.inr ⟨rfl, rfl, rfl⟩)
    · split
      · exact .stuck _
      · exact .go _
      · exact .go _

theorem decodeBit_faultsCleanly (b : Bool) (s : State) : (decodeBit b s).FaultsCleanly (.decbit b) s := by
  cases e : decodeBit b s with
  | go t => exact .go t
  | stuck f => exact .stuck f
  | raised t =>
    obtain ⟨-, rfl, -⟩ := decodeBit_raised e
    exact .raise (.inr ⟨rfl, rfl, missingChildInfo_eq b s.cur⟩)

theorem endDecoding_faultsCleanly (s : State) : (endDecoding s).FaultsCleanly .decend s := by
  unfold endDecoding
  split
  · exact .go _
  · exact .raise (.inr ⟨rfl, rfl, rfl⟩)

/-- Every command but `DECB` and `RECON` raises before it writes (R267). -/
theorem bodyOf_faultsCleanly {i : Instr} (hdecb : ∀ b, i ≠ .decb b) (hrecon : i ≠ .recon) (s : State) :
    (bodyOf i s).FaultsCleanly i s := by
  cases i with
  | nop | reset | clrf | ser | tabstart | encstart => exact .go _
  | count x => exact countSym_faultsCleanly x s
  | build => exact buildTree_faultsCleanly s
  | gentab => exact genTable_faultsCleanly s
  | recon => exact absurd rfl hrecon
  | tabb b => exact parseByte_faultsCleanly b s
  | tabend => exact .raise (.inr ⟨rfl, rfl, rfl⟩)
  | enc x => exact encodeSym_faultsCleanly x s
  | encend => exact endEncoding_faultsCleanly s
  | decstart => exact startDecoding_faultsCleanly s
  | decb b => exact absurd rfl (hdecb b)
  | decbit b => exact decodeBit_faultsCleanly b s
  | decend => exact endDecoding_faultsCleanly s

/-- A clean fault is one of the code table, and the state with that record. -/
theorem Flow.FaultsCleanly.of_raised {i : Instr} {s t : State} {r : Flow} (h : r.FaultsCleanly i s)
    (e : r = .raised t) : FaultOf i s t ∧ t = faulted t.errcode t.errsub t.errinfo s := by
  cases h with
  | go u => cases e
  | stuck f => cases e
  | raise h =>
    cases e
    exact ⟨h, rfl⟩

/-! ### The faults of `DECB` and `RECON` -/

/-- A fault in a run of bits is that of one of them, with `CUR` where the bits before it have led (R216, R265). -/
theorem decodeBits_raised {c : BitSeq} {s t : State} (h : decodeBits c s = .raised t) :
    ∃ (b : Bool) (u : State), t = u.raised .structuralCorruption 1#4 (missingChildInfo b u.cur) := by
  induction c generalizing s with
  | nil => cases h
  | cons b c ih =>
    rcases bind_eq_raised h with hb | ⟨u, -, hc⟩
    · obtain ⟨-, ht, -⟩ := decodeBit_raised hb
      exact ⟨b, s, ht⟩
    · exact ih hc

theorem faultOf_decb {b : Byte} {s t : State} (h : decodeBits (byteBits b) s = .raised t) : FaultOf (.decb b) s t := by
  obtain ⟨d, u, rfl⟩ := decodeBits_raised h
  exact .inr ⟨rfl, rfl, d, missingChildInfo_eq d u.cur⟩

theorem faultOf_recon {s t : State} (h : reconTree s = .raised t) : FaultOf .recon s t := by
  rcases bind_eq_raised h with hloop | ⟨u, -, hdone⟩
  · obtain ⟨x, hx, sub, hsub, ht⟩ := placeSyms_raised hloop
    rw [ht]
    exact .inr ⟨rfl, hsub, x, hx, rfl⟩
  · cases hdone

/-- Every fault a pseudocode raises is one the code table gives its command (R262, R263). -/
theorem faultOf_of_raised {i : Instr} {s t : State} (h : bodyOf i s = .raised t) : FaultOf i s t := by
  cases i with
  | decb b => exact faultOf_decb h
  | recon => exact faultOf_recon h
  | _ => exact ((bodyOf_faultsCleanly (by nofun) (by nofun) s).of_raised h).1

end Sys2Proof.Machine
end

section
/-! PROOFS. The faults of the block (R262 to R269). -/

namespace Sys2Proof.Machine

/-- Settles O47: a failed `require` writes the record only, and so does each `raise` of the other commands. -/
theorem faultsAreClean : Obligations.FaultsAreClean := by
  unfold Obligations.FaultsAreClean
  intro i s t hm h ht hdecb hrecon
  rcases exec_enters_fault hm h ht with rfl | hraised
  · rfl
  · exact ((bodyOf_faultsCleanly hdecb hrecon s).of_raised hraised).2

/-- Settles O48: a failed `require` records `SequenceError`, and each `raise` a row of the code table; no row holds 0 or
`IOFailure`. -/
theorem raisedFaultsFollowTheCodeTable : Obligations.RaisedFaultsFollowTheCodeTable := by
  unfold Obligations.RaisedFaultsFollowTheCodeTable
  intro i s t hm h ht
  have hrow : FaultOf i s t := by
    rcases exec_enters_fault hm h ht with rfl | hraised
    · exact .inl ⟨rfl, rfl, rfl⟩
    · exact faultOf_of_raised hraised
  exact ⟨hrow, (isRecorded_iff _).mp hrow.isRecorded⟩

/-- In `FAULT` an event that is no reset leaves the mode, the record and `OUT` as they are (R131, R269). -/
theorem handle_of_fault {e : Event} {s t : State} (hm : s.mode = .fault) (h : handle e s = .next t) (hrst : e ≠ .rst)
    (hreset : e ≠ .regWrite 0#15 (encode .reset)) : t.mode = .fault ∧ t.record = s.record ∧ t.out = s.out := by
  rcases handle_cases h with ⟨a, -, rfl⟩ | ⟨w, i, r, rfl, hd, hr, rfl⟩ | ⟨w, d, -, -, -, rfl⟩ |
    ⟨w, d, -, -, hne, -⟩ | ⟨a, x, v, -, -, hidle, -⟩ | ⟨a, v, -, -, rfl⟩ | ⟨-, rfl⟩ | ⟨he, -⟩
  · exact ⟨hm, rfl, rfl⟩
  · have hi : i ≠ .reset := by
      rintro rfl
      exact hreset (by rw [encode_of_decode hd])
    rw [exec_of_fault hi hm] at hr
    cases hr
    simp [State.record, hm]
  · simp [State.record, hm]
  · exact absurd hm hne
  · cases hidle.symm.trans hm
  · exact ⟨hm, rfl, rfl⟩
  · simp [State.record, hm]
  · exact absurd he hrst

/-- Settles O46: the next event is one of the two resets, or leaves `FAULT`, the record and `OUT`. -/
theorem faultIsLeftOnlyByReset : Obligations.FaultIsLeftOnlyByReset := by
  unfold Obligations.FaultIsLeftOnlyByReset
  intro s t hm h
  rcases step_cases h with ⟨-, rfl⟩ | ⟨e, rest, hn, he⟩
  · exact .inr ⟨hm, rfl, rfl, rfl, rfl⟩
  · by_cases hrst : e = .rst
    · exact .inl ⟨rest, .inl (hrst ▸ hn)⟩
    · by_cases hreset : e = .regWrite 0#15 (encode .reset)
      · exact .inl ⟨rest, .inr (hreset ▸ hn)⟩
      · obtain ⟨hmode, hrecord, hout⟩ := handle_of_fault (s := { s with pending := rest }) hm he hrst hreset
        simp only [State.record, Prod.mk.injEq] at hrecord
        obtain ⟨hcode, hsub, hinfo⟩ := hrecord
        exact .inr ⟨hmode, hcode, hsub, hinfo, hout⟩

end Sys2Proof.Machine
end

section
/-! SUPPORT. The register space after reset (R291): which address each location stands at (R62), and what it reads. -/

namespace Sys2Proof.Machine

/-- The address of a location (R62). -/
def Loc.addr : Loc → Nat
  | .cmd => 0x0000
  | .status => 0x0004
  | .errcode => 0x0008
  | .errinfo => 0x000C
  | .nent => 0x0010
  | .nsym => 0x0014
  | .root => 0x0018
  | .nn => 0x001C
  | .enccnt => 0x0020
  | .rem => 0x0024
  | .cur => 0x0028
  | .bitacc => 0x002C
  | .parse => 0x0030
  | .freq x => 0x0400 + 4 * x.toNat
  | .clen x => 0x0800 + 4 * x.toNat
  | .cbits x w => 0x2000 + 32 * x.toNat + 4 * w
  | .node h f => 0x4000 + 16 * h + 4 * f

/-- A location stands at one address only (R62). -/
theorem toNat_of_locate {a : Addr} {l : Loc} (h : locate a = some l) : a.toNat = l.addr := by
  unfold locate at h
  dsimp only at h
  split at h
  · cases h
  · split at h
    · split at h <;> cases h <;> dsimp only [Loc.addr] <;> omega
    · split at h
      · cases h
        simp only [Loc.addr, BitVec.toNat_ofNat]
        omega
      · split at h
        · cases h
          simp only [Loc.addr, BitVec.toNat_ofNat]
          omega
        · split at h
          · cases h
          · split at h
            · cases h
              simp only [Loc.addr, BitVec.toNat_ofNat]
              omega
            · split at h
              · cases h
                simp only [Loc.addr]
                omega
              · cases h

/-- Every word but `ROOT` and `CUR` reads 0 after reset (R291). -/
theorem readLoc_reset {l : Loc} (hroot : l ≠ .root) (hcur : l ≠ .cur) : readLoc l State.reset = 0#32 := by
  cases l with
  | root => exact absurd rfl hroot
  | cur => exact absurd rfl hcur
  | _ => rfl

theorem readsAs_reset {addr : Addr} (hloc : ¬ NoLocation addr) (hroot : addr ≠ 0x0018#15) (hcur : addr ≠ 0x0028#15) :
    ReadsAs State.reset addr 0#32 := by
  obtain ⟨l, hl⟩ := Option.ne_none_iff_exists'.mp (mt (locate_eq_none_iff addr).mp hloc)
  have haddr := toNat_of_locate hl
  refine readsAs_of_locate hl (readLoc_reset ?_ ?_)
  · rintro rfl
    exact hroot (BitVec.eq_of_toNat_eq haddr)
  · rintro rfl
    exact hcur (BitVec.eq_of_toNat_eq haddr)

end Sys2Proof.Machine
end

section
/-! PROOFS. Reset (R290, R291). -/

namespace Sys2Proof.Machine

/-- What `rst` leaves (R290, R291). -/
theorem rstBlock_eq (s : State) :
    rstBlock s = { afterReset s with
      outq := [], held := [], taken := [], answers := if s.held = [] then s.answers else s.answers ++ [.ok] } := by
  unfold rstBlock State.waits
  cases s.held <;> rfl

/-- Settles O49: the bus never holds `rst` back, and `rstBlock` resets. -/
theorem rstPinResets : Obligations.RstPinResets := by
  unfold Obligations.RstPinResets
  intro s es hp
  rw [step_of_nextEvent (nextEvent_of_outside rfl hp)]
  exact congrArg Host.Outcome.next (rstBlock_eq _)

/-- Settles O50: `resetBlock` lists every element, and every location but two reads 0. -/
theorem resetValues : Obligations.ResetValues := by
  unfold Obligations.ResetValues
  refine ⟨rfl, rfl, fun s => congrArg Host.Outcome.next (resetBlock_eq_afterReset s), ?_,
    readsAs_of_locate rfl rfl, readsAs_of_locate rfl rfl, ?_⟩
  · intro addr halign hlt hroot hcur
    refine readsAs_reset ?_ hroot hcur
    unfold NoLocation
    omega
  · intro addr hloc hge
    refine readsAs_reset hloc ?_ ?_ <;> rintro rfl <;> exact absurd hge (by decide)

/-- Settles O51: after reset the stores, the arena, the queue and the writer are empty, the mode is `IDLE` and no fault
is recorded. -/
theorem resetMeetsTheInvariants : Obligations.ResetMeetsTheInvariants := by
  unfold Obligations.ResetMeetsTheInvariants
  exact ⟨⟨Memory.countsWf_nil, Memory.wf_nil⟩, Unfaulted.faultRecordOk ⟨nofun, rfl⟩, ⟨nofun, nofun, nofun⟩,
    .of_clear rfl rfl, queueOk_of_empty rfl rfl, .of_mode nofun, treeOk_reset, lengthsOk_of_empty rfl rfl⟩

end Sys2Proof.Machine
end

section
/-! PROOFS. `FREQ` and the code table stay in canonical form (log 4). -/

namespace Sys2Proof.Machine

theorem StoresOk.congr {s t : State} (h : StoresOk s) (hfreq : t.freq = s.freq) (htable : t.table = s.table) :
    StoresOk t := by
  rwa [StoresOk, hfreq, htable]

theorem storesOk_of_empty {s : State} (hfreq : s.freq = []) (htable : s.table = []) : StoresOk s := by
  rw [StoresOk, hfreq, htable]
  exact ⟨Memory.countsWf_nil, Memory.wf_nil⟩

theorem StoresOk.setFreq {s : State} (h : StoresOk s) (x : Byte) (v : Word) : StoresOk (setFreq x v s) :=
  ⟨countsWf_setFreq x v h.1, h.2⟩

theorem StoresOk.raise {s : State} (h : StoresOk s) (c : ErrCode) (sub : BitVec 4) (info : Word) :
    (raise c sub info s).Leaves StoresOk := .raised (h.congr rfl rfl)

theorem countSym_storesOk (x : Byte) {s : State} (h : StoresOk s) : (countSym x s).Leaves StoresOk := by
  unfold countSym
  split
  · exact h.raise _ _ _
  · exact .go (h.setFreq x _)

theorem buildTree_storesOk {s : State} (h : StoresOk s) : (buildTree s).Leaves StoresOk := by
  unfold buildTree
  split
  · exact h.raise _ _ _
  · exact .go ⟨h.1, Memory.wf_nil⟩

theorem genTable_storesOk {s : State} (h : StoresOk s) : (genTable s).Leaves StoresOk := by
  unfold genTable
  split
  · exact .stuck _
  · rename_i cs _
    have hcodes := wf_storeCodes cs (s := { s with table := [] }) Memory.wf_nil
    rw [storeCodes_frame]
    exact .go ⟨h.1, hcodes⟩

theorem StoresOk.entryDone {s : State} (h : StoresOk s) : StoresOk (entryDone s) := by
  have htable := wf_setCode s.psym (s.pbits.take s.plen.toNat) h.2
  unfold Machine.entryDone
  dsimp only
  split <;> exact ⟨h.1, htable⟩

theorem parseByte_storesOk (b : Byte) {s : State} (h : StoresOk s) : (parseByte b s).Leaves StoresOk := by
  unfold parseByte
  split
  case h_1 | h_3 | h_4 | h_5 => exact .go (h.congr rfl rfl)
  case h_2 | h_7 =>
    split
    · exact h.raise _ _ _
    · exact .go (h.congr rfl rfl)
  case h_6 => split <;> exact .go (h.congr rfl rfl)
  case h_8 =>
    split
    · exact .go (StoresOk.entryDone (h.congr rfl rfl))
    · exact .go (h.congr rfl rfl)
  case h_9 =>
    dsimp only
    split
    · exact .go (StoresOk.entryDone (h.congr rfl rfl))
    · exact .go (h.congr rfl rfl)

/-- Only `CLRF`, `COUNT`, `BUILD`, `GENTAB`, `TABSTART` and `TABB` write one of the two stores. -/
theorem bodyOf_storesOk (i : Instr) (s : State) (h : StoresOk s) : (bodyOf i s).Leaves StoresOk := by
  cases i with
  | reset => exact .go (storesOk_of_empty rfl rfl)
  | clrf => exact .go ⟨Memory.countsWf_nil, h.2⟩
  | count x => exact countSym_storesOk x h
  | build => exact buildTree_storesOk h
  | gentab => exact genTable_storesOk h
  | tabstart => exact .go ⟨h.1, Memory.wf_nil⟩
  | tabb b => exact parseByte_storesOk b h
  | _ =>
    refine bodyOf_leaves h (fun t he => ?_) (fun u c sub info _ hu => hu.congr rfl rfl)
    rw [he.1]
    exact h.congr rfl rfl

/-- Settles O52: every write of `FREQ` and of the code table inserts, erases or clears, and each keeps the form. -/
theorem stepKeepsStoresCanonical : Obligations.StepKeepsStoresCanonical := by
  unfold Obligations.StepKeepsStoresCanonical
  intro s t
  refine step_keeps StoresOk ?_ ?_ ?_ ?_ ?_ ?_ ?_
  · exact fun s es h => h.congr rfl rfl
  · exact fun s a h => h.congr rfl rfl
  · intro i s t
    exact exec_keeps (fun s => storesOk_of_empty rfl rfl) (fun s c sub info h => h.congr rfl rfl)
      (fun i s _ h => bodyOf_storesOk i s h)
  · exact fun s w h _ => h.congr rfl rfl
  · exact fun s x v h _ => h.setFreq x v
  · exact fun s h => h.congr (sinkTake_freq s) (sinkTake_table s)
  · intro s _
    rw [rstBlock_eq]
    exact storesOk_of_empty rfl rfl

end Sys2Proof.Machine
end
